-- ==== Sys2Proof/Word.lean ====
section
/-! DEFINITION. The words of the winesynth CORE: bytes, binary32 patterns, and the words of its three streams
(spec 00_scope.md R7, R9; 20_memory.md R52). -/

namespace Sys2Proof

/-- One byte of a byte transport (20_memory.md R53). -/
abbrev Byte := BitVec 8

/-- An IEEE 754 binary32 value, held as its encoding (00_scope.md R9). -/
abbrev F32 := BitVec 32

/-- A word of the CMD stream (20_memory.md R52, 30_encoding.md R70). -/
abbrev CmdWord := BitVec 64

/-- A word of the OUT stream (20_memory.md R52, 30_encoding.md R80). -/
abbrev OutWord := BitVec 32

/-- A word of the STATUS stream (20_memory.md R52, 30_encoding.md R81). -/
abbrev StatusWord := BitVec 64

end Sys2Proof
end

