-- ==== Sys2Proof/Syntax.lean ====
section
/-! DEFINITION. The command set as syntax: one constructor per row of spec/opcode_table.json (30_encoding.md R71).
An operand is the command field that carries it, unsigned and taken as it stands (R72 to R75, R82). Reserved fields carry
nothing (R76), so no constructor holds one. -/

namespace Sys2Proof

/-- A decoded command. -/
inductive Instr where
  /-- `NOP`, OP 0x0 (46_control.md R231). -/
  | nop
  /-- `PARAM_SET` of `GAIN`, PID 0 (43_parameter_intake.md R160): `pos` is carried and ignored (R162), `value` is raw binary32 bits. -/
  | paramGain (pos : BitVec 24) (value : F32)
  /-- `PARAM_SET` of `FREQ`, PID 1 (R160). -/
  | paramFreq (pos : BitVec 24) (value : F32)
  /-- `PARAM_SET` of `FINE`, PID 2 (R160). -/
  | paramFine (pos : BitVec 24) (value : F32)
  /-- `PARAM_SET` of `RES`, PID 3 (R160). -/
  | paramRes (pos : BitVec 24) (value : F32)
  /-- `PARAM_SET` of `WAVE`, PID 4 (R160). -/
  | paramWave (pos : BitVec 24) (value : F32)
  /-- `PARAM_SET` of `ATTACK`, PID 5 (R160). -/
  | paramAttack (pos : BitVec 24) (value : F32)
  /-- `PARAM_SET` of `RELEASE`, PID 6 (R160). -/
  | paramRelease (pos : BitVec 24) (value : F32)
  /-- `PARAM_SET` of `BYPASS`, PID 7 (R160). -/
  | paramBypass (pos : BitVec 24) (value : F32)
  /-- `PARAM_SET` of a reserved id, PID 8 to 15 (R161). -/
  | paramReserved (pid : BitVec 4) (pos : BitVec 24) (value : F32)
  /-- `NOTE_ON`, OP 0x2 (44_note_events.md R180). -/
  | noteOn (pitch vel : BitVec 7) (chan : BitVec 4)
  /-- `NOTE_OFF`, OP 0x3 (R181). -/
  | noteOff (pitch vel : BitVec 7) (chan : BitVec 4)
  /-- `PROCESS`, OP 0x4 (45_process_block.md R200): `c` channels, `n` samples. -/
  | process (c : BitVec 8) (n : BitVec 32)
  /-- `ACTIVATE`, OP 0x5 (46_control.md R230). -/
  | activate
  /-- Reserved opcode 0x6 (R232). -/
  | reserved6
  /-- Reserved opcode 0x7 (R232). -/
  | reserved7
  /-- Reserved opcode 0x8 (R232). -/
  | reserved8
  /-- Reserved opcode 0x9 (R232). -/
  | reserved9
  /-- Reserved opcode 0xA (R232). -/
  | reservedA
  /-- Reserved opcode 0xB (R232). -/
  | reservedB
  /-- Reserved opcode 0xC (R232). -/
  | reservedC
  /-- Reserved opcode 0xD (R232). -/
  | reservedD
  /-- Reserved opcode 0xE (R232). -/
  | reservedE
  /-- Reserved opcode 0xF (R232). -/
  | reservedF
  deriving DecidableEq, Repr

end Sys2Proof
end

