-- ==== Sys2Proof/WellFormed.lean ====
section
/-! DEFINITION. Which terms of `Instr` stand for a command word. The field widths of 30_encoding.md R72 to R75 are in the
types; one check is left, that the row of the reserved parameter ids holds a reserved id (20_memory.md R51). -/

namespace Sys2Proof

/-- A parameter id in 8..15 selects no register (20_memory.md R51). -/
def reservedPid (pid : BitVec 4) : Bool := decide (8 ≤ pid.toNat)

/-- The term is a row of the opcode table with operands the row admits. -/
def Instr.wellFormed : Instr → Bool
  | .nop => true
  | .paramGain _ _ => true
  | .paramFreq _ _ => true
  | .paramFine _ _ => true
  | .paramRes _ _ => true
  | .paramWave _ _ => true
  | .paramAttack _ _ => true
  | .paramRelease _ _ => true
  | .paramBypass _ _ => true
  | .paramReserved pid _ _ => reservedPid pid
  | .noteOn _ _ _ => true
  | .noteOff _ _ _ => true
  | .process _ _ => true
  | .activate => true
  | .reserved6 => true
  | .reserved7 => true
  | .reserved8 => true
  | .reserved9 => true
  | .reservedA => true
  | .reservedB => true
  | .reservedC => true
  | .reservedD => true
  | .reservedE => true
  | .reservedF => true

end Sys2Proof
end

