-- ==== Sys2Proof/Decode.lean ====
section
/-! DEFINITION. Decoding a command word (30_encoding.md R70 to R77), its transport as bytes (20_memory.md R53, R54), and the
encoder written from the same field tables. -/

namespace Sys2Proof

/-! ## Fields -/

/-- `w[lo+len-1 : lo]` (00_scope.md R7). -/
def field (w : CmdWord) (lo len : Nat) : BitVec len := w.extractLsb' lo len

/-- `OP = cmd[63:60]` (30_encoding.md R70). -/
def fieldOp (w : CmdWord) : BitVec 4 := field w 60 4
/-- `PID = cmd[59:56]` (R72). -/
def fieldPid (w : CmdWord) : BitVec 4 := field w 56 4
/-- `POS = cmd[55:32]` (R72). -/
def fieldPos (w : CmdWord) : BitVec 24 := field w 32 24
/-- `VALUE = cmd[31:0]` (R72). -/
def fieldValue (w : CmdWord) : F32 := field w 0 32
/-- `CHAN = cmd[27:24]` (R73). -/
def fieldChan (w : CmdWord) : BitVec 4 := field w 24 4
/-- `VEL = cmd[22:16]` (R73). -/
def fieldVel (w : CmdWord) : BitVec 7 := field w 16 7
/-- `PITCH = cmd[6:0]` (R73). -/
def fieldPitch (w : CmdWord) : BitVec 7 := field w 0 7
/-- `C = cmd[39:32]` (R74). -/
def fieldC (w : CmdWord) : BitVec 8 := field w 32 8
/-- `N = cmd[31:0]` (R74). -/
def fieldN (w : CmdWord) : BitVec 32 := field w 0 32

/-! ## Decoding a word -/

/-- The row of a `PARAM_SET` word, selected by PID (20_memory.md R51). -/
def decodeParam (pid : BitVec 4) (pos : BitVec 24) (value : F32) : Instr :=
  match pid.toNat with
  | 0 => .paramGain pos value
  | 1 => .paramFreq pos value
  | 2 => .paramFine pos value
  | 3 => .paramRes pos value
  | 4 => .paramWave pos value
  | 5 => .paramAttack pos value
  | 6 => .paramRelease pos value
  | 7 => .paramBypass pos value
  | _ => .paramReserved pid pos value -- 8..15

/-- The command a 64-bit word is (30_encoding.md R77): total, selected by OP alone, PID choosing the row of a `PARAM_SET`.
Reserved fields are not looked at (R76). -/
def decodeWord (w : CmdWord) : Instr :=
  match (fieldOp w).toNat with
  | 0 => .nop
  | 1 => decodeParam (fieldPid w) (fieldPos w) (fieldValue w)
  | 2 => .noteOn (fieldPitch w) (fieldVel w) (fieldChan w)
  | 3 => .noteOff (fieldPitch w) (fieldVel w) (fieldChan w)
  | 4 => .process (fieldC w) (fieldN w)
  | 5 => .activate
  | 6 => .reserved6
  | 7 => .reserved7
  | 8 => .reserved8
  | 9 => .reserved9
  | 10 => .reservedA
  | 11 => .reservedB
  | 12 => .reservedC
  | 13 => .reservedD
  | 14 => .reservedE
  | _ => .reservedF -- 15

/-! ## Words as bytes -/

/-- The four bytes of a 32-bit word, `w[7:0]` first (20_memory.md R53). -/
def bytes32 (w : BitVec 32) : List Byte :=
  [w.extractLsb' 0 8, w.extractLsb' 8 8, w.extractLsb' 16 8, w.extractLsb' 24 8]

/-- The eight bytes of a 64-bit word, `w[7:0]` first (R53). -/
def bytes64 (w : BitVec 64) : List Byte :=
  [w.extractLsb' 0 8, w.extractLsb' 8 8, w.extractLsb' 16 8, w.extractLsb' 24 8,
   w.extractLsb' 32 8, w.extractLsb' 40 8, w.extractLsb' 48 8, w.extractLsb' 56 8]

/-- The bytes of a command word on a byte transport (R53). -/
def wordBytes (w : CmdWord) : List Byte := bytes64 w

/-- The bytes of an OUT word on a byte transport (R53). -/
def outBytes (w : OutWord) : List Byte := bytes32 w

/-- The bytes of a STATUS word on a byte transport (R53: "Where a transport carries a word as bytes, the bytes are
little-endian"). -/
def statusBytes (w : StatusWord) : List Byte := bytes64 w

/-- The command word whose bytes, lowest first, are `b0 .. b7` (R53). -/
def wordOfBytes (b0 b1 b2 b3 b4 b5 b6 b7 : Byte) : CmdWord :=
  b7 ++ b6 ++ b5 ++ b4 ++ b3 ++ b2 ++ b1 ++ b0

/-- Why the decoder gives no command. -/
inductive DecodeError where
  /-- Fewer than eight bytes: "A byte transport that delivers a partial word has not delivered a word" (20_memory.md R54). -/
  | partialWord
  deriving DecidableEq, Repr

/-- The first command of a byte sequence and the bytes after it. A partial word is rejected by name (R54) and every whole
word is a command (30_encoding.md R77). -/
def decode : List Byte → Except DecodeError (Instr × List Byte)
  | b0 :: b1 :: b2 :: b3 :: b4 :: b5 :: b6 :: b7 :: rest => .ok (decodeWord (wordOfBytes b0 b1 b2 b3 b4 b5 b6 b7), rest)
  | _ => .error .partialWord

/-- The whole words of a byte sequence, in order, and the bytes of the partial word that is left (R53, R54). -/
def wordsOfBytes : List Byte → List CmdWord × List Byte
  | b0 :: b1 :: b2 :: b3 :: b4 :: b5 :: b6 :: b7 :: rest =>
    let (ws, left) := wordsOfBytes rest
    (wordOfBytes b0 b1 b2 b3 b4 b5 b6 b7 :: ws, left)
  | left => ([], left)

/-- The instruction the decoder reads from a word given as a number of `nbits` bits (bit 0 the least significant bit of
the command word): the word is laid out as bytes (R53) and decoded. -/
def decodeTableWord (nbits w : Nat) : Option Instr :=
  match decode (wordBytes (BitVec.ofNat 64 (w % 2 ^ nbits))) with
  | .ok (i, _) => some i
  | .error _ => none

/-! ## Encoding -/

/-- Format P (30_encoding.md R72): OP 0x1, PID, POS, VALUE. -/
def formatP (pid : BitVec 4) (pos : BitVec 24) (value : F32) : CmdWord := 0x1#4 ++ pid ++ pos ++ value

/-- Format N (R73): OP, 32 reserved bits, CHAN, a reserved bit, VEL, 9 reserved bits, PITCH. Reserved bits are 0 (R76). -/
def formatN (op : BitVec 4) (pitch vel : BitVec 7) (chan : BitVec 4) : CmdWord :=
  op ++ 0#32 ++ chan ++ 0#1 ++ vel ++ 0#9 ++ pitch

/-- Format B (R74): OP 0x4, 20 reserved bits, C, N. -/
def formatB (c : BitVec 8) (n : BitVec 32) : CmdWord := 0x4#4 ++ 0#20 ++ c ++ n

/-- Format X (R75): OP and 60 reserved bits. -/
def formatX (op : BitVec 4) : CmdWord := op ++ 0#60

/-- The word of a command, reserved fields zero (R71 to R76). -/
def encode : Instr → CmdWord
  | .nop => formatX 0x0#4
  | .paramGain pos value => formatP 0x0#4 pos value
  | .paramFreq pos value => formatP 0x1#4 pos value
  | .paramFine pos value => formatP 0x2#4 pos value
  | .paramRes pos value => formatP 0x3#4 pos value
  | .paramWave pos value => formatP 0x4#4 pos value
  | .paramAttack pos value => formatP 0x5#4 pos value
  | .paramRelease pos value => formatP 0x6#4 pos value
  | .paramBypass pos value => formatP 0x7#4 pos value
  | .paramReserved pid pos value => formatP pid pos value
  | .noteOn pitch vel chan => formatN 0x2#4 pitch vel chan
  | .noteOff pitch vel chan => formatN 0x3#4 pitch vel chan
  | .process c n => formatB c n
  | .activate => formatX 0x5#4
  | .reserved6 => formatX 0x6#4
  | .reserved7 => formatX 0x7#4
  | .reserved8 => formatX 0x8#4
  | .reserved9 => formatX 0x9#4
  | .reservedA => formatX 0xA#4
  | .reservedB => formatX 0xB#4
  | .reservedC => formatX 0xC#4
  | .reservedD => formatX 0xD#4
  | .reservedE => formatX 0xE#4
  | .reservedF => formatX 0xF#4

/-- The bits of a word that its format gives a meaning, the others being reserved (30_encoding.md R72 to R76). -/
def definedBits (w : CmdWord) : CmdWord :=
  match (fieldOp w).toNat with
  | 1 => 0xFFFFFFFFFFFFFFFF#64
  | 2 => 0xF00000000F7F007F#64
  | 3 => 0xF00000000F7F007F#64
  | 4 => 0xF00000FFFFFFFFFF#64
  | _ => 0xF000000000000000#64

/-! ## The opcode table -/

/-- A row of spec/opcode_table.json: `w` belongs to the row if `w & mask = match`. -/
structure OpRow where
  mask : CmdWord
  bits : CmdWord
  deriving DecidableEq, Repr

/-- The word belongs to the row. -/
def OpRow.holds (r : OpRow) (w : CmdWord) : Bool := w &&& r.mask == r.bits

/-- The row of a command, transcribed from spec/opcode_table.json. -/
def tableRow : Instr → OpRow
  | .nop => ⟨0xF000000000000000#64, 0x0000000000000000#64⟩
  | .paramGain _ _ => ⟨0xFF00000000000000#64, 0x1000000000000000#64⟩
  | .paramFreq _ _ => ⟨0xFF00000000000000#64, 0x1100000000000000#64⟩
  | .paramFine _ _ => ⟨0xFF00000000000000#64, 0x1200000000000000#64⟩
  | .paramRes _ _ => ⟨0xFF00000000000000#64, 0x1300000000000000#64⟩
  | .paramWave _ _ => ⟨0xFF00000000000000#64, 0x1400000000000000#64⟩
  | .paramAttack _ _ => ⟨0xFF00000000000000#64, 0x1500000000000000#64⟩
  | .paramRelease _ _ => ⟨0xFF00000000000000#64, 0x1600000000000000#64⟩
  | .paramBypass _ _ => ⟨0xFF00000000000000#64, 0x1700000000000000#64⟩
  | .paramReserved _ _ _ => ⟨0xF800000000000000#64, 0x1800000000000000#64⟩
  | .noteOn _ _ _ => ⟨0xF000000000000000#64, 0x2000000000000000#64⟩
  | .noteOff _ _ _ => ⟨0xF000000000000000#64, 0x3000000000000000#64⟩
  | .process _ _ => ⟨0xF000000000000000#64, 0x4000000000000000#64⟩
  | .activate => ⟨0xF000000000000000#64, 0x5000000000000000#64⟩
  | .reserved6 => ⟨0xF000000000000000#64, 0x6000000000000000#64⟩
  | .reserved7 => ⟨0xF000000000000000#64, 0x7000000000000000#64⟩
  | .reserved8 => ⟨0xF000000000000000#64, 0x8000000000000000#64⟩
  | .reserved9 => ⟨0xF000000000000000#64, 0x9000000000000000#64⟩
  | .reservedA => ⟨0xF000000000000000#64, 0xA000000000000000#64⟩
  | .reservedB => ⟨0xF000000000000000#64, 0xB000000000000000#64⟩
  | .reservedC => ⟨0xF000000000000000#64, 0xC000000000000000#64⟩
  | .reservedD => ⟨0xF000000000000000#64, 0xD000000000000000#64⟩
  | .reservedE => ⟨0xF000000000000000#64, 0xE000000000000000#64⟩
  | .reservedF => ⟨0xF000000000000000#64, 0xF000000000000000#64⟩

/-- The 24 rows of the table, in its order. -/
def tableRows : List OpRow :=
  [.nop, .paramGain 0 0, .paramFreq 0 0, .paramFine 0 0, .paramRes 0 0, .paramWave 0 0, .paramAttack 0 0, .paramRelease 0 0,
   .paramBypass 0 0, .paramReserved 8 0 0, .noteOn 0 0 0, .noteOff 0 0 0, .process 0 0, .activate, .reserved6, .reserved7,
   .reserved8, .reserved9, .reservedA, .reservedB, .reservedC, .reservedD, .reservedE, .reservedF].map tableRow

end Sys2Proof
end

