-- ==== Sys2Proof/Config.lean ====
section
/-! DEFINITION. The configuration of a model instance (00_scope.md R5, R6, R12; 60_exceptions.md R267) and the
free values: what the spec leaves to the instance and no proof may evaluate. -/

namespace Sys2Proof

/-- `PITCH_MODE` (00_scope.md R5, 44_note_events.md R186): which register gives the oscillator's base frequency. -/
inductive PitchMode where
  | knob
  | note
  deriving DecidableEq, Repr, Inhabited

/-- The patterns 00_scope.md R5 admits for `SAMPLE_RATE`: binary32, finite, `>= 1.0`. Positive patterns are ordered as
their values, so the range is one of bit patterns, from 1.0 up to below +inf. -/
abbrev SampleRate.valid (bits : F32) : Bool :=
  decide (0x3F800000 ≤ bits.toNat ∧ bits.toNat < 0x7F800000)

/-- `SAMPLE_RATE` (00_scope.md R5). A value outside R5 cannot be built: "A model refuses to be built with it"
(60_exceptions.md R267). -/
structure SampleRate where
  bits : F32
  ok : SampleRate.valid bits = true
  deriving DecidableEq, Repr

/-- The sample rate of the pattern `bits`, if R5 admits it. -/
def SampleRate.build (bits : F32) : Option SampleRate :=
  if h : SampleRate.valid bits = true then some ⟨bits, h⟩ else none

/-- The configuration of an instance that is plain data (00_scope.md R5): fixed for the life of the instance, changed by
no command. Log entry 1 says why the state carries it. -/
structure Cfg where
  sampleRate : SampleRate
  pitchMode : PitchMode
  filterEn : Bool
  deriving DecidableEq, Repr

/-- Building a configuration, refused outside R5 (60_exceptions.md R267). -/
def Cfg.build (rate : F32) (mode : PitchMode) (filterEn : Bool) : Option Cfg :=
  (SampleRate.build rate).map fun r => ⟨r, mode, filterEn⟩

/-- The numerics record (00_scope.md R12): the four transcendental functions, total and depending on their operand alone. -/
structure Numerics where
  sin : F32 → F32
  tan : F32 → F32
  pow1000 : F32 → F32
  exp2 : F32 → F32

/-- The binary32 operations that can meet an invalid operand (00_scope.md R9, 60_exceptions.md R265). -/
inductive FpOp where
  | add
  | sub
  | mul
  | div
  deriving DecidableEq, Repr

/-- FREE VALUE (log entry 2): the pattern offered for `SAMPLE_RATE` of the instance that `State.reset` starts. -/
opaque Config.rawSampleRate : F32

/-- FREE VALUE (log entry 2): `PITCH_MODE` of the instance that `State.reset` starts. -/
opaque Config.pitchMode : PitchMode

/-- FREE VALUE (log entry 2): `FILTER_EN` of the instance that `State.reset` starts. -/
opaque Config.filterEn : Bool

/-- FREE VALUES (log entry 3): four total functions, before the properties P1 to P4 of 00_scope.md R12 are imposed on
them (Machine/Numerics.lean). -/
opaque Config.rawSin : F32 → F32

/-- FREE VALUE (log entry 3), as `Config.rawSin`. -/
opaque Config.rawTan : F32 → F32

/-- FREE VALUE (log entry 3), as `Config.rawSin`. -/
opaque Config.rawPow1000 : F32 → F32

/-- FREE VALUE (log entry 3), as `Config.rawSin`. -/
opaque Config.rawExp2 : F32 → F32

/-- FREE VALUE (log entry 4): sign (bit 23) and fraction (bits 22:0) of the NaN that an operation on these operands gives.
The spec says "default IEEE results" (60_exceptions.md R265) and no NaN pattern. -/
opaque Config.nanBits : FpOp → F32 → F32 → BitVec 24

/-- The sample rate of the instance `State.reset` starts: any value R5 admits (log entry 2). -/
def Config.sampleRate : SampleRate :=
  if h : SampleRate.valid Config.rawSampleRate = true then ⟨Config.rawSampleRate, h⟩ else ⟨0x472C4400#32, by decide⟩

/-- The configuration of the instance `State.reset` starts: any configuration R5 admits (log entry 2). -/
def Config.cfg : Cfg := ⟨Config.sampleRate, Config.pitchMode, Config.filterEn⟩

end Sys2Proof
end

