-- ==== Sys2Proof/Machine/Float32.lean ====
section
/-! DEFINITION. IEEE 754 binary32 arithmetic as 00_scope.md R9 and R10 fix it: round to nearest, ties to even, no fused
operation, subnormals kept, comparisons false on NaN; and the exact literals and the named constants of R8 and R11.

A finite pattern is an exact multiple of 2^-149. `f32Mag` is that multiple, a natural number, so every operation is
exact integer arithmetic followed by one rounding (`roundLow`). -/

namespace Sys2Proof.Machine

/-- The sign bit. -/
def f32Sign (x : F32) : Bool := decide (0x80000000 ≤ x.toNat)

/-- The pattern less its sign bit, bits 30:0. Among non-NaN patterns it orders as the absolute value does. -/
def f32Low (x : F32) : Nat := x.toNat % 0x80000000

/-- The pattern is a NaN. -/
def f32IsNaN (x : F32) : Bool := decide (0x7F800000 < f32Low x)

/-- The pattern is an infinity. -/
def f32IsInf (x : F32) : Bool := decide (f32Low x = 0x7F800000)

/-- The pattern is finite. -/
def f32IsFinite (x : F32) : Bool := decide (f32Low x < 0x7F800000)

/-- The absolute value of the finite pattern with bits 30:0 equal to `l`, in units of 2^-149. -/
def magOfLow (l : Nat) : Nat :=
  if l < 0x800000 then l else (0x800000 + l % 0x800000) * 2 ^ (l / 0x800000 - 1)

/-- The absolute value of a finite pattern, in units of 2^-149. -/
def f32Mag (x : F32) : Nat := magOfLow (f32Low x)

/-- The value of a finite pattern, in units of 2^-149. -/
def f32Int (x : F32) : Int := if f32Sign x then -(f32Mag x : Int) else (f32Mag x : Int)

/-- The pattern with sign `s` and bits 30:0 equal to `l`. -/
def f32Pack (s : Bool) (l : Nat) : F32 := BitVec.ofNat 32 (if s then 0x80000000 + l else l)

/-- Round to nearest, ties to even (R9): bits 30:0 of the binary32 value nearest to `n / d` units of 2^-149. The unit in
the last place is `2^e`. Results past the largest finite value are +inf. -/
def roundLow (n d : Nat) : Nat :=
  let e := Nat.log2 (n / d) - 23
  let u := d * 2 ^ e
  let k := n / u
  let r := n % u
  let k' := if u < 2 * r ∨ (2 * r = u ∧ k % 2 = 1) then k + 1 else k
  min (0x800000 * e + k') 0x7F800000

/-- The NaN that an operation gives. Its sign and fraction are free (log entry 4). An all-zero fraction would be an
infinity, so that one choice is read as the fraction 0x400000. -/
def f32NaN (op : FpOp) (a b : F32) : F32 :=
  let f := Config.nanBits op a b
  let frac := if f.toNat % 0x800000 = 0 then 0x400000 else f.toNat % 0x800000
  f32Pack (decide (0x800000 ≤ f.toNat)) (0x7F800000 + frac)

/-- The sum of two values that are not NaN. -/
def faddCore (op : FpOp) (a b a' b' : F32) : F32 :=
  if f32IsInf a' then
    (if f32IsInf b' && (f32Sign a' != f32Sign b') then f32NaN op a b else a')
  else if f32IsInf b' then b'
  else
    let s := f32Int a' + f32Int b'
    if s = 0 then f32Pack (f32Sign a' && f32Sign b') 0
    else f32Pack (decide (s < 0)) (roundLow s.natAbs 1)

/-- `-x`: the sign bit flipped. -/
def fneg (x : F32) : F32 := f32Pack (!f32Sign x) (f32Low x)

/-- `a + b` (R9). -/
def fadd (a b : F32) : F32 :=
  if f32IsNaN a || f32IsNaN b then f32NaN .add a b else faddCore .add a b a b

/-- `a - b` (R9). -/
def fsub (a b : F32) : F32 :=
  if f32IsNaN a || f32IsNaN b then f32NaN .sub a b else faddCore .sub a b a (fneg b)

/-- `a × b` (R9). -/
def fmul (a b : F32) : F32 :=
  if f32IsNaN a || f32IsNaN b then f32NaN .mul a b
  else
    let s := f32Sign a != f32Sign b
    if f32IsInf a || f32IsInf b then
      (if f32Low a = 0 ∨ f32Low b = 0 then f32NaN .mul a b else f32Pack s 0x7F800000)
    else f32Pack s (roundLow (f32Mag a * f32Mag b) (2 ^ 149))

/-- `a ÷ b` (R9; division by zero and invalid operands give their default IEEE results, 60_exceptions.md R265). -/
def fdiv (a b : F32) : F32 :=
  if f32IsNaN a || f32IsNaN b then f32NaN .div a b
  else
    let s := f32Sign a != f32Sign b
    if f32IsInf a then (if f32IsInf b then f32NaN .div a b else f32Pack s 0x7F800000)
    else if f32IsInf b then f32Pack s 0
    else if f32Low b = 0 then (if f32Low a = 0 then f32NaN .div a b else f32Pack s 0x7F800000)
    else f32Pack s (roundLow (f32Mag a * 2 ^ 149) (f32Mag b))

/-- The order key of a pattern that is not NaN: `+0` and `-0` share 0. -/
def f32Key (x : F32) : Int := if f32Sign x then -(f32Low x : Int) else (f32Low x : Int)

/-- `a < b` (R10): false whenever either operand is NaN. -/
def flt (a b : F32) : Bool := !f32IsNaN a && !f32IsNaN b && decide (f32Key a < f32Key b)

/-- `a <= b` (R10). -/
def fle (a b : F32) : Bool := !f32IsNaN a && !f32IsNaN b && decide (f32Key a ≤ f32Key b)

/-- `a > b` (R10). -/
def fgt (a b : F32) : Bool := flt b a

/-- `a >= b` (R10). -/
def fge (a b : F32) : Bool := fle b a

/-- Numeric equality: `+0 = -0`, and NaN equals nothing (R10). -/
def feq (a b : F32) : Bool := !f32IsNaN a && !f32IsNaN b && decide (f32Key a = f32Key b)

/-- `a != b`, the negation of `a = b` (45_process_block.md R209; log entry 5 for NaN). -/
def fne (a b : F32) : Bool := !feq a b

/-- `|x|` clears the sign bit (R10). -/
def fabs (x : F32) : F32 := f32Pack false (f32Low x)

/-- `min(a, b)` is `if a > b then b else a` (R10). -/
def fmin (a b : F32) : F32 := if fgt a b then b else a

/-- `max(a, b)` is `if a < b then b else a` (R10). -/
def fmax (a b : F32) : F32 := if flt a b then b else a

/-- `float(i)` (R10): exact for `|i| <= 2^24`. -/
def floatOfInt (i : Int) : F32 := f32Pack (decide (i < 0)) (roundLow (i.natAbs * 2 ^ 149) 1)

/-- `roundHalfAway(x)` (R10), stated there for a finite `x >= 0`: the nearest integer, ties away from zero. A negative
`x` is rounded away from zero too (log entry 6: no rule reaches one). -/
def roundHalfAway (x : F32) : Int :=
  let m : Int := ((2 * f32Mag x + 2 ^ 149) / 2 ^ 150 : Nat)
  if f32Sign x then -m else m

/-! The literals of the rules (R8: every one exact) and the named constants (R11). -/

/-- `+0.0` -/
abbrev f0 : F32 := 0x00000000#32
/-- `0.5` -/
abbrev fHalf : F32 := 0x3F000000#32
/-- `1.0` -/
abbrev f1 : F32 := 0x3F800000#32
/-- `2.0` -/
abbrev f2 : F32 := 0x40000000#32
/-- `3.0`, that is `WAVEFORM_COUNT - 1` (R5, 43_parameter_intake.md R165) -/
abbrev f3 : F32 := 0x40400000#32
/-- `4.0` -/
abbrev f4 : F32 := 0x40800000#32
/-- `10.0` -/
abbrev f10 : F32 := 0x41200000#32
/-- `12.0` -/
abbrev f12 : F32 := 0x41400000#32
/-- `20.0` -/
abbrev f20 : F32 := 0x41A00000#32
/-- `200.0` -/
abbrev f200 : F32 := 0x43480000#32
/-- `440.0` -/
abbrev f440 : F32 := 0x43DC0000#32
/-- `999.0` -/
abbrev f999 : F32 := 0x4479C000#32
/-- `1000.0` -/
abbrev f1000 : F32 := 0x447A0000#32
/-- `1200.0` -/
abbrev f1200 : F32 := 0x44960000#32
/-- `2990.0` -/
abbrev f2990 : F32 := 0x453AE000#32
/-- `PI` (R11) -/
abbrev fPi : F32 := 0x40490FDB#32
/-- `TWO_PI` (R11) -/
abbrev fTwoPi : F32 := 0x40C90FDB#32
/-- `K_MS`, the binary32 value of 0.001 (R11) -/
abbrev fKMs : F32 := 0x3A83126F#32
/-- `K_NYQ`, the binary32 value of 0.49 (R11) -/
abbrev fKNyq : F32 := 0x3EFAE148#32
/-- `K_RES`, the binary32 value of 0.95 (R11) -/
abbrev fKRes : F32 := 0x3F733333#32

end Sys2Proof.Machine
end

