-- ==== Sys2Proof/Machine/State.lean ====
section
/-! DEFINITION. The state of the block (10_state.md R20 to R37; 70_reset_and_hazards.md R300, R302): parameter bank, voice
state, intake state, the three streams, and the instance's configuration; why a step may stop; the state after power-on. -/

namespace Sys2Proof.Machine

/-- The eight parameter ids that select a register (10_state.md R21, 20_memory.md R51). -/
inductive Pid where
  | gain
  | freq
  | fine
  | res
  | wave
  | attack
  | release
  | bypass
  deriving DecidableEq, Repr

/-- One value for each parameter id 0..7, in the order of R21. -/
structure PerPid (α : Type) where
  gain : α
  freq : α
  fine : α
  res : α
  wave : α
  attack : α
  release : α
  bypass : α
  deriving DecidableEq, Repr

/-- The parameter bank `reg` (10_state.md R21): six binary32 registers, the waveform selector 0..3 (R23) and the bypass bit
(R24). -/
structure ParamBank where
  gain : F32
  freq : F32
  fine : F32
  res : F32
  wave : Fin 4
  attack : F32
  release : F32
  bypass : Bool
  deriving DecidableEq, Repr

/-- The envelope state `ENV` (10_state.md R26). -/
inductive Env where
  | idle
  | attack
  | release
  deriving DecidableEq, Repr

/-- The voice state `v` (10_state.md R25). -/
structure Voice where
  phase : F32
  level : F32
  env : Env
  ic1 : F32
  ic2 : F32
  attackRate : F32
  releaseRate : F32
  noteFreq : F32
  deriving DecidableEq, Repr

/-- `pend.LAST` (10_state.md R32): the type of the last note event since the last block. -/
inductive LastNote where
  | none
  | on
  | off
  deriving DecidableEq, Repr

/-- The note record of the demultiplexer (10_state.md R32). -/
structure NoteRecord where
  last : LastNote
  onSeen : Bool
  pitch : BitVec 7
  offSeen : Bool
  deriving DecidableEq, Repr

/-- The intake state `pend` (10_state.md R31, R32): pending parameter changes, raw, and the note record. -/
structure Intake where
  pvalid : PerPid Bool
  pval : PerPid F32
  note : NoteRecord
  deriving DecidableEq, Repr

/-- A word the block sends (20_memory.md R52): on OUT or on STATUS. -/
inductive Emission where
  | out (w : OutWord)
  | status (w : StatusWord)
  deriving DecidableEq, Repr

/-- The whole state. `cmd` holds the CMD words the host has sent and the block has not taken, oldest first. `offered` holds
the words the last `PROCESS` sends and the host has not yet taken, and `emitted` those the host has taken, both oldest
first (20_memory.md R52, R58; 70_reset_and_hazards.md R310). `hostReady` is the host's side of that handshake (log entry 7):
whether it takes the offered word at each of the next offers; past its end the host always takes. `cfg` never changes
(00_scope.md R5, log entry 1). -/
structure State where
  cfg : Cfg
  reg : ParamBank
  v : Voice
  pend : Intake
  cmd : List CmdWord
  offered : List Emission
  emitted : List Emission
  hostReady : List Bool
  deriving DecidableEq, Repr

/-- No command faults: "No command raises a synchronous exception, whatever its bits and whatever the state"
(60_exceptions.md R260). So this type has no constructor. -/
inductive Fault
  deriving DecidableEq, Repr

/-- Why a step has no meaning. -/
inductive Refusal where
  /-- Raised by an arm of `exec` that has no meaning yet, never by a meaning. Safe: the model stops. No arm raises it now:
  every command has its meaning (60_exceptions.md R260). -/
  | notModelled (mnemonic : String)
  deriving DecidableEq, Repr

/-- The voice state after power-on and after `ACTIVATE` (10_state.md R25, 70_reset_and_hazards.md R302):
`NOTE_FREQ = 440.0`, everything else zero. -/
def Voice.reset : Voice :=
  { phase := 0#32, level := 0#32, env := .idle, ic1 := 0#32, ic2 := 0#32,
    attackRate := 0#32, releaseRate := 0#32, noteFreq := 0x43DC0000#32 }

/-- The empty note record (10_state.md R32). -/
def NoteRecord.empty : NoteRecord := { last := .none, onSeen := false, pitch := 0#7, offSeen := false }

/-- The same value for every parameter id. -/
def PerPid.fill {α : Type} (x : α) : PerPid α := ⟨x, x, x, x, x, x, x, x⟩

/-- The parameter bank after power-on (10_state.md R21, R300). -/
def ParamBank.reset : ParamBank :=
  { gain := 0#32, freq := 0#32, fine := 0#32, res := 0#32, wave := 0, attack := 0#32, release := 0#32, bypass := false }

/-- The state after power-on of an instance with the configuration `c` (70_reset_and_hazards.md R300): the streams are
empty. -/
def State.powerOn (c : Cfg) : State :=
  { cfg := c, reg := ParamBank.reset, v := Voice.reset,
    pend := { pvalid := PerPid.fill false, pval := PerPid.fill 0#32, note := NoteRecord.empty },
    cmd := [], offered := [], emitted := [], hostReady := [] }

/-- The state after power-on (R300) of an instance whose configuration is any R5 admits (log entry 2). -/
def State.reset : State := State.powerOn Config.cfg

end Sys2Proof.Machine
end

