-- ==== Sys2Proof/Machine/Operands.lean ====
section
/-! DEFINITION. Operand forms: the parameter ids as register selectors (20_memory.md R51), the mapping of a normalized value
to a register (43_parameter_intake.md R164 to R166), and the one operand that is converted on use (30_encoding.md R82,
44_note_events.md R183). -/

namespace Sys2Proof.Machine

/-- The register id a PID field selects; ids 8..15 select none (20_memory.md R51). -/
def pidOfField (pid : BitVec 4) : Option Pid :=
  match pid.toNat with
  | 0 => some .gain
  | 1 => some .freq
  | 2 => some .fine
  | 3 => some .res
  | 4 => some .wave
  | 5 => some .attack
  | 6 => some .release
  | 7 => some .bypass
  | _ => none

/-- The ids 0..7 in the order of the commit's loop (43_parameter_intake.md R163). -/
def pidsInOrder : List Pid := [.gain, .freq, .fine, .res, .wave, .attack, .release, .bypass]

/-- `a[pid]`. -/
def perPidGet {α : Type} (a : PerPid α) : Pid → α
  | .gain => a.gain
  | .freq => a.freq
  | .fine => a.fine
  | .res => a.res
  | .wave => a.wave
  | .attack => a.attack
  | .release => a.release
  | .bypass => a.bypass

/-- `a[pid] <- x`. -/
def perPidSet {α : Type} (a : PerPid α) (p : Pid) (x : α) : PerPid α :=
  match p with
  | .gain => { a with gain := x }
  | .freq => { a with freq := x }
  | .fine => { a with fine := x }
  | .res => { a with res := x }
  | .wave => { a with wave := x }
  | .attack => { a with attack := x }
  | .release => { a with release := x }
  | .bypass => { a with bypass := x }

/-- `clamp01(x)` is `if x > 1.0 then 1.0 else if x > 0.0 then x else +0.0` (00_scope.md R10, 43_parameter_intake.md R164). -/
def clamp01 (x : F32) : F32 := if fgt x f1 then f1 else if fgt x f0 then x else f0

/-- `waveIndex(x)` (43_parameter_intake.md R165): `roundHalfAway(x × 3.0)`, clamped to 0..3. -/
def waveIndex (x : F32) : Fin 4 :=
  let i := roundHalfAway (fmul x f3)
  if i ≤ 0 then 0 else if i = 1 then 1 else if i = 2 then 2 else 3

/-- `bypassBit(x)` is `if x >= 0.5 then 1 else 0` (43_parameter_intake.md R166). -/
def bypassBit (x : F32) : Bool := fge x fHalf

/-- `reg[pid] <- x` with the mapping of the id (43_parameter_intake.md R163): `x` is already clamped. -/
def writeParam (r : ParamBank) (p : Pid) (x : F32) : ParamBank :=
  match p with
  | .gain => { r with gain := x }
  | .freq => { r with freq := x }
  | .fine => { r with fine := x }
  | .res => { r with res := x }
  | .wave => { r with wave := waveIndex x }
  | .attack => { r with attack := x }
  | .release => { r with release := x }
  | .bypass => { r with bypass := bypassBit x }

/-- `NFREQ(p)` is `440.0 × EXP2(float(p - 69) ÷ 12.0)` (44_note_events.md R183). -/
def noteFrequency (num : Numerics) (pitch : BitVec 7) : F32 :=
  fmul f440 (num.exp2 (fdiv (floatOfInt ((pitch.toNat : Int) - 69)) f12))

end Sys2Proof.Machine
end

