-- ==== Sys2Proof/Machine/Flags.lean ====
section
/-! DEFINITION. The block's two status indications (10_state.md R36): the envelope state `ENV`, which is a register of the
voice, and the silence flag with the STATUS word that reports it (45_process_block.md R209, R210; 30_encoding.md R81). -/

namespace Sys2Proof.Machine

/-- The 2-bit encoding of `ENV`, where one is needed (10_state.md R26). -/
def envCode : Env → BitVec 2
  | .idle => 0#2
  | .attack => 1#2
  | .release => 2#2

/-- `NZ`: some sample of the block had `y != 0.0`, a numeric comparison (45_process_block.md R209). -/
def anyNonzero (ys : List F32) : Bool := ys.any fun y => fne y f0

/-- `SILENT` of a block whose sample loop ran: the envelope ended Idle and no sample was nonzero (R209). -/
def silentFlag (endEnv : Env) (ys : List F32) : Bool := decide (endEnv = .idle) && !anyNonzero ys

/-- `statusWord(s, C, N) = {s[0], 23'b0, C[7:0], N[31:0]}` (R210). -/
def statusWord (silent : Bool) (c : BitVec 8) (n : BitVec 32) : StatusWord :=
  (if silent then 1#1 else 0#1) ++ 0#23 ++ c ++ n

/-- The per-channel silence mask of the source: SILENT replicated over the `C` channels (30_encoding.md R81). -/
def silenceMask (silent : Bool) (c : BitVec 8) : List Bool := List.replicate c.toNat silent

end Sys2Proof.Machine
end

