-- ==== Sys2Proof/Machine/Envelope.lean ====
section
/-! DEFINITION. The envelope generator (41_envelope.md): the triggers R121 and R122 and the per-sample step R123 to R126. -/

namespace Sys2Proof.Machine

/-- "floored at 1 sample": a lower bound of 1.0, no truncation (R121, R122). -/
def floorOne (ns : F32) : F32 := if flt ns f1 then f1 else ns

/-- The sample count of `ms` milliseconds, `(ms × K_MS) × SAMPLE_RATE`, floored at 1 (R121, R122). -/
def envSamples (c : Cfg) (ms : F32) : F32 := floorOne (fmul (fmul ms fKMs) c.sampleRate.bits)

/-- `ms <- 1.0 + (999.0 × (a × a))` (R121). -/
def attackMs (a : F32) : F32 := fadd f1 (fmul f999 (fmul a a))

/-- `ms <- 10.0 + (2990.0 × (r × r))` (R122). -/
def releaseMs (r : F32) : F32 := fadd f10 (fmul f2990 (fmul r r))

/-- The rate `onNoteOn` captures, `1.0 ÷ ns` (R121). -/
def attackRateOf (c : Cfg) (attack : F32) : F32 := fdiv f1 (envSamples c (attackMs attack))

/-- The rate `onNoteOff` captures, `LEVEL ÷ ns` (R122). -/
def releaseRateOf (c : Cfg) (release level : F32) : F32 := fdiv level (envSamples c (releaseMs release))

/-- `onNoteOn` (R121): writes `ENV` and `ATTACK_RATE`; the level is kept. -/
def onNoteOn (c : Cfg) (r : ParamBank) (v : Voice) : Voice :=
  { v with attackRate := attackRateOf c r.attack, env := .attack }

/-- `onNoteOff` (R122): writes `ENV` and `RELEASE_RATE`; the level is kept. -/
def onNoteOff (c : Cfg) (r : ParamBank) (v : Voice) : Voice :=
  { v with releaseRate := releaseRateOf c r.release v.level, env := .release }

/-- Attack step (R123): the level rises and saturates at 1.0; `ENV` stays Attack. -/
def attackStep (v : Voice) : Voice :=
  let l := fadd v.level v.attackRate
  { v with level := if fge l f1 then f1 else l }

/-- Release step (R124): the level falls; at `<= 0.0` it becomes `+0.0` and `ENV` Idle. -/
def releaseStep (v : Voice) : Voice :=
  let l := fsub v.level v.releaseRate
  if fle l f0 then { v with level := f0, env := .idle } else { v with level := l }

/-- Idle step (R125): writes nothing. -/
def idleStep (v : Voice) : Voice := v

/-- `envStep()` (R126): the step of the state `ENV` holds at its start. -/
def envStep (v : Voice) : Voice :=
  match v.env with
  | .idle => idleStep v
  | .attack => attackStep v
  | .release => releaseStep v

end Sys2Proof.Machine
end

