-- ==== Sys2Proof/Machine/Filter.lean ====
section
/-! DEFINITION. The resonant state-variable filter (42_filter.md): the coefficients R141 to R143 and the step R144. -/

namespace Sys2Proof.Machine

/-- The filter coefficients of one block (R141, 10_state.md R34). -/
structure FilterCoeffs where
  g : F32
  k : F32
  a1 : F32
  a2 : F32
  deriving DecidableEq, Repr

/-- The cutoff in Hz after the Nyquist guard (R141, R142; 60_exceptions.md R262). -/
def cutoffHz (num : Numerics) (c : Cfg) (freq : F32) : F32 :=
  let fc := fmul f20 (num.pow1000 freq)
  let lim := fmul fKNyq c.sampleRate.bits
  if fgt fc lim then lim else fc

/-- `K <- 2.0 - ((2.0 × reg.RES) × K_RES)` (R141). -/
def dampingOf (res : F32) : F32 := fsub f2 (fmul (fmul f2 res) fKRes)

/-- `G <- TAN((PI × fc) ÷ SAMPLE_RATE)` (R141). -/
def warpOf (num : Numerics) (c : Cfg) (freq : F32) : F32 :=
  num.tan (fdiv (fmul fPi (cutoffHz num c freq)) c.sampleRate.bits)

/-- `A1 <- 1.0 ÷ (1.0 + (G × (G + K)))` (R141). -/
def a1Of (g k : F32) : F32 := fdiv f1 (fadd f1 (fmul g (fadd g k)))

/-- The coefficients of a block (R141). -/
def filterCoeffs (num : Numerics) (c : Cfg) (r : ParamBank) : FilterCoeffs :=
  let g := warpOf num c r.freq
  let k := dampingOf r.res
  let a1 := a1Of g k
  { g := g, k := k, a1 := a1, a2 := fmul g a1 }

/-- `filterStep(x)` (R144): writes `IC1` and `IC2` and returns the low-pass output. Every right-hand side reads the memory
from before the step, and the low-pass line is the source's, `a2·ic1eq + ic2eq + g·hp` (93_implementation_defined.md I9). -/
def filterStep (q : FilterCoeffs) (x : F32) (v : Voice) : Voice × F32 :=
  let c1 := v.ic1
  let c2 := v.ic2
  let d := fsub (fsub x (fmul q.k c1)) c2
  let hp := fmul q.a1 d
  let bp := fadd (fmul q.a2 d) c1
  let lp := fadd (fadd (fmul q.a2 c1) c2) (fmul q.g hp)
  ({ v with ic1 := fsub (fmul f2 bp) c1, ic2 := fsub (fmul f2 lp) c2 }, lp)

end Sys2Proof.Machine
end

