-- ==== Sys2Proof/Machine/Numerics.lean ====
section
/-! DEFINITION. The numerics record with the properties P1 to P4 of 00_scope.md R12 imposed on it. Any four functions become
a conforming record, a conforming record is left as it is, and nothing beyond P1 to P4 holds of the result: "A conforming
instance must satisfy these properties, and a model may assume no others". -/

namespace Sys2Proof.Machine

/-- `lo <= x <= hi`. -/
def inRange (lo x hi : F32) : Bool := fle lo x && fle x hi

/-- The largest argument P4 speaks of, `0.49 × PI × 1.0000001` evaluated in binary32 as R9 evaluates every expression
(log entry 8). -/
abbrev fTanMax : F32 := 0x3FC50A6D#32

/-- `-1.0` -/
abbrev fNeg1 : F32 := 0xBF800000#32

/-- `-8.0` and `8.0`, the ends of P2's range. -/
abbrev fNeg8 : F32 := 0xC1000000#32
/-- `8.0` -/
abbrev f8 : F32 := 0x41000000#32

/-- `SIN` (P1): `SIN(+0.0) = +0.0`, and `-1.0 <= SIN(x) <= 1.0` for every finite `x`. -/
def conformSin (f : F32 → F32) (x : F32) : F32 :=
  if x = f0 then f0
  else if f32IsFinite x && !inRange fNeg1 (f x) f1 then f0
  else f x

/-- `EXP2` (P2): `EXP2(+0.0) = 1.0`, and finite and `> 0` for `-8.0 <= x <= 8.0`. -/
def conformExp2 (f : F32 → F32) (x : F32) : F32 :=
  if x = f0 then f1
  else if inRange fNeg8 x f8 && !(f32IsFinite (f x) && fgt (f x) f0) then f1
  else f x

/-- `POW1000` (P3): `POW1000(+0.0) = 1.0`, `POW1000(1.0) = 1000.0`, and `1.0 <= POW1000(x) <= 1000.0` for
`0.0 <= x <= 1.0`. -/
def conformPow1000 (f : F32 → F32) (x : F32) : F32 :=
  if x = f0 then f1
  else if x = f1 then f1000
  else if inRange f0 x f1 && !inRange f1 (f x) f1000 then f1
  else f x

/-- `TAN` (P4): finite and `> 0` for `0 < x <= 0.49 × PI × 1.0000001`. -/
def conformTan (f : F32 → F32) (x : F32) : F32 :=
  if fgt x f0 && fle x fTanMax && !(f32IsFinite (f x) && fgt (f x) f0) then f1
  else f x

/-- The conforming record made from four functions. -/
def conform (n : Numerics) : Numerics :=
  { sin := conformSin n.sin, tan := conformTan n.tan, pow1000 := conformPow1000 n.pow1000, exp2 := conformExp2 n.exp2 }

/-- The numerics record of the block (R12): any conforming record (log entry 3). -/
def numerics : Numerics :=
  conform { sin := Config.rawSin, tan := Config.rawTan, pow1000 := Config.rawPow1000, exp2 := Config.rawExp2 }

end Sys2Proof.Machine
end

