-- ==== Sys2Proof/Machine/Oscillator.lean ====
section
/-! DEFINITION. The oscillator (40_oscillator.md): the waveform function R100 to R105, the sounding frequency R106, the phase
increment R107 and the phase advance R108. -/

namespace Sys2Proof.Machine

/-- `t <- phase ÷ TWO_PI` (R100). -/
def normPhase (phase : F32) : F32 := fdiv phase fTwoPi

/-- Sine (R102). -/
def oscSine (num : Numerics) (phase : F32) : F32 := num.sin phase

/-- Saw, `(2.0 × t) - 1.0` (R103). -/
def oscSaw (t : F32) : F32 := fsub (fmul f2 t) f1

/-- Square, `if t < 0.5 then 1.0 else -1.0` (R104). -/
def oscSquare (t : F32) : F32 := if flt t fHalf then f1 else fneg f1

/-- Triangle, `(4.0 × |t - 0.5|) - 1.0` (R105; 90_conflicts.md C1). -/
def oscTriangle (t : F32) : F32 := fsub (fmul f4 (fabs (fsub t fHalf))) f1

/-- `osc(phase, wave)` (R100, R101). A selector outside 0..3 falls back to sine (60_exceptions.md R261). -/
def osc (num : Numerics) (phase : F32) (wave : Nat) : F32 :=
  match wave with
  | 0 => oscSine num phase
  | 1 => oscSaw (normPhase phase)
  | 2 => oscSquare (normPhase phase)
  | 3 => oscTriangle (normPhase phase)
  | _ => oscSine num phase

/-- The base frequency in Hz (R106): from the knob or from the note, as `PITCH_MODE` says (44_note_events.md R186). -/
def baseFrequency (num : Numerics) (mode : PitchMode) (freq noteFreq : F32) : F32 :=
  match mode with
  | .knob => fmul f20 (num.pow1000 freq)
  | .note => noteFreq

/-- `cents <- (reg.FINE - 0.5) × 200.0` (R106). -/
def fineCents (fine : F32) : F32 := fmul (fsub fine fHalf) f200

/-- `FINAL_FREQ <- base × EXP2(cents ÷ 1200.0)` (R106). -/
def finalFrequency (num : Numerics) (c : Cfg) (r : ParamBank) (v : Voice) : F32 :=
  fmul (baseFrequency num c.pitchMode r.freq v.noteFreq) (num.exp2 (fdiv (fineCents r.fine) f1200))

/-- `PHASE_INC <- (TWO_PI × FINAL_FREQ) ÷ SAMPLE_RATE` (R107). -/
def phaseIncrement (num : Numerics) (c : Cfg) (r : ParamBank) (v : Voice) : F32 :=
  fdiv (fmul fTwoPi (finalFrequency num c r v)) c.sampleRate.bits

/-- The phase after one advance (R108): at most one subtraction, and `>=` wraps a phase equal to `TWO_PI`
(90_conflicts.md C3). -/
def nextPhase (phase inc : F32) : F32 :=
  let p := fadd phase inc
  if fge p fTwoPi then fsub p fTwoPi else p

/-- `advancePhase()` (R108). -/
def advancePhase (inc : F32) (v : Voice) : Voice := { v with phase := nextPhase v.phase inc }

end Sys2Proof.Machine
end

