-- ==== Sys2Proof/Machine/Ops.lean ====
section
/-! DEFINITION. The named operations over the state that the meanings share: recording a change or a note event, the commit
and the note intake at a block's start, emitting words and handing them over, and what the host does to the streams.

There is no operation that takes an exception and none that returns from one: the block has no exception, trap or interrupt,
no state is saved and no handler address exists (60_exceptions.md R260, R268, R270). There is no memory operation: the block
has no addressable memory (20_memory.md R50). -/

namespace Sys2Proof.Machine

/-! ## Intake records -/

/-- `pend.PVAL[pid] <- value ; pend.PVALID[pid] <- 1` (43_parameter_intake.md R160): the raw bits, not clamped. -/
def recordParam (p : Pid) (value : F32) (s : State) : State :=
  { s with pend := { s.pend with pval := perPidSet s.pend.pval p value, pvalid := perPidSet s.pend.pvalid p true } }

/-- What a NOTE_ON does to the note record (44_note_events.md R180). -/
def noteRecordOn (pitch : BitVec 7) (r : NoteRecord) : NoteRecord := { r with last := .on, onSeen := true, pitch := pitch }

/-- What a NOTE_OFF does to the note record (R181). -/
def noteRecordOff (r : NoteRecord) : NoteRecord := { r with last := .off, offSeen := true }

/-- A new note record. -/
def setNoteRecord (r : NoteRecord) (s : State) : State := { s with pend := { s.pend with note := r } }

/-! ## The block's start -/

/-- One turn of the commit's loop (43_parameter_intake.md R163): a pending value is clamped, mapped and written, and its
`PVALID` cleared; `PVAL` keeps its bits. -/
def commitOne (s : State) (p : Pid) : State :=
  if perPidGet s.pend.pvalid p then
    { s with
      reg := writeParam s.reg p (clamp01 (perPidGet s.pend.pval p))
      pend := { s.pend with pvalid := perPidSet s.pend.pvalid p false } }
  else s

/-- `commitParams()` (R163): `for pid in 0..7`. -/
def commitParams (s : State) : State := pidsInOrder.foldl commitOne s

/-- The first conditional of the note intake (44_note_events.md R182). -/
def intakeOn (num : Numerics) (c : Cfg) (r : ParamBank) (note : NoteRecord) (v : Voice) : Voice :=
  if note.onSeen then onNoteOn c r { v with noteFreq := noteFrequency num note.pitch } else v

/-- The second conditional of the note intake (R182). -/
def intakeOff (c : Cfg) (r : ParamBank) (note : NoteRecord) (v : Voice) : Voice :=
  if note.offSeen then onNoteOff c r v else v

/-- The last two conditionals of the note intake (R182): the last event decides `ENV`. -/
def intakeLast (note : NoteRecord) (v : Voice) : Voice :=
  match note.last with
  | .none => v
  | .on => { v with env := .attack }
  | .off => { v with env := .release }

/-- The voice after the note intake (R182). -/
def intakeVoice (num : Numerics) (c : Cfg) (r : ParamBank) (note : NoteRecord) (v : Voice) : Voice :=
  intakeLast note (intakeOff c r note (intakeOn num c r note v))

/-- `noteIntake()` (R182): applies the note record to the voice and empties it. -/
def noteIntake (num : Numerics) (s : State) : State :=
  { s with v := intakeVoice num s.cfg s.reg s.pend.note s.v, pend := { s.pend with note := NoteRecord.empty } }

/-! ## The output streams -/

/-- `Emit` (00_scope.md R8): the words are offered to the host, in order. -/
def emit (ws : List Emission) (s : State) : State := { s with offered := s.offered ++ ws }

/-- The host takes the first offered word. -/
def takeOffered (e : Emission) (rest : List Emission) (s : State) : State :=
  { s with offered := rest, emitted := s.emitted ++ [e] }

/-- One turn of the handshake on the offered word `e` (20_memory.md R52, 70_reset_and_hazards.md R310): the host takes it,
or the block waits with it offered. Past the end of `hostReady` the host takes it (log entry 7). -/
def handshake (e : Emission) (rest : List Emission) (s : State) : State :=
  match s.hostReady with
  | [] => takeOffered e rest s
  | true :: later => takeOffered e rest { s with hostReady := later }
  | false :: later => { s with hostReady := later }

/-- The OUT words of a list of emissions, in order. -/
def outWords (es : List Emission) : List OutWord :=
  es.filterMap fun e => match e with
    | .out w => some w
    | .status _ => none

/-- The STATUS words of a list of emissions, in order. -/
def statusWords (es : List Emission) : List StatusWord :=
  es.filterMap fun e => match e with
    | .out _ => none
    | .status w => some w

/-- The OUT stream as the host has taken it. -/
def outStream (s : State) : List OutWord := outWords s.emitted

/-- The STATUS stream as the host has taken it. -/
def statusStream (s : State) : List StatusWord := statusWords s.emitted

/-- The OUT stream as a byte transport has carried it to the host (20_memory.md R53). -/
def outStreamBytes (s : State) : List Byte := (outStream s).flatMap outBytes

/-- The STATUS stream as a byte transport has carried it to the host (R53). -/
def statusStreamBytes (s : State) : List Byte := (statusStream s).flatMap statusBytes

/-! ## The host's side of the streams -/

/-- The host sends words on CMD (20_memory.md R52): none is lost, none withdrawn. -/
def hostSend (ws : List CmdWord) (s : State) : State := { s with cmd := s.cmd ++ ws }

/-- The host sends bytes on a byte transport (R53): the whole words among them arrive, a partial word at the end does not
(R54). -/
def hostSendBytes (bs : List Byte) (s : State) : State := hostSend (wordsOfBytes bs).1 s

/-- The host's readiness at the next offers (R310). -/
def hostSetReady (ready : List Bool) (s : State) : State := { s with hostReady := ready }

/-- The host takes every offered word. -/
def hostDrain (s : State) : State := { s with emitted := s.emitted ++ s.offered, offered := [] }

end Sys2Proof.Machine
end

