-- ==== Sys2Proof/Machine/Control.lean ====
section
/-! DEFINITION. `ACTIVATE`, `NOP` and the reserved opcodes (46_control.md R230 to R232). -/

namespace Sys2Proof.Machine

/-- `ACTIVATE` (R230): the voice state and the note record are reset; the parameter bank and the pending parameter changes
are kept. -/
def activateVoice (s : State) : State := { s with v := Voice.reset, pend := { s.pend with note := NoteRecord.empty } }

/-- `NOP` (R231): no state is written and nothing emitted. -/
def noEffect (s : State) : State := s

/-- `NOP` (R231). -/
def execNop (s : State) : Host.Outcome State Fault Refusal := .next (noEffect s)

/-- `ACTIVATE` (R230). -/
def execActivate (s : State) : Host.Outcome State Fault Refusal := .next (activateVoice s)

/-- Reserved opcode 0x6: executes as NOP (R232). -/
def execReserved6 (s : State) : Host.Outcome State Fault Refusal := .next (noEffect s)

/-- Reserved opcode 0x7: executes as NOP (R232). -/
def execReserved7 (s : State) : Host.Outcome State Fault Refusal := .next (noEffect s)

/-- Reserved opcode 0x8: executes as NOP (R232). -/
def execReserved8 (s : State) : Host.Outcome State Fault Refusal := .next (noEffect s)

/-- Reserved opcode 0x9: executes as NOP (R232). -/
def execReserved9 (s : State) : Host.Outcome State Fault Refusal := .next (noEffect s)

/-- Reserved opcode 0xA: executes as NOP (R232). -/
def execReservedA (s : State) : Host.Outcome State Fault Refusal := .next (noEffect s)

/-- Reserved opcode 0xB: executes as NOP (R232). -/
def execReservedB (s : State) : Host.Outcome State Fault Refusal := .next (noEffect s)

/-- Reserved opcode 0xC: executes as NOP (R232). -/
def execReservedC (s : State) : Host.Outcome State Fault Refusal := .next (noEffect s)

/-- Reserved opcode 0xD: executes as NOP (R232). -/
def execReservedD (s : State) : Host.Outcome State Fault Refusal := .next (noEffect s)

/-- Reserved opcode 0xE: executes as NOP (R232). -/
def execReservedE (s : State) : Host.Outcome State Fault Refusal := .next (noEffect s)

/-- Reserved opcode 0xF: executes as NOP (R232). -/
def execReservedF (s : State) : Host.Outcome State Fault Refusal := .next (noEffect s)

end Sys2Proof.Machine
end

