-- ==== Sys2Proof/Machine/Notes.lean ====
section
/-! DEFINITION. `NOTE_ON` and `NOTE_OFF` (44_note_events.md R180, R181, R185): they record, and the next `PROCESS` applies. -/

namespace Sys2Proof.Machine

/-- `NOTE_ON` (R180): `vel` and `chan` have no effect (R185). -/
def execNoteOn (pitch _vel : BitVec 7) (_chan : BitVec 4) (s : State) : Host.Outcome State Fault Refusal :=
  .next (setNoteRecord (noteRecordOn pitch s.pend.note) s)

/-- `NOTE_OFF` (R181): `pitch`, `vel` and `chan` have no effect (R185). -/
def execNoteOff (_pitch _vel : BitVec 7) (_chan : BitVec 4) (s : State) : Host.Outcome State Fault Refusal :=
  .next (setNoteRecord (noteRecordOff s.pend.note) s)

end Sys2Proof.Machine
end

