-- ==== Sys2Proof/Machine/Params.lean ====
section
/-! DEFINITION. `PARAM_SET` (43_parameter_intake.md R160 to R162), one meaning per parameter id. `pos` is carried and has no
effect (R162). No register changes before the next `PROCESS` (R163). -/

namespace Sys2Proof.Machine

/-- `PARAM_SET` of `GAIN` (R160). -/
def execParamGain (_pos : BitVec 24) (value : F32) (s : State) : Host.Outcome State Fault Refusal :=
  .next (recordParam .gain value s)

/-- `PARAM_SET` of `FREQ` (R160). -/
def execParamFreq (_pos : BitVec 24) (value : F32) (s : State) : Host.Outcome State Fault Refusal :=
  .next (recordParam .freq value s)

/-- `PARAM_SET` of `FINE` (R160). -/
def execParamFine (_pos : BitVec 24) (value : F32) (s : State) : Host.Outcome State Fault Refusal :=
  .next (recordParam .fine value s)

/-- `PARAM_SET` of `RES` (R160); in the minimal variant it is written and has no effect (42_filter.md R140). -/
def execParamRes (_pos : BitVec 24) (value : F32) (s : State) : Host.Outcome State Fault Refusal :=
  .next (recordParam .res value s)

/-- `PARAM_SET` of `WAVE` (R160). -/
def execParamWave (_pos : BitVec 24) (value : F32) (s : State) : Host.Outcome State Fault Refusal :=
  .next (recordParam .wave value s)

/-- `PARAM_SET` of `ATTACK` (R160). -/
def execParamAttack (_pos : BitVec 24) (value : F32) (s : State) : Host.Outcome State Fault Refusal :=
  .next (recordParam .attack value s)

/-- `PARAM_SET` of `RELEASE` (R160). -/
def execParamRelease (_pos : BitVec 24) (value : F32) (s : State) : Host.Outcome State Fault Refusal :=
  .next (recordParam .release value s)

/-- `PARAM_SET` of `BYPASS` (R160). -/
def execParamBypass (_pos : BitVec 24) (value : F32) (s : State) : Host.Outcome State Fault Refusal :=
  .next (recordParam .bypass value s)

/-- `PARAM_SET pid` as R160 writes it: by the id field. A reserved id changes no state (R161). -/
def paramSet (pid : BitVec 4) (value : F32) (s : State) : State :=
  match pidOfField pid with
  | some p => recordParam p value s
  | none => s

/-- `PARAM_SET` of a reserved id: "changes no state and emits nothing" (R161). -/
def execParamReserved (pid : BitVec 4) (_pos : BitVec 24) (value : F32) (s : State) : Host.Outcome State Fault Refusal :=
  .next (paramSet pid value s)

end Sys2Proof.Machine
end

