-- ==== Sys2Proof/Machine/Process.lean ====
section
/-! DEFINITION. `PROCESS` (45_process_block.md R200 to R212): the six steps of a block. -/

namespace Sys2Proof.Machine

/-- The values of one block (R204, 10_state.md R34): the phase increment, and the coefficients when the filter is present. -/
structure BlockValues where
  phaseInc : F32
  filter : Option FilterCoeffs
  deriving DecidableEq, Repr

/-- `blockValues()` (R204); `FILTER_EN = 0` needs no coefficients (42_filter.md R140). -/
def blockValues (num : Numerics) (c : Cfg) (r : ParamBank) (v : Voice) : BlockValues :=
  { phaseInc := phaseIncrement num c r v, filter := if c.filterEn then some (filterCoeffs num c r) else none }

/-- The filter on a sounding sample: the step of R144, or the pass-through of the minimal variant (42_filter.md R140, R145). -/
def filterSample (f : Option FilterCoeffs) (x : F32) (v : Voice) : Voice × F32 :=
  match f with
  | some q => filterStep q x v
  | none => (v, x)

/-- `soundingSample()` (R206): oscillator at the current phase, filter, `(s × GAIN) × LEVEL`, phase advance. -/
def soundingSample (num : Numerics) (r : ParamBank) (b : BlockValues) (v : Voice) : Voice × F32 :=
  let fv := filterSample b.filter (osc num v.phase r.wave.val) v
  (advancePhase b.phaseInc fv.1, fmul (fmul fv.2 r.gain) v.level)

/-- One sample of the loop (R205): the envelope step, then the sounding path (R206) or the silent path (R207). -/
def sampleStep (num : Numerics) (r : ParamBank) (b : BlockValues) (v : Voice) : Voice × F32 :=
  let v1 := envStep v
  if fgt v1.level f0 then soundingSample num r b v1 else (v1, f0)

/-- The sample loop (R205): `n` samples in order, the values `y` in order. -/
def sampleLoop (num : Numerics) (r : ParamBank) (b : BlockValues) : Nat → Voice → Voice × List F32
  | 0, v => (v, [])
  | n + 1, v =>
    let vy := sampleStep num r b v
    let rest := sampleLoop num r b n vy.1
    (rest.1, vy.2 :: rest.2)

/-- The OUT words of a block (R208): every channel of sample 0, then every channel of sample 1, and so on. -/
def fanOut (c : BitVec 8) (ys : List F32) : List Emission :=
  ys.flatMap fun y => List.replicate c.toNat (Emission.out y)

/-- Step 3 (R203): `C × N` words of `+0.0`, then STATUS with `SILENT = 1`; no voice register changes. -/
def silentBlock (c : BitVec 8) (n : BitVec 32) (s : State) : State :=
  emit (fanOut c (List.replicate n.toNat f0) ++ [.status (statusWord true c n)]) s

/-- Steps 4 to 6 (R204 to R210). -/
def soundingBlock (num : Numerics) (c : BitVec 8) (n : BitVec 32) (s : State) : State :=
  let r := sampleLoop num s.reg (blockValues num s.cfg s.reg s.v) n.toNat s.v
  emit (fanOut c r.2 ++ [.status (statusWord (silentFlag r.1.env r.2) c n)]) { s with v := r.1 }

/-- Steps 1 and 2 (R201, R202). -/
def blockStart (num : Numerics) (s : State) : State := noteIntake num (commitParams s)

/-- Step 3's test (R203): bypassed, or no samples. -/
def blockIsSilent (n : BitVec 32) (s : State) : Bool := s.reg.bypass || decide (n = 0#32)

/-- `PROCESS C, N` (R200) under the numerics record `num`. -/
def processBlock (num : Numerics) (c : BitVec 8) (n : BitVec 32) (s : State) : State :=
  let s2 := blockStart num s
  if blockIsSilent n s2 then silentBlock c n s2 else soundingBlock num c n s2

/-- `PROCESS` (R200). -/
def execProcess (c : BitVec 8) (n : BitVec 32) (s : State) : Host.Outcome State Fault Refusal :=
  .next (processBlock numerics c n s)

end Sys2Proof.Machine
end

