-- ==== Sys2Proof/Machine/Dispatch.lean ====
section
/-! DEFINITION. One arm per command of the opcode table (30_encoding.md R71). -/

namespace Sys2Proof.Machine

def exec (i : Instr) (s : State) : Host.Outcome State Fault Refusal :=
  match i with
  | .nop => Sys2Proof.Machine.execNop s
  | .paramGain pos value => Sys2Proof.Machine.execParamGain pos value s
  | .paramFreq pos value => Sys2Proof.Machine.execParamFreq pos value s
  | .paramFine pos value => Sys2Proof.Machine.execParamFine pos value s
  | .paramRes pos value => Sys2Proof.Machine.execParamRes pos value s
  | .paramWave pos value => Sys2Proof.Machine.execParamWave pos value s
  | .paramAttack pos value => Sys2Proof.Machine.execParamAttack pos value s
  | .paramRelease pos value => Sys2Proof.Machine.execParamRelease pos value s
  | .paramBypass pos value => Sys2Proof.Machine.execParamBypass pos value s
  | .paramReserved pid pos value => Sys2Proof.Machine.execParamReserved pid pos value s
  | .noteOn pitch vel chan => Sys2Proof.Machine.execNoteOn pitch vel chan s
  | .noteOff pitch vel chan => Sys2Proof.Machine.execNoteOff pitch vel chan s
  | .process c n => Sys2Proof.Machine.execProcess c n s
  | .activate => Sys2Proof.Machine.execActivate s
  | .reserved6 => Sys2Proof.Machine.execReserved6 s
  | .reserved7 => Sys2Proof.Machine.execReserved7 s
  | .reserved8 => Sys2Proof.Machine.execReserved8 s
  | .reserved9 => Sys2Proof.Machine.execReserved9 s
  | .reservedA => Sys2Proof.Machine.execReservedA s
  | .reservedB => Sys2Proof.Machine.execReservedB s
  | .reservedC => Sys2Proof.Machine.execReservedC s
  | .reservedD => Sys2Proof.Machine.execReservedD s
  | .reservedE => Sys2Proof.Machine.execReservedE s
  | .reservedF => Sys2Proof.Machine.execReservedF s

end Sys2Proof.Machine
end

