-- ==== Sys2Proof/Machine/Step.lean ====
section
/-! DEFINITION. One step (20_memory.md R52, R56; 70_reset_and_hazards.md R310; 60_exceptions.md R275). While a word is
offered the block hands it over or waits with it and takes no CMD word. Otherwise it takes the next CMD word and executes
it whole. With nothing offered and nothing sent it keeps its state. -/

namespace Sys2Proof.Machine

/-- One step of the block. -/
def step (s : State) : Host.Outcome State Fault Refusal :=
  match s.offered with
  | e :: rest => .next (handshake e rest s)
  | [] =>
    match s.cmd with
    | [] => .next s
    | w :: later => exec (decodeWord w) { s with cmd := later }

/-- `s` with the word of `nbits` bits `w` next on the CMD stream, and no word left offered, so that the next step runs it.
Words still offered are taken by the host first (`hostDrain`), because the block takes no CMD word before (R310). -/
def State.withFetchWord (s : State) (nbits w : Nat) : State :=
  { hostDrain s with cmd := BitVec.ofNat 64 (w % 2 ^ nbits) :: s.cmd }

end Sys2Proof.Machine
end

