-- ==== Sys2Proof/Machine/Assembler.lean ====
section
/-! DEFINITION. The assembly notation of 30_encoding.md R83 and its pseudo-instructions R84, as a total function from text
to command words. It is the spec's notation for command streams and no part of the block's step. -/

namespace Sys2Proof.Machine

/-- Why a line is not a command. -/
inductive AsmError where
  /-- The first word is no mnemonic of R83 and no pseudo-instruction of R84. -/
  | unknownMnemonic
  /-- The operands are not those the syntax column of R83 or R84 shows. -/
  | badOperands
  deriving DecidableEq, Repr

/-- The small letter of a capital; `asmLine` says where case does not matter. -/
def asmLower (c : Char) : Char := if 65 ≤ c.toNat ∧ c.toNat ≤ 90 then Char.ofNat (c.toNat + 32) else c

/-- White space within a line: the space, the tab and the carriage return (DESIGN CHOICE, log entry 17: R83 does not say). -/
def asmIsSpace (c : Char) : Bool := c == ' ' || c == '\t' || c == '\r'

/-- A piece of text without the white space around it. -/
def asmTrim (cs : List Char) : List Char := ((cs.dropWhile asmIsSpace).reverse.dropWhile asmIsSpace).reverse

/-- The pieces of a text between the separators. -/
def asmSplit (sep : Char) : List Char → List (List Char)
  | [] => [[]]
  | c :: cs =>
    match asmSplit sep cs with
    | [] => [[]]
    | piece :: later => if c == sep then [] :: piece :: later else (c :: piece) :: later

/-- The line without its comment, which `;` starts (R83). -/
def asmStripComment (cs : List Char) : List Char := cs.takeWhile fun c => c != ';'

/-- The value of a decimal or (lower-case) hexadecimal digit. -/
def asmDigit (c : Char) : Option Nat :=
  if 48 ≤ c.toNat ∧ c.toNat ≤ 57 then some (c.toNat - 48)
  else if 97 ≤ c.toNat ∧ c.toNat ≤ 102 then some (c.toNat - 87)
  else none

/-- The digits of `cs` in the base, appended to the number `acc`. -/
def asmDigits (base : Nat) : Nat → List Char → Option Nat
  | acc, [] => some acc
  | acc, c :: cs =>
    match asmDigit c with
    | some d => if d < base then asmDigits base (acc * base + d) cs else none
    | none => none

/-- A nonempty digit string. -/
def asmNumeral (base : Nat) (cs : List Char) : Option Nat :=
  match cs with
  | [] => none
  | _ :: _ => asmDigits base 0 cs

/-- "A number is decimal, or hexadecimal with a `0x` prefix" (R83). -/
def asmNat (cs : List Char) : Option Nat :=
  match cs with
  | '0' :: 'x' :: ds => asmNumeral 16 ds
  | ds => asmNumeral 10 ds

/-- A number that fits the field of `width` bits. -/
def asmField (width : Nat) (cs : List Char) : Option (BitVec width) :=
  match asmNat cs with
  | some n => if n < 2 ^ width then some (BitVec.ofNat width n) else none
  | none => none

/-- A decimal numeral with an optional fraction, as the binary32 value nearest to it, ties to even (R83). -/
def asmUnsignedDecimal (sign : Bool) (cs : List Char) : Option F32 :=
  match asmSplit '.' cs with
  | [whole] => (asmNumeral 10 whole).map fun n => f32Pack sign (roundLow (n * 2 ^ 149) 1)
  | [whole, frac] =>
    match asmNumeral 10 whole, asmNumeral 10 frac with
    | some a, some b =>
      some (f32Pack sign (roundLow ((a * 10 ^ frac.length + b) * 2 ^ 149) (10 ^ frac.length)))
    | _, _ => none
  | _ => none

/-- A VALUE (R83): a hexadecimal one is the bit pattern itself, a decimal one is rounded to binary32. A leading minus sign
is accepted on a decimal one (log entry 9). -/
def asmValue (cs : List Char) : Option F32 :=
  match cs with
  | '0' :: 'x' :: _ => asmField 32 cs
  | '-' :: ds => asmUnsignedDecimal true ds
  | ds => asmUnsignedDecimal false ds

/-- The parameter names of R83, ids 0..7 (20_memory.md R51). -/
def asmParamNames : List (List Char) :=
  [['g', 'a', 'i', 'n'], ['f', 'r', 'e', 'q'], ['f', 'i', 'n', 'e'], ['r', 'e', 's'], ['w', 'a', 'v', 'e'],
   ['a', 't', 't', 'a', 'c', 'k'], ['r', 'e', 'l', 'e', 'a', 's', 'e'], ['b', 'y', 'p', 'a', 's', 's']]

/-- `<name or id>` (R83). -/
def asmPid (cs : List Char) : Option (BitVec 4) :=
  if asmParamNames.contains cs then some (BitVec.ofNat 4 (asmParamNames.idxOf cs)) else asmField 4 cs

/-- An optional `key=<n>` at the head of the operands; "Omitted optional fields are 0" (R83). White space around the `=` is
accepted (DESIGN CHOICE, log entry 17). -/
def asmOption (key : List Char) (width : Nat) (args : List (List Char)) : Option (BitVec width × List (List Char)) :=
  match args with
  | [] => some (0, [])
  | a :: later =>
    match asmSplit '=' a with
    | [k, v] => if asmTrim k = key then (asmField width (asmTrim v)).map fun x => (x, later) else some (0, args)
    | _ => some (0, args)

/-- `param <name or id>, <value>[, pos=<n>]`. -/
def asmParam (args : List (List Char)) : Option Instr :=
  match args with
  | name :: value :: later =>
    match asmPid name, asmValue value, asmOption ['p', 'o', 's'] 24 later with
    | some pid, some v, some (pos, []) => some (decodeParam pid pos v)
    | _, _, _ => none
  | _ => none

/-- `<pitch>[, vel=<v>][, chan=<c>]` of `noteon` and `noteoff`. -/
def asmNote (make : BitVec 7 → BitVec 7 → BitVec 4 → Instr) (args : List (List Char)) : Option Instr :=
  match args with
  | pitch :: later =>
    match asmField 7 pitch, asmOption ['v', 'e', 'l'] 7 later with
    | some p, some (vel, more) =>
      match asmOption ['c', 'h', 'a', 'n'] 4 more with
      | some (chan, []) => some (make p vel chan)
      | _ => none
    | _, _ => none
  | _ => none

/-- `process <C>, <N>`. -/
def asmProcess (args : List (List Char)) : Option Instr :=
  match args with
  | [c, n] =>
    match asmField 8 c, asmField 32 n with
    | some c, some n => some (.process c n)
    | _, _ => none
  | _ => none

/-- The pseudo-instruction `block <N>`: one mono block (R84). -/
def asmBlock (args : List (List Char)) : Option Instr :=
  match args with
  | [n] => (asmField 32 n).map fun n => .process 1#8 n
  | _ => none

/-- The pseudo-instructions `wave sine`, `wave saw`, `wave square` and `wave triangle` (R84). -/
def asmWave (args : List (List Char)) : Option Instr :=
  if args = [['s', 'i', 'n', 'e']] then some (.paramWave 0 0x00000000#32)
  else if args = [['s', 'a', 'w']] then some (.paramWave 0 0x3EAAAAAB#32)
  else if args = [['s', 'q', 'u', 'a', 'r', 'e']] then some (.paramWave 0 0x3F2AAAAB#32)
  else if args = [['t', 'r', 'i', 'a', 'n', 'g', 'l', 'e']] then some (.paramWave 0 0x3F800000#32)
  else none

/-- The pseudo-instructions `bypass on` and `bypass off` (R84). -/
def asmBypass (args : List (List Char)) : Option Instr :=
  if args = [['o', 'n']] then some (.paramBypass 0 0x3F800000#32)
  else if args = [['o', 'f', 'f']] then some (.paramBypass 0 0x00000000#32)
  else none

/-- A command without operands. -/
def asmBare (i : Instr) (args : List (List Char)) : Option Instr := if args = [[]] then some i else none

/-- The operands of a mnemonic, read as its syntax says (R83, R84); `none` for an unknown mnemonic. -/
def asmOperandsOf (mnemonic : List Char) : Option (List (List Char) → Option Instr) :=
  if mnemonic = ['n', 'o', 'p'] then some (asmBare .nop)
  else if mnemonic = ['p', 'a', 'r', 'a', 'm'] then some asmParam
  else if mnemonic = ['n', 'o', 't', 'e', 'o', 'n'] then some (asmNote .noteOn)
  else if mnemonic = ['n', 'o', 't', 'e', 'o', 'f', 'f'] then some (asmNote .noteOff)
  else if mnemonic = ['p', 'r', 'o', 'c', 'e', 's', 's'] then some asmProcess
  else if mnemonic = ['a', 'c', 't', 'i', 'v', 'a', 't', 'e'] then some (asmBare .activate)
  else if mnemonic = ['w', 'a', 'v', 'e'] then some asmWave
  else if mnemonic = ['b', 'y', 'p', 'a', 's', 's'] then some asmBypass
  else if mnemonic = ['b', 'l', 'o', 'c', 'k'] then some asmBlock
  else none

/-- One line: a command (R83), or nothing where only white space or a comment stands. R83 says only "one command per line";
that a blank line and a line of a comment alone hold no command, and that white space may stand around a command, its
operands and the commas, is the model's choice (DESIGN CHOICE, log entry 17). Mnemonics and parameter names are
case-insensitive by R83. That case does not matter in the rest of the line either (the `0x` prefix, hexadecimal digits, the
keys `pos`, `vel` and `chan`, the operands of pseudo-instructions) is the model's choice (DESIGN CHOICE, log entry 17). -/
def asmLine (line : List Char) : Except AsmError (Option Instr) :=
  match asmTrim ((asmStripComment line).map asmLower) with
  | [] => .ok none
  | text =>
    match asmOperandsOf (text.takeWhile fun c => !asmIsSpace c) with
    | none => .error .unknownMnemonic
    | some operands =>
      match operands ((asmSplit ',' (text.dropWhile fun c => !asmIsSpace c)).map asmTrim) with
      | some i => .ok (some i)
      | none => .error .badOperands

/-- The commands of a list of lines; a line without a command gives none (log entry 17). -/
def asmLines : List (List Char) → Except AsmError (List Instr)
  | [] => .ok []
  | l :: ls =>
    match asmLine l, asmLines ls with
    | .ok (some i), .ok is => .ok (i :: is)
    | .ok none, .ok is => .ok is
    | .error e, _ => .error e
    | _, .error e => .error e

/-- A program text, one command a line (R83), as command words. -/
def assemble (text : List Char) : Except AsmError (List CmdWord) :=
  match asmLines (asmSplit '\n' text) with
  | .ok is => .ok (is.map encode)
  | .error e => .error e

end Sys2Proof.Machine
end

