-- ==== Sys2Proof/Safety.lean ====
section
/-! DEFINITION. What counts as a safe run, the invariant of the state (10_state.md R21, R27), and the runs of several
commands that the statements speak of. -/

namespace Sys2Proof.Machine

/-- `+0.0 <= x <= 1.0` as 10_state.md R21 means it: not NaN, not negative, not `-0.0`. Those patterns are the numbers 0 to
0x3F800000. -/
abbrev InUnit (x : F32) : Prop := x.toNat ≤ 0x3F800000

/-- The parameter bank holds legal values (R21); `WAVE` and `BYPASS` do by their types. -/
abbrev ParamBank.Legal (r : ParamBank) : Prop :=
  InUnit r.gain ∧ InUnit r.freq ∧ InUnit r.fine ∧ InUnit r.res ∧ InUnit r.attack ∧ InUnit r.release

/-- The envelope's part of the voice state is legal (10_state.md R27): level and rates in [+0.0, 1.0], and the level
`+0.0` whenever `ENV` is Idle. -/
abbrev Voice.Legal (v : Voice) : Prop :=
  InUnit v.level ∧ InUnit v.attackRate ∧ InUnit v.releaseRate ∧ (v.env = .idle → v.level = 0#32)

/-- The invariant that every step keeps. -/
abbrev State.Inv (s : State) : Prop := s.reg.Legal ∧ s.v.Legal

/-- The phase is in `[0, 2π)` (10_state.md R27, 40_oscillator.md R109): `+0.0 <= PHASE < TWO_PI`. -/
abbrev PhaseInRange (phase : F32) : Prop := fle f0 phase = true ∧ flt phase fTwoPi = true

/-- A run of `k` steps that is safe: it does not stop. -/
def SafeRun (k : Nat) (s : State) : Prop := ∃ t, Sys2Proof.core.run k s = .next t

/-- The commands `is`, one after the other, stopping where one stops. -/
def execAll : List Instr → State → Host.Outcome State Fault Refusal
  | [], s => .next s
  | i :: is, s =>
    match exec i s with
    | .next t => execAll is t
    | .fault r => .fault r
    | .refused r => .refused r

/-- The `PARAM_SET` of the register `p`. -/
def paramInstr (p : Pid) (pos : BitVec 24) (value : F32) : Instr :=
  match p with
  | .gain => .paramGain pos value
  | .freq => .paramFreq pos value
  | .fine => .paramFine pos value
  | .res => .paramRes pos value
  | .wave => .paramWave pos value
  | .attack => .paramAttack pos value
  | .release => .paramRelease pos value
  | .bypass => .paramBypass pos value

/-- A note event: `NOTE_ON` with its pitch, or `NOTE_OFF` (44_note_events.md R184). -/
inductive NoteEvent where
  | on (pitch : BitVec 7)
  | off
  deriving DecidableEq, Repr

/-- The command of a note event. The fields that have no effect are 0. -/
def noteInstr : NoteEvent → Instr
  | .on pitch => .noteOn pitch 0 0
  | .off => .noteOff 0 0 0

/-- A note event applied to the voice at once (R184): a NoteOn sets the note frequency and then triggers `onNoteOn`; a
NoteOff triggers `onNoteOff`. -/
def applyNote (num : Numerics) (c : Cfg) (r : ParamBank) (v : Voice) : NoteEvent → Voice
  | .on pitch => onNoteOn c r { v with noteFreq := noteFrequency num pitch }
  | .off => onNoteOff c r v

/-- The value of the last change point of `p` in a sequence of change points, if there is one. -/
def lastValue (p : Pid) : List (Pid × BitVec 24 × F32) → Option F32
  | [] => none
  | x :: xs =>
    match lastValue p xs with
    | some y => some y
    | none => if x.1 = p then some x.2.2 else none

/-- The change points that no later one of the same id replaces (43_parameter_intake.md R168). -/
def lastOnly : List (Pid × BitVec 24 × F32) → List (Pid × BitVec 24 × F32)
  | [] => []
  | x :: xs => if (xs.any fun y => decide (y.1 = x.1)) then lastOnly xs else x :: lastOnly xs

/-- The `PARAM_SET` command of a change point. -/
def changeInstr (x : Pid × BitVec 24 × F32) : Instr := paramInstr x.1 x.2.1 x.2.2

/-- The properties P1 to P4 that 00_scope.md R12 asks of a numerics record. -/
def Conforming (n : Numerics) : Prop :=
  (n.sin f0 = f0 ∧ ∀ x, f32IsFinite x = true → inRange fNeg1 (n.sin x) f1 = true) ∧
  (n.exp2 f0 = f1 ∧ ∀ x, inRange fNeg8 x f8 = true → f32IsFinite (n.exp2 x) = true ∧ fgt (n.exp2 x) f0 = true) ∧
  (n.pow1000 f0 = f1 ∧ n.pow1000 f1 = f1000 ∧ ∀ x, inRange f0 x f1 = true → inRange f1 (n.pow1000 x) f1000 = true) ∧
  (∀ x, fgt x f0 = true → fle x fTanMax = true → f32IsFinite (n.tan x) = true ∧ fgt (n.tan x) f0 = true)

/-- `BYPASS` as the next commit leaves it (43_parameter_intake.md R163, R166). -/
def committedBypass (s : State) : Bool :=
  if s.pend.pvalid.bypass then bypassBit (clamp01 s.pend.pval.bypass) else s.reg.bypass

/-- `r` is a pattern nearest to `n / d` units of 2^-149, a tie going to the even pattern (00_scope.md R9). The pattern of
`+inf` stands for the value its bits would have, as IEEE 754 rounds results past the largest finite one. -/
def NearestLow (n d r : Nat) : Prop :=
  r ≤ 0x7F800000 ∧
  ∀ l, l ≤ 0x7F800000 →
    ((n : Int) - (magOfLow r * d : Nat)).natAbs ≤ ((n : Int) - (magOfLow l * d : Nat)).natAbs ∧
    (((n : Int) - (magOfLow r * d : Nat)).natAbs = ((n : Int) - (magOfLow l * d : Nat)).natAbs → l ≠ r → r % 2 = 0)

end Sys2Proof.Machine
end

