-- ==== Sys2Proof/Certificates/Slice0/Obligations.lean ====
section
/-! DEFINITION. The statements for the provers. Each docstring names the rule of spec/ it formalises. A statement about
`numerics` holds whatever the four transcendental functions are, within P1 to P4 of 00_scope.md R12. -/

open Sys2Proof Sys2Proof.Machine

/-! ## Encoding and decoding -/

/-- 30_encoding.md R71 to R75: no bit of an encoding is dropped. A well-formed command decodes from its own word, and from
the bytes of its word at the head of any byte sequence. -/
def Obligations.DecodeOfEncodeIsTheCommand : Prop :=
  ∀ (i : Instr) (rest : List Byte), i.wellFormed = true →
    decodeWord (encode i) = i ∧ decode (wordBytes (encode i) ++ rest) = .ok (i, rest)

/-- 30_encoding.md R77 and the opcode table: every word belongs to one row of the table, that of the command it decodes
to, and to no other; and the command is well formed. -/
def Obligations.EveryWordBelongsToExactlyOneRow : Prop :=
  ∀ w : CmdWord,
    (decodeWord w).wellFormed = true ∧ tableRow (decodeWord w) ∈ tableRows ∧
    ∀ r ∈ tableRows, (r.holds w = true ↔ r = tableRow (decodeWord w))

/-- 30_encoding.md R76: with every reserved bit read as zero the word is the same command, which executes. -/
def Obligations.ReservedFieldsAreIgnored : Prop :=
  ∀ (w : CmdWord) (s : State),
    decodeWord (w &&& definedBits w) = decodeWord w ∧
    ∃ t, exec (decodeWord w) s = .next t ∧ exec (decodeWord (w &&& definedBits w)) s = .next t

/-- Words written out from the fields of 30_encoding.md R72 to R75 (R85 and 95_test_vectors.md V-ENC-2) decode to the
commands they stand for. -/
def Obligations.WrittenOutWordsDecode : Prop :=
  decodeWord 0x0123456789ABCDEF#64 = .nop ∧
  decodeWord 0x10FFFFFF3F800000#64 = .paramGain 0xFFFFFF#24 0x3F800000#32 ∧
  decodeWord 0x120000113F000000#64 = .paramFine 17#24 0x3F000000#32 ∧
  decodeWord 0x170000003F800000#64 = .paramBypass 0#24 0x3F800000#32 ∧
  decodeWord 0x1F123456DEADBEEF#64 = .paramReserved 15#4 0x123456#24 0xDEADBEEF#32 ∧
  decodeWord 0x200000000164003C#64 = .noteOn 60#7 100#7 1#4 ∧
  decodeWord 0x3FFFFFFFF0FFFF80#64 = .noteOff 0#7 127#7 0#4 ∧
  decodeWord 0x4FFFFF0200000004#64 = .process 2#8 4#32 ∧
  decodeWord 0x5FFFFFFFFFFFFFFF#64 = .activate ∧
  decodeWord 0xF123456789ABCDEF#64 = .reservedF

/-- 20_memory.md R54: a partial word is not delivered. Fewer than eight bytes are no command and leave the block as it is;
the whole words before them are delivered, in order. -/
def Obligations.PartialWordIsNotDelivered : Prop :=
  (∀ (bs : List Byte) (s : State), bs.length < 8 → decode bs = .error .partialWord ∧ hostSendBytes bs s = s) ∧
  ∀ (ws : List CmdWord) (left : List Byte) (s : State), left.length < 8 →
    hostSendBytes (ws.flatMap wordBytes ++ left) s = hostSend ws s

/-- 20_memory.md R53: a command word goes as bytes, `w[7:0]` first. So do the words the block sends: the four bytes of an OUT
word and the eight of a STATUS word ("Where a transport carries a word as bytes, the bytes are little-endian"), word after
word in the order the host has taken them. -/
def Obligations.CommandBytesAreLittleEndian : Prop :=
  (∀ (b0 b1 b2 b3 b4 b5 b6 b7 : Byte) (rest : List Byte), ∃ w : CmdWord,
    w.toNat = b0.toNat + 2 ^ 8 * b1.toNat + 2 ^ 16 * b2.toNat + 2 ^ 24 * b3.toNat + 2 ^ 32 * b4.toNat + 2 ^ 40 * b5.toNat +
      2 ^ 48 * b6.toNat + 2 ^ 56 * b7.toNat ∧
    decode ([b0, b1, b2, b3, b4, b5, b6, b7] ++ rest) = .ok (decodeWord w, rest) ∧
    wordBytes w = [b0, b1, b2, b3, b4, b5, b6, b7]) ∧
  (∀ w : OutWord, ∃ b0 b1 b2 b3 : Byte, outBytes w = [b0, b1, b2, b3] ∧
    w.toNat = b0.toNat + 2 ^ 8 * b1.toNat + 2 ^ 16 * b2.toNat + 2 ^ 24 * b3.toNat) ∧
  (∀ w : StatusWord, ∃ b0 b1 b2 b3 b4 b5 b6 b7 : Byte, statusBytes w = [b0, b1, b2, b3, b4, b5, b6, b7] ∧
    w.toNat = b0.toNat + 2 ^ 8 * b1.toNat + 2 ^ 16 * b2.toNat + 2 ^ 24 * b3.toNat + 2 ^ 32 * b4.toNat + 2 ^ 40 * b5.toNat +
      2 ^ 48 * b6.toNat + 2 ^ 56 * b7.toNat) ∧
  (∀ (s : State) (w : OutWord), outStreamBytes { s with emitted := s.emitted ++ [.out w] } = outStreamBytes s ++ outBytes w ∧
    statusStreamBytes { s with emitted := s.emitted ++ [.out w] } = statusStreamBytes s) ∧
  ∀ (s : State) (w : StatusWord),
    statusStreamBytes { s with emitted := s.emitted ++ [.status w] } = statusStreamBytes s ++ statusBytes w ∧
    outStreamBytes { s with emitted := s.emitted ++ [.status w] } = outStreamBytes s

/-! ## The step and the streams -/

/-- 20_memory.md R52, R56: with no word offered, a step takes the next CMD word and executes the command it decodes to on the
state without that word. `withFetchWord` places a word so. -/
def Obligations.StepRunsTheDecodedCommand : Prop :=
  (∀ (s : State) (w : CmdWord) (later : List CmdWord) (i : Instr),
    s.offered = [] → s.cmd = w :: later → decodeWord w = i → step s = exec i { s with cmd := later }) ∧
  ∀ (s : State) (nbits w : Nat),
    step (s.withFetchWord nbits w) =
      exec (decodeWord (BitVec.ofNat 64 (w % 2 ^ nbits))) { s with emitted := s.emitted ++ s.offered, offered := [] }

/-- 70_reset_and_hazards.md R310, 20_memory.md R52: while a word is offered the step hands it over or waits with it. It takes
no CMD word, changes no register, and loses and reorders no word. `hostReady` is the model's own field (log entry 7). -/
def Obligations.OfferedWordIsHandedOverOrWaits : Prop :=
  ∀ (s : State) (e : Emission) (rest : List Emission), s.offered = e :: rest →
    ∃ t, step s = .next t ∧ t.emitted ++ t.offered = s.emitted ++ s.offered ∧
      t.cmd = s.cmd ∧ t.cfg = s.cfg ∧ t.reg = s.reg ∧ t.v = s.v ∧ t.pend = s.pend ∧
      (s.hostReady = [] → t.offered = rest ∧ t.hostReady = []) ∧
      (∀ later, s.hostReady = true :: later → t.offered = rest ∧ t.hostReady = later) ∧
      (∀ later, s.hostReady = false :: later → t.offered = s.offered ∧ t.hostReady = later)

/-- 60_exceptions.md R275: a block that receives no commands keeps all its state, however long. -/
def Obligations.NoCommandsKeepTheState : Prop :=
  ∀ (k : Nat) (s : State), s.offered = [] → s.cmd = [] → Sys2Proof.core.run k s = .next s

/-- 20_memory.md R56, item 1: words sent after a command do not change what the step does. -/
def Obligations.LaterCommandsDoNotAffectAStep : Prop :=
  ∀ (s : State) (ws : List CmdWord), (s.offered ≠ [] ∨ s.cmd ≠ []) →
    ∃ t, step s = .next t ∧ step (hostSend ws s) = .next (hostSend ws t)

/-- 20_memory.md R58, 45_process_block.md R211: with a host that takes every word, a `PROCESS` of `C` channels and `N`
samples and the handing over of its words take `1 + C × N + 1` steps; then the host has the `C × N` OUT words and after
them the STATUS word, nothing is left offered and the next command has not been taken. That each word takes one step,
and a `PROCESS` one before them, is the model's choice (DESIGN CHOICE, log entry 7). -/
def Obligations.BlockIsDeliveredInOrder : Prop :=
  ∀ (s : State) (w : CmdWord) (later : List CmdWord) (c : BitVec 8) (n : BitVec 32),
    s.offered = [] → s.hostReady = [] → s.cmd = w :: later → decodeWord w = .process c n →
    ∃ (t : State) (outs : List OutWord) (st : StatusWord),
      Sys2Proof.core.run (1 + (c.toNat * n.toNat + 1)) s = .next t ∧ outs.length = c.toNat * n.toNat ∧
      t.emitted = s.emitted ++ outs.map .out ++ [.status st] ∧ t.offered = [] ∧ t.cmd = later

/-! ## Parameter intake -/

/-- 43_parameter_intake.md R160: `PARAM_SET` of a register records the raw value and the flag of its id, and changes nothing
else. A reserved id has no effect. -/
def Obligations.ParamSetRecordsTheRawValue : Prop :=
  (∀ (p : Pid) (pos : BitVec 24) (value : F32) (s : State), ∃ t,
    exec (paramInstr p pos value) s = .next t ∧
    perPidGet t.pend.pval p = value ∧ perPidGet t.pend.pvalid p = true ∧
    (∀ q, q ≠ p → perPidGet t.pend.pval q = perPidGet s.pend.pval q ∧
      perPidGet t.pend.pvalid q = perPidGet s.pend.pvalid q) ∧
    t.pend.note = s.pend.note ∧ t.cfg = s.cfg ∧ t.reg = s.reg ∧ t.v = s.v ∧ t.cmd = s.cmd ∧ t.offered = s.offered ∧
    t.emitted = s.emitted ∧ t.hostReady = s.hostReady) ∧
  ∀ (pid : BitVec 4) (pos : BitVec 24) (value : F32) (s : State), 8 ≤ pid.toNat →
    exec (decodeParam pid pos value) s = .next s

/-- 43_parameter_intake.md R161: a `PARAM_SET` of a reserved id changes no state and emits nothing. -/
def Obligations.ReservedParameterIdChangesNothing : Prop :=
  ∀ (pid : BitVec 4) (pos : BitVec 24) (value : F32) (s : State), 8 ≤ pid.toNat →
    exec (.paramReserved pid pos value) s = .next s

/-- 43_parameter_intake.md R162: `pos` has no effect, and of two change points the last in arrival order stands, whatever
their positions. -/
def Obligations.SamplePositionHasNoEffect : Prop :=
  (∀ (p : Pid) (pos pos' : BitVec 24) (value : F32) (s : State), ∃ t,
    exec (paramInstr p pos value) s = .next t ∧ exec (paramInstr p pos' value) s = .next t) ∧
  ∀ (p : Pid) (pos1 pos2 : BitVec 24) (x y : F32) (s : State),
    execAll [paramInstr p pos1 x, paramInstr p pos2 y] s = exec (paramInstr p pos2 y) s

/-- 43_parameter_intake.md R163: the commit of a `PROCESS` writes the clamped and mapped pending value to every register
that has one, keeps the others, clears every flag, and keeps the pending values. It runs in every `PROCESS`. -/
def Obligations.CommitWritesTheClampedPendingValues : Prop :=
  ∀ (c : BitVec 8) (n : BitVec 32) (s : State), ∃ t, exec (.process c n) s = .next t ∧
    t.reg.gain = (if s.pend.pvalid.gain then clamp01 s.pend.pval.gain else s.reg.gain) ∧
    t.reg.freq = (if s.pend.pvalid.freq then clamp01 s.pend.pval.freq else s.reg.freq) ∧
    t.reg.fine = (if s.pend.pvalid.fine then clamp01 s.pend.pval.fine else s.reg.fine) ∧
    t.reg.res = (if s.pend.pvalid.res then clamp01 s.pend.pval.res else s.reg.res) ∧
    t.reg.wave = (if s.pend.pvalid.wave then waveIndex (clamp01 s.pend.pval.wave) else s.reg.wave) ∧
    t.reg.attack = (if s.pend.pvalid.attack then clamp01 s.pend.pval.attack else s.reg.attack) ∧
    t.reg.release = (if s.pend.pvalid.release then clamp01 s.pend.pval.release else s.reg.release) ∧
    t.reg.bypass = (if s.pend.pvalid.bypass then bypassBit (clamp01 s.pend.pval.bypass) else s.reg.bypass) ∧
    (∀ p, perPidGet t.pend.pvalid p = false) ∧ t.pend.pval = s.pend.pval

/-- 43_parameter_intake.md R164: the clamp takes every pattern into [0, 1]: above 1.0 gives 1.0, a value in (0, 1] is kept,
and NaN, negative values and both zeros give `+0.0`. -/
def Obligations.ClampMapsEveryPatternIntoTheUnitRange : Prop :=
  ∀ x : F32,
    (fgt x f1 = true → clamp01 x = 0x3F800000#32) ∧
    (fgt x f0 = true → fle x f1 = true → clamp01 x = x) ∧
    (f32IsNaN x = true ∨ fle x f0 = true → clamp01 x = 0x00000000#32) ∧
    InUnit (clamp01 x)

/-- 43_parameter_intake.md R165: the waveform index of a clamped value, by the thresholds the rule gives on its bits. -/
def Obligations.WaveIndexThresholds : Prop :=
  ∀ x : F32, InUnit x →
    (x.toNat < 0x3E2AAAAB → waveIndex x = 0) ∧
    (0x3E2AAAAB ≤ x.toNat → x.toNat ≤ 0x3EFFFFFF → waveIndex x = 1) ∧
    (0x3F000000 ≤ x.toNat → x.toNat ≤ 0x3F555554 → waveIndex x = 2) ∧
    (0x3F555555 ≤ x.toNat → waveIndex x = 3)

/-- 43_parameter_intake.md R166: the bypass bit of the committed value is 1 exactly from 0.5 up, for every pending pattern. -/
def Obligations.BypassBitThreshold : Prop :=
  ∀ x : F32, bypassBit (clamp01 x) = true ↔ fge x fHalf = true

/-- 43_parameter_intake.md R168: a sequence of change points has the effect of its last point per id, and the registers
after the next commit hold the last points' values, the ids without a point their old ones. -/
def Obligations.LastParameterWriteWins : Prop :=
  ∀ (xs : List (Pid × BitVec 24 × F32)) (s : State) (c : BitVec 8) (n : BitVec 32),
    (∃ t, execAll (xs.map changeInstr) s = .next t ∧ execAll ((lastOnly xs).map changeInstr) s = .next t) ∧
    (s.pend.pvalid = PerPid.fill false →
      ∃ t, execAll (xs.map changeInstr ++ [.process c n]) s = .next t ∧
        t.reg.gain = ((lastValue .gain xs).map clamp01).getD s.reg.gain ∧
        t.reg.freq = ((lastValue .freq xs).map clamp01).getD s.reg.freq ∧
        t.reg.fine = ((lastValue .fine xs).map clamp01).getD s.reg.fine ∧
        t.reg.res = ((lastValue .res xs).map clamp01).getD s.reg.res ∧
        t.reg.wave = ((lastValue .wave xs).map fun x => waveIndex (clamp01 x)).getD s.reg.wave ∧
        t.reg.attack = ((lastValue .attack xs).map clamp01).getD s.reg.attack ∧
        t.reg.release = ((lastValue .release xs).map clamp01).getD s.reg.release ∧
        t.reg.bypass = ((lastValue .bypass xs).map fun x => bypassBit (clamp01 x)).getD s.reg.bypass)

/-- 20_memory.md R56: the order in which a parameter change and a note command arrive before a `PROCESS` does not matter, nor
that of changes to two ids. -/
def Obligations.ParameterAndNoteCommandsCommute : Prop :=
  (∀ (p : Pid) (pos : BitVec 24) (x : F32) (e : NoteEvent) (s : State), ∃ t,
    execAll [paramInstr p pos x, noteInstr e] s = .next t ∧ execAll [noteInstr e, paramInstr p pos x] s = .next t) ∧
  ∀ (p q : Pid) (pos pos' : BitVec 24) (x y : F32) (s : State), p ≠ q → ∃ t,
    execAll [paramInstr p pos x, paramInstr q pos' y] s = .next t ∧
    execAll [paramInstr q pos' y, paramInstr p pos x] s = .next t

/-! ## Note events -/

/-- 44_note_events.md R180, R181: `NOTE_ON` writes `LAST`, `ON_SEEN` and `PITCH` of the note record, `NOTE_OFF` writes `LAST`
and `OFF_SEEN`, and neither writes anything else. -/
def Obligations.NoteCommandsRecordTheirEvent : Prop :=
  ∀ (pitch vel : BitVec 7) (chan : BitVec 4) (s : State),
    (∃ t, exec (.noteOn pitch vel chan) s = .next t ∧
      t.pend.note.last = .on ∧ t.pend.note.onSeen = true ∧ t.pend.note.pitch = pitch ∧
      t.pend.note.offSeen = s.pend.note.offSeen ∧ t.pend.pval = s.pend.pval ∧ t.pend.pvalid = s.pend.pvalid ∧
      t.cfg = s.cfg ∧ t.reg = s.reg ∧ t.v = s.v ∧ t.cmd = s.cmd ∧ t.offered = s.offered ∧ t.emitted = s.emitted ∧
      t.hostReady = s.hostReady) ∧
    ∃ t, exec (.noteOff pitch vel chan) s = .next t ∧
      t.pend.note.last = .off ∧ t.pend.note.offSeen = true ∧ t.pend.note.onSeen = s.pend.note.onSeen ∧
      t.pend.note.pitch = s.pend.note.pitch ∧ t.pend.pval = s.pend.pval ∧ t.pend.pvalid = s.pend.pvalid ∧
      t.cfg = s.cfg ∧ t.reg = s.reg ∧ t.v = s.v ∧ t.cmd = s.cmd ∧ t.offered = s.offered ∧ t.emitted = s.emitted ∧
      t.hostReady = s.hostReady

/-- 44_note_events.md R185: `VEL` and `CHAN` of both commands and `PITCH` of `NOTE_OFF` have no effect. -/
def Obligations.IgnoredNoteFieldsHaveNoEffect : Prop :=
  (∀ (pitch vel vel' : BitVec 7) (chan chan' : BitVec 4) (s : State), ∃ t,
    exec (.noteOn pitch vel chan) s = .next t ∧ exec (.noteOn pitch vel' chan') s = .next t) ∧
  ∀ (pitch pitch' vel vel' : BitVec 7) (chan chan' : BitVec 4) (s : State), ∃ t,
    exec (.noteOff pitch vel chan) s = .next t ∧ exec (.noteOff pitch' vel' chan') s = .next t

/-- 44_note_events.md R184: the note record gives the voice that applying every queued event in arrival order would give. The
record's voice is read after steps 1 and 2 of a block, and after a whole `PROCESS` of no samples. -/
def Obligations.NoteRecordAgreesWithArrivalOrder : Prop :=
  ∀ (evs : List NoteEvent) (s : State) (c : BitVec 8), s.pend.note = NoteRecord.empty →
    ∃ t1 t, execAll (evs.map noteInstr) s = .next t1 ∧ exec (.process c 0#32) t1 = .next t ∧
      (blockStart numerics t1).v = evs.foldl (applyNote numerics s.cfg t.reg) s.v ∧
      t.v = evs.foldl (applyNote numerics s.cfg t.reg) s.v

/-- 44_note_events.md R182: what the note intake of every `PROCESS` does with the note record: the note frequency and the two
rates, from the parameters that the same `PROCESS` committed and the level before the block, and the empty record. `ENV` and
the registers the intake does not write are stated of the voice that the block starts from, which is the voice that a
bypassed or empty block leaves. -/
def Obligations.NoteIntakeAppliesTheRecord : Prop :=
  ∀ (c : BitVec 8) (n : BitVec 32) (s : State), ∃ t, exec (.process c n) s = .next t ∧
    t.v.noteFreq = (if s.pend.note.onSeen
      then fmul f440 (numerics.exp2 (fdiv (floatOfInt ((s.pend.note.pitch.toNat : Int) - 69)) f12)) else s.v.noteFreq) ∧
    t.v.attackRate = (if s.pend.note.onSeen then attackRateOf s.cfg t.reg.attack else s.v.attackRate) ∧
    t.v.releaseRate = (if s.pend.note.offSeen then releaseRateOf s.cfg t.reg.release s.v.level else s.v.releaseRate) ∧
    t.pend.note = { last := .none, onSeen := false, pitch := 0#7, offSeen := false } ∧
    ∀ v : Voice, v = (blockStart numerics s).v →
      (s.pend.note.last = .on → v.env = .attack) ∧ (s.pend.note.last = .off → v.env = .release) ∧
      (s.pend.note.last = .none → v.env =
        if s.pend.note.offSeen then .release else if s.pend.note.onSeen then .attack else s.v.env) ∧
      v.noteFreq = t.v.noteFreq ∧ v.attackRate = t.v.attackRate ∧ v.releaseRate = t.v.releaseRate ∧
      v.level = s.v.level ∧ v.phase = s.v.phase ∧ v.ic1 = s.v.ic1 ∧ v.ic2 = s.v.ic2 ∧
      (committedBypass s = true ∨ n = 0#32 → t.v = v)

/-- 44_note_events.md R183: `PITCH` 69 gives exactly 440.0 Hz, whatever `EXP2` is; and a `PROCESS` after `NOTE_ON` writes
`440.0 × EXP2(float(p - 69) ÷ 12.0)` to `NOTE_FREQ`. -/
def Obligations.NoteOnSetsTheMidiFrequency : Prop :=
  (∀ (pitch vel : BitVec 7) (chan : BitVec 4) (c : BitVec 8) (n : BitVec 32) (s : State), ∃ t,
    execAll [.noteOn pitch vel chan, .process c n] s = .next t ∧
    t.v.noteFreq = fmul f440 (numerics.exp2 (fdiv (floatOfInt ((pitch.toNat : Int) - 69)) f12))) ∧
  fmul f440 (numerics.exp2 (fdiv (floatOfInt (((69#7).toNat : Int) - 69)) f12)) = 0x43DC0000#32

/-- 70_reset_and_hazards.md R305, 41_envelope.md R121: the attack rate comes from `ATTACK` as committed by the same `PROCESS`,
also when its `PARAM_SET` came after the `NOTE_ON`; a `PROCESS` with no `NOTE_ON` before it keeps the rate. -/
def Obligations.AttackRateComesFromTheCommittedAttack : Prop :=
  (∀ (pitch vel : BitVec 7) (chan : BitVec 4) (pos : BitVec 24) (x : F32) (c : BitVec 8) (n : BitVec 32) (s : State), ∃ t,
    execAll [.noteOn pitch vel chan, .paramAttack pos x, .process c n] s = .next t ∧ t.reg.attack = clamp01 x ∧
    let ms := fadd f1 (fmul f999 (fmul (clamp01 x) (clamp01 x)))
    let ns := fmul (fmul ms fKMs) s.cfg.sampleRate.bits
    t.v.attackRate = fdiv f1 (if flt ns f1 then f1 else ns)) ∧
  ∀ (c : BitVec 8) (n : BitVec 32) (s : State), s.pend.note.onSeen = false →
    ∃ t, exec (.process c n) s = .next t ∧ t.v.attackRate = s.v.attackRate

/-- 70_reset_and_hazards.md R306, 41_envelope.md R122: the release rate comes from `RELEASE` as committed by the same
`PROCESS` and from the level the previous block left; a `PROCESS` with no `NOTE_OFF` before it keeps the rate. -/
def Obligations.ReleaseRateIsCapturedAtTheIntake : Prop :=
  (∀ (pitch vel : BitVec 7) (chan : BitVec 4) (pos : BitVec 24) (x : F32) (c : BitVec 8) (n : BitVec 32) (s : State), ∃ t,
    execAll [.noteOff pitch vel chan, .paramRelease pos x, .process c n] s = .next t ∧ t.reg.release = clamp01 x ∧
    let ms := fadd f10 (fmul f2990 (fmul (clamp01 x) (clamp01 x)))
    let ns := fmul (fmul ms fKMs) s.cfg.sampleRate.bits
    t.v.releaseRate = fdiv s.v.level (if flt ns f1 then f1 else ns)) ∧
  ∀ (c : BitVec 8) (n : BitVec 32) (s : State), s.pend.note.offSeen = false →
    ∃ t, exec (.process c n) s = .next t ∧ t.v.releaseRate = s.v.releaseRate

/-! ## The envelope -/

/-- 41_envelope.md R123: an Attack step adds the rate, saturates at 1.0, stays in Attack and writes only the level. R127 item 1
and 3: from a level and a rate in [0, 1] it never lowers the level and stays in [0, 1]. -/
def Obligations.AttackStepRisesAndSaturates : Prop :=
  ∀ v : Voice, v.env = .attack →
    envStep v = { v with level := if fge (fadd v.level v.attackRate) f1 then f1 else fadd v.level v.attackRate } ∧
    (InUnit v.level → InUnit v.attackRate → fle v.level (envStep v).level = true ∧ InUnit (envStep v).level)

/-- 41_envelope.md R124: a Release step subtracts the rate, and where the difference is `<= 0.0` leaves `+0.0` and Idle; it
writes only the level and the state. R127 items 2 and 3: from a level and a rate in [0, 1] it never raises the level and
stays in [0, 1]. With a zero rate and a level above 0 it never ends (93_implementation_defined.md I11). -/
def Obligations.ReleaseStepFallsToIdle : Prop :=
  ∀ v : Voice, v.env = .release →
    envStep v = (if fle (fsub v.level v.releaseRate) f0 then { v with level := 0x00000000#32, env := .idle }
      else { v with level := fsub v.level v.releaseRate }) ∧
    (InUnit v.level → InUnit v.releaseRate →
      fle (envStep v).level v.level = true ∧ InUnit (envStep v).level ∧
      (v.level ≠ 0x00000000#32 → v.releaseRate = 0x00000000#32 → envStep v = v))

/-- 41_envelope.md R125: an Idle step writes nothing. -/
def Obligations.IdleStepWritesNothing : Prop :=
  ∀ v : Voice, v.env = .idle → envStep v = v

/-- 10_state.md R27, third item: for a sample rate up to 2^100 the captured attack rate is above 0. -/
def Obligations.AttackRateIsPositive : Prop :=
  ∀ (c : Cfg) (a : F32), InUnit a → c.sampleRate.bits.toNat ≤ 0x71800000 → fgt (attackRateOf c a) f0 = true

/-! ## The oscillator -/

/-- 40_oscillator.md R102 to R105: the four waveforms by their formulas, and the exact values of 95_test_vectors.md V-SRC-1 and
V-OSC at +0.0, PI and 0x40C90FDA for the waveforms that need no sine (and the sine at +0.0). 60_exceptions.md R261: a
selector outside 0..3 gives the sine. -/
def Obligations.WaveformCornerValues : Prop :=
  (∀ phase : F32, osc numerics phase 0 = numerics.sin phase ∧
    osc numerics phase 1 = fsub (fmul f2 (fdiv phase fTwoPi)) f1 ∧
    osc numerics phase 2 = (if flt (fdiv phase fTwoPi) fHalf then 0x3F800000#32 else 0xBF800000#32) ∧
    osc numerics phase 3 = fsub (fmul f4 (fabs (fsub (fdiv phase fTwoPi) fHalf))) f1) ∧
  osc numerics f0 0 = 0x00000000#32 ∧ osc numerics f0 1 = 0xBF800000#32 ∧ osc numerics f0 2 = 0x3F800000#32 ∧
  osc numerics f0 3 = 0x3F800000#32 ∧ osc numerics fPi 1 = 0x00000000#32 ∧ osc numerics fPi 2 = 0xBF800000#32 ∧
  osc numerics fPi 3 = 0xBF800000#32 ∧ osc numerics 0x40C90FDA#32 1 = 0x3F7FFFFE#32 ∧
  osc numerics 0x40C90FDA#32 2 = 0xBF800000#32 ∧ osc numerics 0x40C90FDA#32 3 = 0x3F7FFFFC#32 ∧
  ∀ (phase : F32) (wave : Nat), 4 ≤ wave → osc numerics phase wave = numerics.sin phase

/-- 40_oscillator.md R100: for a phase in [0, 2π) every waveform's output is in [-1.0, 1.0]. -/
def Obligations.OscillatorStaysInRange : Prop :=
  ∀ (phase : F32) (wave : Nat), PhaseInRange phase → inRange fNeg1 (osc numerics phase wave) f1 = true

/-- 40_oscillator.md R109 and 10_state.md R27, second item: a phase in [0, 2π) stays there when it advances by an increment in
(0, 2π); the power-on phase is in the range; and a `PROCESS` keeps it there, given 00_scope.md R6's condition on the increment
its block computes. -/
def Obligations.PhaseStaysBelowTwoPi : Prop :=
  (∀ phase inc : F32, PhaseInRange phase → fgt inc f0 = true → flt inc fTwoPi = true → PhaseInRange (nextPhase phase inc)) ∧
  (∀ c : Cfg, PhaseInRange (State.powerOn c).v.phase) ∧
  ∀ (c : BitVec 8) (n : BitVec 32) (s : State), PhaseInRange s.v.phase →
    fgt (phaseIncrement numerics s.cfg (blockStart numerics s).reg (blockStart numerics s).v) f0 = true →
    flt (phaseIncrement numerics s.cfg (blockStart numerics s).reg (blockStart numerics s).v) fTwoPi = true →
    ∃ t, exec (.process c n) s = .next t ∧ PhaseInRange t.v.phase

/-- 40_oscillator.md R106, corner cases: with `FINE` at 0.5 the frequency is the base exactly. In KNOB mode the base is
`20.0 × POW1000(FREQ)` for every legal `FREQ`, exactly 20.0 Hz at `FREQ = 0.0`; in NOTE mode it is `NOTE_FREQ`, stated for
every finite non-negative one. -/
def Obligations.CentredFineGivesTheBaseFrequency : Prop :=
  ∀ (c : Cfg) (r : ParamBank) (v : Voice), r.fine = 0x3F000000#32 →
    (c.pitchMode = .knob → InUnit r.freq → finalFrequency numerics c r v = fmul f20 (numerics.pow1000 r.freq)) ∧
    (c.pitchMode = .knob → r.freq = 0x00000000#32 → finalFrequency numerics c r v = 0x41A00000#32) ∧
    (c.pitchMode = .note → v.noteFreq.toNat < 0x7F800000 → finalFrequency numerics c r v = v.noteFreq)

/-- 44_note_events.md R186: in KNOB mode no rule reads `NOTE_FREQ`, and in NOTE mode without a filter none reads `FREQ`: a
`PROCESS` from states that differ there alone gives states that differ there alone. -/
def Obligations.PitchModeSelectsOneFrequencySource : Prop :=
  (∀ (c : BitVec 8) (n : BitVec 32) (s : State) (x : F32), s.cfg.pitchMode = .knob →
    ∃ t, exec (.process c n) s = .next t ∧
      exec (.process c n) { s with v := { s.v with noteFreq := x } } =
        .next { t with v := { t.v with noteFreq := if s.pend.note.onSeen then t.v.noteFreq else x } }) ∧
  ∀ (c : BitVec 8) (n : BitVec 32) (s : State) (x : F32), s.cfg.pitchMode = .note → s.cfg.filterEn = false →
    ∃ t, exec (.process c n) s = .next t ∧
      exec (.process c n) { s with reg := { s.reg with freq := x } } =
        .next { t with reg := { t.reg with freq := if s.pend.pvalid.freq then t.reg.freq else x } }

/-! ## The filter -/

/-- 42_filter.md R144: the step's outputs, with every right-hand side reading the memory from before the step, and the
low-pass line as the source writes it. -/
def Obligations.FilterStepIsTheSourcesUpdate : Prop :=
  ∀ (q : FilterCoeffs) (x : F32) (v : Voice),
    let d := fsub (fsub x (fmul q.k v.ic1)) v.ic2
    let bp := fadd (fmul q.a2 d) v.ic1
    let lp := fadd (fadd (fmul q.a2 v.ic1) v.ic2) (fmul q.g (fmul q.a1 d))
    filterStep q x v = ({ v with ic1 := fsub (fmul f2 bp) v.ic1, ic2 := fsub (fmul f2 lp) v.ic2 }, lp)

/-- 42_filter.md R143: for `RES` in [0, 1] the damping `K` is in [0.10000002, 2.0]. -/
def Obligations.DampingRange : Prop :=
  ∀ res : F32, InUnit res → inRange 0x3DCCCCD0#32 (dampingOf res) f2 = true

/-- 42_filter.md R141, R142: the cutoff never exceeds `0.49 · sampleRate`, and `G` is finite and positive for every `FREQ`
in [0, 1] and every sample rate, whatever conforming `TAN` and `POW1000` are. -/
def Obligations.NyquistGuardKeepsTheWarpFinite : Prop :=
  ∀ (c : Cfg) (freq : F32), InUnit freq →
    fgt (cutoffHz numerics c freq) (fmul fKNyq c.sampleRate.bits) = false ∧
    f32IsFinite (warpOf numerics c freq) = true ∧ fgt (warpOf numerics c freq) f0 = true

/-- 60_exceptions.md R265: the divisors are at least 1.0: the sample rate, the envelope's sample counts, and
`1.0 + G × (G + K)`. -/
def Obligations.NoRuleDividesByZero : Prop :=
  ∀ (c : Cfg) (x freq res : F32), InUnit x → InUnit freq → InUnit res →
    fge c.sampleRate.bits f1 = true ∧ fge (envSamples c (attackMs x)) f1 = true ∧
    fge (envSamples c (releaseMs x)) f1 = true ∧
    fge (fadd f1 (fmul (warpOf numerics c freq) (fadd (warpOf numerics c freq) (dampingOf res)))) f1 = true

/-- 42_filter.md R140: in the minimal variant no `PROCESS` writes the filter memory, and `RES` has no effect but on its own
register. -/
def Obligations.MinimalVariantHasNoFilter : Prop :=
  ∀ (c : BitVec 8) (n : BitVec 32) (s : State) (x : F32), s.cfg.filterEn = false →
    ∃ t, exec (.process c n) s = .next t ∧ t.v.ic1 = s.v.ic1 ∧ t.v.ic2 = s.v.ic2 ∧
      exec (.process c n) { s with reg := { s.reg with res := x } } =
        .next { t with reg := { t.reg with res := if s.pend.pvalid.res then t.reg.res else x } }

/-! ## The block -/

/-- 45_process_block.md R208, R210: a `PROCESS` emits one value a sample on all `C` channels, channel `c` of sample `k` at
position `k × C + c`, and after them one STATUS word with `C` and `N` echoed and bits 62:40 zero. It changes no stream
otherwise, nor the configuration. -/
def Obligations.ProcessEmitsSamplesThenStatus : Prop :=
  ∀ (c : BitVec 8) (n : BitVec 32) (s : State), ∃ (t : State) (ys : List F32) (outs : List OutWord) (st : StatusWord),
    exec (.process c n) s = .next t ∧ t.offered = s.offered ++ (outs.map .out ++ [.status st]) ∧
    ys.length = n.toNat ∧ outs.length = c.toNat * n.toNat ∧
    (∀ k ch, k < n.toNat → ch < c.toNat → outs[k * c.toNat + ch]? = ys[k]?) ∧
    st.extractLsb' 40 23 = 0#23 ∧ st.extractLsb' 32 8 = c ∧ st.extractLsb' 0 32 = n ∧
    t.cfg = s.cfg ∧ t.cmd = s.cmd ∧ t.emitted = s.emitted ∧ t.hostReady = s.hostReady

/-- 10_state.md R33: every `PROCESS` empties the intake state, bypassed or empty blocks included. -/
def Obligations.ProcessEmptiesTheIntake : Prop :=
  ∀ (c : BitVec 8) (n : BitVec 32) (s : State), ∃ t, exec (.process c n) s = .next t ∧
    (∀ p, perPidGet t.pend.pvalid p = false) ∧
    t.pend.note = { last := .none, onSeen := false, pitch := 0#7, offSeen := false }

/-- 45_process_block.md R203: a bypassed block, and one of no samples, emits `C × N` words of `+0.0` and a STATUS word with
`SILENT = 1`; after steps 1 and 2 no voice register changes. -/
def Obligations.BypassedOrEmptyBlockIsSilentAndFrozen : Prop :=
  ∀ (c : BitVec 8) (n : BitVec 32) (s : State), (committedBypass s = true ∨ n = 0#32) →
    ∃ t, exec (.process c n) s = .next t ∧
      t.offered = s.offered ++
        ((List.replicate (c.toNat * n.toNat) (0x00000000#32)).map .out ++ [.status (1#1 ++ 0#23 ++ c ++ n)]) ∧
      t.v = (blockStart numerics s).v ∧ t.reg = (blockStart numerics s).reg ∧ t.pend = (blockStart numerics s).pend ∧
      t.v.phase = s.v.phase ∧ t.v.level = s.v.level ∧ t.v.ic1 = s.v.ic1 ∧ t.v.ic2 = s.v.ic2

/-- 45_process_block.md R204, R205, R208 to R210: a block that is not bypassed and not empty takes its samples in order from
the voice that steps 1 and 2 leave, with the values of step 4; each sample is one envelope step and then the sounding or the
silent path. The values of step 4 are those of 40_oscillator.md R106 and R107 and, with the filter present, 42_filter.md
R141, from the parameters and the voice at the block's start. SILENT is 1 exactly when the envelope ends Idle and every
sample is numerically 0; that a NaN sample is not numerically 0 is the model's reading (DEDUCED, log entry 5). -/
def Obligations.SoundingBlockRunsTheSampleLoop : Prop :=
  ∀ (c : BitVec 8) (n : BitVec 32) (s : State), committedBypass s = false → n ≠ 0#32 →
    ∃ (t : State) (b : BlockValues) (base : F32) (vs : Nat → Voice) (ys : List F32) (silent : Bool),
      exec (.process c n) s = .next t ∧ ys.length = n.toNat ∧
      vs 0 = (blockStart numerics s).v ∧ t.v = vs n.toNat ∧ t.reg = (blockStart numerics s).reg ∧
      (s.cfg.pitchMode = .knob → base = fmul f20 (numerics.pow1000 t.reg.freq)) ∧
      (s.cfg.pitchMode = .note → base = (vs 0).noteFreq) ∧
      b.phaseInc =
        fdiv (fmul fTwoPi (fmul base (numerics.exp2 (fdiv (fmul (fsub t.reg.fine fHalf) f200) f1200)))) s.cfg.sampleRate.bits ∧
      (s.cfg.filterEn = false → b.filter = none) ∧
      (s.cfg.filterEn = true → ∃ (q : FilterCoeffs) (fc : F32), b.filter = some q ∧
        fc = (if fgt (fmul f20 (numerics.pow1000 t.reg.freq)) (fmul fKNyq s.cfg.sampleRate.bits)
          then fmul fKNyq s.cfg.sampleRate.bits else fmul f20 (numerics.pow1000 t.reg.freq)) ∧
        q.g = numerics.tan (fdiv (fmul fPi fc) s.cfg.sampleRate.bits) ∧
        q.k = fsub f2 (fmul (fmul f2 t.reg.res) fKRes) ∧
        q.a1 = fdiv f1 (fadd f1 (fmul q.g (fadd q.g q.k))) ∧ q.a2 = fmul q.g q.a1) ∧
      (∀ k, k < n.toNat →
        (vs (k + 1), ys[k]?) =
          if fgt (envStep (vs k)).level f0 then
            ((soundingSample numerics t.reg b (envStep (vs k))).1, some (soundingSample numerics t.reg b (envStep (vs k))).2)
          else (envStep (vs k), some f0)) ∧
      t.offered = s.offered ++
        ((ys.flatMap fun y => List.replicate c.toNat y).map .out ++
          [.status ((if silent then 1#1 else 0#1) ++ 0#23 ++ c ++ n)]) ∧
      (silent = true ↔ t.v.env = .idle ∧ ∀ y ∈ ys, feq y f0 = true)

/-- 45_process_block.md R206: a sounding sample is `(s × GAIN) × LEVEL` of the oscillator at the current phase, filtered when
the filter is present; it advances the phase and writes the filter memory, and nothing else. -/
def Obligations.SoundingSampleIsScaledAndAdvances : Prop :=
  ∀ (r : ParamBank) (b : BlockValues) (v : Voice), fgt (envStep v).level f0 = true →
    let e := envStep v
    let x := osc numerics v.phase r.wave.val
    (b.filter = none →
      sampleStep numerics r b v = ({ e with phase := nextPhase v.phase b.phaseInc }, fmul (fmul x r.gain) e.level)) ∧
    ∀ q, b.filter = some q →
      sampleStep numerics r b v =
        ({ e with phase := nextPhase v.phase b.phaseInc, ic1 := (filterStep q x v).1.ic1, ic2 := (filterStep q x v).1.ic2 },
          fmul (fmul (filterStep q x v).2 r.gain) e.level)

/-- 45_process_block.md R207: on a sample whose level is not above 0 the value is `+0.0` and the phase and the filter memory
keep their values. -/
def Obligations.SilentSampleTouchesNothing : Prop :=
  ∀ (r : ParamBank) (b : BlockValues) (v : Voice), fgt (envStep v).level f0 = false →
    sampleStep numerics r b v = (envStep v, 0x00000000#32) ∧
    (envStep v).phase = v.phase ∧ (envStep v).ic1 = v.ic1 ∧ (envStep v).ic2 = v.ic2

/-- 45_process_block.md R209, consequences 1 and 2: SILENT = 1 means that every OUT word of the block is `±0.0`, and that the
envelope is Idle unless the block was bypassed or empty. -/
def Obligations.SilentFlagGuaranteesZeroOutput : Prop :=
  ∀ (c : BitVec 8) (n : BitVec 32) (s : State), ∃ (t : State) (outs : List OutWord) (st : StatusWord),
    exec (.process c n) s = .next t ∧ t.offered = s.offered ++ (outs.map .out ++ [.status st]) ∧
    (st.extractLsb' 63 1 = 1#1 →
      (∀ y ∈ outs, y = 0x00000000#32 ∨ y = 0x80000000#32) ∧
      (t.v.env = .idle ∨ committedBypass s = true ∨ n = 0#32))

/-- 45_process_block.md R212: the state a `PROCESS` leaves and its SILENT bit do not depend on the channel count; with no
channels, or no samples, no OUT word is emitted; and with no samples STATUS is `{1, 0, C, 0}`. -/
def Obligations.ChannelCountOnlyFansOut : Prop :=
  ∀ (c c' : BitVec 8) (n : BitVec 32) (s : State),
    ∃ (t t' : State) (outs outs' : List OutWord) (st st' : StatusWord),
      exec (.process c n) s = .next t ∧ exec (.process c' n) s = .next t' ∧
      t.offered = s.offered ++ (outs.map .out ++ [.status st]) ∧
      t'.offered = s.offered ++ (outs'.map .out ++ [.status st']) ∧
      t'.v = t.v ∧ t'.reg = t.reg ∧ t'.pend = t.pend ∧ st'.extractLsb' 63 1 = st.extractLsb' 63 1 ∧
      (c = 0#8 → outs = []) ∧ (n = 0#32 → outs = [] ∧ st = 1#1 ++ 0#23 ++ c ++ 0#32)

/-- 95_test_vectors.md V-SRC-8, 45_process_block.md R209, 70_reset_and_hazards.md R303 item 4: from a voice at level `+0.0`
that is not in Attack, with no pending `NOTE_ON`, any sequence of commands without a `NOTE_ON` emits only `+0.0` and only
STATUS words with `SILENT = 1`. -/
def Obligations.NoNoteOnMeansSilence : Prop :=
  ∀ (is : List Instr) (s : State), s.Inv → s.v.level = 0x00000000#32 → s.v.env ≠ .attack →
    s.pend.note.onSeen = false → s.pend.note.last ≠ .on →
    (∀ pitch vel chan, Instr.noteOn pitch vel chan ∉ is) →
    ∃ (t : State) (ws : List Emission), execAll is s = .next t ∧ t.offered = s.offered ++ ws ∧
      (∀ y ∈ outWords ws, y = 0x00000000#32) ∧ ∀ w ∈ statusWords ws, w.extractLsb' 63 1 = 1#1

/-! ## Control and reset -/

/-- 46_control.md R230: `ACTIVATE` resets every voice register and the note record, keeps the parameter bank, the pending
changes and the streams; it discards a `NOTE_ON` before it, and two in a row have the effect of one. -/
def Obligations.ActivateResetsTheVoice : Prop :=
  ∀ s : State, ∃ t, exec .activate s = .next t ∧
    t.v = { phase := 0x00000000#32, level := 0x00000000#32, env := .idle, ic1 := 0x00000000#32, ic2 := 0x00000000#32,
            attackRate := 0x00000000#32, releaseRate := 0x00000000#32, noteFreq := 0x43DC0000#32 } ∧
    t.pend = { s.pend with note := { last := .none, onSeen := false, pitch := 0#7, offSeen := false } } ∧
    t.cfg = s.cfg ∧ t.reg = s.reg ∧ t.cmd = s.cmd ∧ t.offered = s.offered ∧ t.emitted = s.emitted ∧
    t.hostReady = s.hostReady ∧ exec .activate t = .next t ∧
    ∀ pitch vel chan, execAll [.noteOn pitch vel chan, .activate] s = .next t

/-- 46_control.md R231, R232: `NOP` and the ten reserved opcodes change no state and emit nothing. -/
def Obligations.NopAndReservedOpcodesChangeNothing : Prop :=
  ∀ s : State, exec .nop s = .next s ∧ exec .reserved6 s = .next s ∧ exec .reserved7 s = .next s ∧
    exec .reserved8 s = .next s ∧ exec .reserved9 s = .next s ∧ exec .reservedA s = .next s ∧
    exec .reservedB s = .next s ∧ exec .reservedC s = .next s ∧ exec .reservedD s = .next s ∧
    exec .reservedE s = .next s ∧ exec .reservedF s = .next s

/-- 70_reset_and_hazards.md R300: the state after power-on, for every configuration; the block then takes the first word of
CMD; `State.reset` is the power-on state of some configuration. -/
def Obligations.PowerOnState : Prop :=
  (∀ c : Cfg,
    (State.powerOn c).cfg = c ∧
    (State.powerOn c).reg = { gain := 0x00000000#32, freq := 0x00000000#32, fine := 0x00000000#32, res := 0x00000000#32,
                              wave := 0, attack := 0x00000000#32, release := 0x00000000#32, bypass := false } ∧
    (State.powerOn c).v = { phase := 0x00000000#32, level := 0x00000000#32, env := .idle, ic1 := 0x00000000#32,
                            ic2 := 0x00000000#32, attackRate := 0x00000000#32, releaseRate := 0x00000000#32,
                            noteFreq := 0x43DC0000#32 } ∧
    (∀ p, perPidGet (State.powerOn c).pend.pvalid p = false ∧ perPidGet (State.powerOn c).pend.pval p = 0x00000000#32) ∧
    (State.powerOn c).pend.note = { last := .none, onSeen := false, pitch := 0#7, offSeen := false } ∧
    (State.powerOn c).cmd = [] ∧ (State.powerOn c).offered = [] ∧ (State.powerOn c).emitted = []) ∧
  (∀ (c : Cfg) (w : CmdWord), step (hostSend [w] (State.powerOn c)) = exec (decodeWord w) (State.powerOn c)) ∧
  ∃ c, State.reset = State.powerOn c

/-! ## The whole machine -/

/-- 10_state.md R21, R27: the parameter registers, the level and the rates stay in [+0.0, 1.0], and the level is `+0.0`
whenever the envelope is Idle: every step keeps it. -/
def Obligations.StepKeepsTheInvariant : Prop :=
  ∀ s : State, s.Inv → ∃ t, step s = .next t ∧ t.Inv

/-- The invariant of `StepKeepsTheInvariant` holds after power-on (10_state.md R21, R25). -/
def Obligations.PowerOnMeetsTheInvariant : Prop :=
  (∀ c : Cfg, (State.powerOn c).Inv) ∧ State.reset.Inv

/-- 60_exceptions.md R260: no command and no step stops, whatever the bits and whatever the state; and no run changes the
configuration (00_scope.md R5). -/
def Obligations.NoCommandStops : Prop :=
  (∀ (w : CmdWord) (s : State), ∃ t, exec (decodeWord w) s = .next t) ∧
  ∀ (k : Nat) (s : State), ∃ t, Sys2Proof.core.run k s = .next t ∧ t.cfg = s.cfg

/-- 10_state.md R22 and 30_encoding.md R80, R81: no command but `PROCESS` writes a parameter register or emits a word; and
10_state.md R25 and 70_reset_and_hazards.md R302 (the columns that say what writes a register): none but `PROCESS` and
`ACTIVATE` writes a voice register. -/
def Obligations.OnlyProcessWritesTheBankAndEmits : Prop :=
  ∀ (i : Instr) (s : State), (∀ c n, i ≠ .process c n) →
    ∃ t, exec i s = .next t ∧ t.reg = s.reg ∧ t.offered = s.offered ∧ t.emitted = s.emitted ∧ t.cmd = s.cmd ∧
      (i ≠ .activate → t.v = s.v)

/-! ## Numerics -/

/-- 00_scope.md R12: the model's numerics record conforms, any four functions are made conforming, and every conforming
record is one of the model's, unchanged. -/
def Obligations.NumericsConformAndNothingMore : Prop :=
  Conforming numerics ∧ (∀ n : Numerics, Conforming (conform n)) ∧ ∀ n : Numerics, Conforming n → conform n = n

/-- 00_scope.md R9: on finite operands each of `+`, `-`, `×`, `÷` gives the pattern nearest to the exact result, ties to
even, with the sign of the exact result. Magnitudes are in units of 2^-149, so that every finite value is an integer. An
exact sum or difference of 0 is `+0.0`, but `-0.0` where both terms are `-0.0`. 60_exceptions.md R265: NaN and infinite
operands and zero divisors give the default results of IEEE 754; which NaN is free (DESIGN CHOICE, log entry 4). -/
def Obligations.ArithmeticIsCorrectlyRounded : Prop :=
  ∀ a b : F32,
    (f32IsFinite a = true → f32IsFinite b = true →
      (f32Int a + f32Int b ≠ 0 →
        ∃ r, fadd a b = f32Pack (decide (f32Int a + f32Int b < 0)) r ∧ NearestLow (f32Int a + f32Int b).natAbs 1 r) ∧
      (f32Int a - f32Int b ≠ 0 →
        ∃ r, fsub a b = f32Pack (decide (f32Int a - f32Int b < 0)) r ∧ NearestLow (f32Int a - f32Int b).natAbs 1 r) ∧
      (f32Int a + f32Int b = 0 → fadd a b = if a = 0x80000000#32 ∧ b = 0x80000000#32 then 0x80000000#32 else 0x00000000#32) ∧
      (f32Int a - f32Int b = 0 → fsub a b = if a = 0x80000000#32 ∧ b = 0x00000000#32 then 0x80000000#32 else 0x00000000#32) ∧
      (∃ r, fmul a b = f32Pack (f32Sign a != f32Sign b) r ∧ NearestLow (f32Mag a * f32Mag b) (2 ^ 149) r) ∧
      (f32Mag b ≠ 0 →
        ∃ r, fdiv a b = f32Pack (f32Sign a != f32Sign b) r ∧ NearestLow (f32Mag a * 2 ^ 149) (f32Mag b) r) ∧
      (f32Mag b = 0 → f32Mag a ≠ 0 → fdiv a b = f32Pack (f32Sign a != f32Sign b) 0x7F800000) ∧
      (f32Mag b = 0 → f32Mag a = 0 → f32IsNaN (fdiv a b) = true)) ∧
    (f32IsNaN a = true ∨ f32IsNaN b = true →
      f32IsNaN (fadd a b) = true ∧ f32IsNaN (fsub a b) = true ∧ f32IsNaN (fmul a b) = true ∧ f32IsNaN (fdiv a b) = true) ∧
    (f32IsInf a = true → f32IsInf b = true →
      (if f32Sign a = f32Sign b then fadd a b = a ∧ f32IsNaN (fsub a b) = true
        else f32IsNaN (fadd a b) = true ∧ fsub a b = a) ∧
      fmul a b = f32Pack (f32Sign a != f32Sign b) 0x7F800000 ∧ f32IsNaN (fdiv a b) = true) ∧
    (f32IsInf a = true → f32IsFinite b = true →
      fadd a b = a ∧ fsub a b = a ∧ fdiv a b = f32Pack (f32Sign a != f32Sign b) 0x7F800000 ∧
      (f32Mag b = 0 → f32IsNaN (fmul a b) = true) ∧
      (f32Mag b ≠ 0 → fmul a b = f32Pack (f32Sign a != f32Sign b) 0x7F800000)) ∧
    (f32IsFinite a = true → f32IsInf b = true →
      fadd a b = b ∧ fsub a b = fneg b ∧ fdiv a b = f32Pack (f32Sign a != f32Sign b) 0 ∧
      (f32Mag a = 0 → f32IsNaN (fmul a b) = true) ∧
      (f32Mag a ≠ 0 → fmul a b = f32Pack (f32Sign a != f32Sign b) 0x7F800000))

/-! ## The assembly notation -/

/-- 30_encoding.md R84: what each pseudo-instruction expands to, and the register value it leaves after the next commit. -/
def Obligations.PseudoInstructionsSetTheirRegister : Prop :=
  (asmWave ["sine".toList] = some (.paramWave 0 0x00000000#32) ∧ asmWave ["saw".toList] = some (.paramWave 0 0x3EAAAAAB#32) ∧
    asmWave ["square".toList] = some (.paramWave 0 0x3F2AAAAB#32) ∧
    asmWave ["triangle".toList] = some (.paramWave 0 0x3F800000#32) ∧
    asmBypass ["on".toList] = some (.paramBypass 0 0x3F800000#32) ∧
    asmBypass ["off".toList] = some (.paramBypass 0 0x00000000#32) ∧
    ∀ (number : List Char) (n : BitVec 32), asmField 32 number = some n → asmBlock [number] = some (.process 1#8 n)) ∧
  ∀ (c : BitVec 8) (n : BitVec 32) (s : State),
    (∃ t, execAll [.paramWave 0 0x00000000#32, .process c n] s = .next t ∧ t.reg.wave = 0) ∧
    (∃ t, execAll [.paramWave 0 0x3EAAAAAB#32, .process c n] s = .next t ∧ t.reg.wave = 1) ∧
    (∃ t, execAll [.paramWave 0 0x3F2AAAAB#32, .process c n] s = .next t ∧ t.reg.wave = 2) ∧
    (∃ t, execAll [.paramWave 0 0x3F800000#32, .process c n] s = .next t ∧ t.reg.wave = 3) ∧
    (∃ t, execAll [.paramBypass 0 0x3F800000#32, .process c n] s = .next t ∧ t.reg.bypass = true) ∧
    (∃ t, execAll [.paramBypass 0 0x00000000#32, .process c n] s = .next t ∧ t.reg.bypass = false)
end

