-- ==== Sys2Proof/Laws/Decode.lean ====
section
/-! SUPPORT. The formats as numbers, the fields of an encoded word, and what decoding says about a word's opcode field. -/

namespace Sys2Proof

/-- Concatenation as arithmetic (00_scope.md R7). -/
theorem append_toNat {a b : Nat} (x : BitVec a) (y : BitVec b) : (x ++ y).toNat = x.toNat * 2 ^ b + y.toNat := by
  rw [BitVec.toNat_append, ← Nat.shiftLeft_add_eq_or_of_lt y.isLt, Nat.shiftLeft_eq]

theorem field_toNat (w : CmdWord) (lo len : Nat) : (field w lo len).toNat = w.toNat / 2 ^ lo % 2 ^ len := by
  rw [field, BitVec.extractLsb'_toNat, Nat.shiftRight_eq_div_pow]

theorem formatP_toNat (pid : BitVec 4) (pos : BitVec 24) (value : F32) :
    (formatP pid pos value).toNat = ((16 + pid.toNat) * 2 ^ 24 + pos.toNat) * 2 ^ 32 + value.toNat := by
  have h : (0x1#4 ++ pid ++ pos ++ value).toNat = ((16 + pid.toNat) * 2 ^ 24 + pos.toNat) * 2 ^ 32 + value.toNat := by
    rw [append_toNat, append_toNat, append_toNat]; rfl
  exact h

theorem formatN_toNat (op : BitVec 4) (pitch vel : BitVec 7) (chan : BitVec 4) :
    (formatN op pitch vel chan).toNat =
      op.toNat * 2 ^ 60 + chan.toNat * 2 ^ 24 + vel.toNat * 2 ^ 16 + pitch.toNat := by
  have h : (op ++ 0#32 ++ chan ++ 0#1 ++ vel ++ 0#9 ++ pitch).toNat =
      op.toNat * 2 ^ 60 + chan.toNat * 2 ^ 24 + vel.toNat * 2 ^ 16 + pitch.toNat := by
    simp only [append_toNat, BitVec.toNat_ofNat]; omega
  exact h

theorem formatB_toNat (c : BitVec 8) (n : BitVec 32) :
    (formatB c n).toNat = 4 * 2 ^ 60 + c.toNat * 2 ^ 32 + n.toNat := by
  have h : (0x4#4 ++ 0#20 ++ c ++ n).toNat = 4 * 2 ^ 60 + c.toNat * 2 ^ 32 + n.toNat := by
    simp only [append_toNat, BitVec.toNat_ofNat]; omega
  exact h

theorem formatX_toNat (op : BitVec 4) : (formatX op).toNat = op.toNat * 2 ^ 60 := by
  have h : (op ++ 0#60).toNat = op.toNat * 2 ^ 60 := by
    simp only [append_toNat, BitVec.toNat_ofNat]; omega
  exact h

/-! ## The fields of an encoded word -/

@[simp] theorem fieldOp_formatP (pid : BitVec 4) (pos : BitVec 24) (value : F32) : fieldOp (formatP pid pos value) = 1#4 := by
  apply BitVec.eq_of_toNat_eq
  rw [fieldOp, field_toNat, formatP_toNat, BitVec.toNat_ofNat]; omega

@[simp] theorem fieldPid_formatP (pid : BitVec 4) (pos : BitVec 24) (value : F32) : fieldPid (formatP pid pos value) = pid := by
  apply BitVec.eq_of_toNat_eq
  rw [fieldPid, field_toNat, formatP_toNat]; omega

@[simp] theorem fieldPos_formatP (pid : BitVec 4) (pos : BitVec 24) (value : F32) : fieldPos (formatP pid pos value) = pos := by
  apply BitVec.eq_of_toNat_eq
  rw [fieldPos, field_toNat, formatP_toNat]; omega

@[simp] theorem fieldValue_formatP (pid : BitVec 4) (pos : BitVec 24) (value : F32) :
    fieldValue (formatP pid pos value) = value := by
  apply BitVec.eq_of_toNat_eq
  rw [fieldValue, field_toNat, formatP_toNat]; omega

@[simp] theorem fieldOp_formatN (op : BitVec 4) (pitch vel : BitVec 7) (chan : BitVec 4) :
    fieldOp (formatN op pitch vel chan) = op := by
  apply BitVec.eq_of_toNat_eq
  rw [fieldOp, field_toNat, formatN_toNat]; omega

@[simp] theorem fieldPitch_formatN (op : BitVec 4) (pitch vel : BitVec 7) (chan : BitVec 4) :
    fieldPitch (formatN op pitch vel chan) = pitch := by
  apply BitVec.eq_of_toNat_eq
  rw [fieldPitch, field_toNat, formatN_toNat]; omega

@[simp] theorem fieldVel_formatN (op : BitVec 4) (pitch vel : BitVec 7) (chan : BitVec 4) :
    fieldVel (formatN op pitch vel chan) = vel := by
  apply BitVec.eq_of_toNat_eq
  rw [fieldVel, field_toNat, formatN_toNat]; omega

@[simp] theorem fieldChan_formatN (op : BitVec 4) (pitch vel : BitVec 7) (chan : BitVec 4) :
    fieldChan (formatN op pitch vel chan) = chan := by
  apply BitVec.eq_of_toNat_eq
  rw [fieldChan, field_toNat, formatN_toNat]; omega

@[simp] theorem fieldOp_formatB (c : BitVec 8) (n : BitVec 32) : fieldOp (formatB c n) = 4#4 := by
  apply BitVec.eq_of_toNat_eq
  rw [fieldOp, field_toNat, formatB_toNat, BitVec.toNat_ofNat]; omega

@[simp] theorem fieldC_formatB (c : BitVec 8) (n : BitVec 32) : fieldC (formatB c n) = c := by
  apply BitVec.eq_of_toNat_eq
  rw [fieldC, field_toNat, formatB_toNat]; omega

@[simp] theorem fieldN_formatB (c : BitVec 8) (n : BitVec 32) : fieldN (formatB c n) = n := by
  apply BitVec.eq_of_toNat_eq
  rw [fieldN, field_toNat, formatB_toNat]; omega

@[simp] theorem fieldOp_formatX (op : BitVec 4) : fieldOp (formatX op) = op := by
  apply BitVec.eq_of_toNat_eq
  rw [fieldOp, field_toNat, formatX_toNat]; omega

/-! ## The rows of the opcode table -/

/-- Masking with the high bits from `k` up clears the low `k` bits. -/
theorem and_highMask (w : CmdWord) (k : Nat) :
    (w &&& (BitVec.allOnes 64 <<< k)).toNat = w.toNat / 2 ^ k * 2 ^ k := by
  have h : w &&& (BitVec.allOnes 64 <<< k) = (w >>> k) <<< k := by
    ext i hi
    simp only [BitVec.getElem_and, BitVec.getElem_shiftLeft, BitVec.getElem_allOnes]
    by_cases hk : i < k
    · simp [hk]
    · simp only [hk, decide_false, Bool.not_false, Bool.true_and, Bool.and_true]
      have : k + (i - k) = i := by omega
      rw [BitVec.getElem_ushiftRight, this, BitVec.getLsbD_eq_getElem hi]
  rw [h, BitVec.toNat_shiftLeft, BitVec.toNat_ushiftRight, Nat.shiftRight_eq_div_pow, Nat.shiftLeft_eq]
  exact Nat.mod_eq_of_lt (Nat.lt_of_le_of_lt (Nat.div_mul_le_self _ _) w.isLt)

theorem and_opMask (w : CmdWord) : (w &&& 0xF000000000000000#64).toNat = w.toNat / 2 ^ 60 * 2 ^ 60 := and_highMask w 60

theorem and_pidMask (w : CmdWord) : (w &&& 0xFF00000000000000#64).toNat = w.toNat / 2 ^ 56 * 2 ^ 56 := and_highMask w 56

theorem and_reservedPidMask (w : CmdWord) : (w &&& 0xF800000000000000#64).toNat = w.toNat / 2 ^ 59 * 2 ^ 59 :=
  and_highMask w 59

/-- A row whose mask clears the low `k` bits holds of a word exactly when the bits from `k` up are the row's. -/
theorem holds_iff {m b w : CmdWord} {k : Nat} (hm : (w &&& m).toNat = w.toNat / 2 ^ k * 2 ^ k) :
    OpRow.holds ⟨m, b⟩ w = true ↔ w.toNat / 2 ^ k * 2 ^ k = b.toNat := by
  rw [OpRow.holds, beq_iff_eq, ← BitVec.toNat_inj, hm]

/-! ## Bytes -/

/-- A word is the word of its own bytes (20_memory.md R53). -/
theorem wordOfBytes_toNat (b0 b1 b2 b3 b4 b5 b6 b7 : Byte) :
    (wordOfBytes b0 b1 b2 b3 b4 b5 b6 b7).toNat =
      b0.toNat + b1.toNat * 2 ^ 8 + b2.toNat * 2 ^ 16 + b3.toNat * 2 ^ 24 + b4.toNat * 2 ^ 32 + b5.toNat * 2 ^ 40 +
        b6.toNat * 2 ^ 48 + b7.toNat * 2 ^ 56 := by
  have h : (b7 ++ b6 ++ b5 ++ b4 ++ b3 ++ b2 ++ b1 ++ b0).toNat =
      b0.toNat + b1.toNat * 2 ^ 8 + b2.toNat * 2 ^ 16 + b3.toNat * 2 ^ 24 + b4.toNat * 2 ^ 32 + b5.toNat * 2 ^ 40 +
        b6.toNat * 2 ^ 48 + b7.toNat * 2 ^ 56 := by
    simp only [append_toNat]; omega
  exact h

/-- The bytes of a 64-bit word are its digits in base 256, the lowest first (20_memory.md R53). -/
theorem bytes64_digits (w : BitVec 64) :
    ∃ b0 b1 b2 b3 b4 b5 b6 b7 : Byte, bytes64 w = [b0, b1, b2, b3, b4, b5, b6, b7] ∧
      w.toNat = b0.toNat + 2 ^ 8 * b1.toNat + 2 ^ 16 * b2.toNat + 2 ^ 24 * b3.toNat + 2 ^ 32 * b4.toNat +
        2 ^ 40 * b5.toNat + 2 ^ 48 * b6.toNat + 2 ^ 56 * b7.toNat := by
  refine ⟨_, _, _, _, _, _, _, _, rfl, ?_⟩
  have := w.isLt
  simp only [BitVec.extractLsb'_toNat, Nat.shiftRight_eq_div_pow]
  omega

/-- The bytes of a 32-bit word are its digits in base 256, the lowest first (R53). -/
theorem bytes32_digits (w : BitVec 32) :
    ∃ b0 b1 b2 b3 : Byte, bytes32 w = [b0, b1, b2, b3] ∧
      w.toNat = b0.toNat + 2 ^ 8 * b1.toNat + 2 ^ 16 * b2.toNat + 2 ^ 24 * b3.toNat := by
  refine ⟨_, _, _, _, rfl, ?_⟩
  have := w.isLt
  simp only [BitVec.extractLsb'_toNat, Nat.shiftRight_eq_div_pow]
  omega

/-- A 64-bit word taken apart into bytes and put together again (R53). -/
theorem bytes64_wordOfBytes (b0 b1 b2 b3 b4 b5 b6 b7 : Byte) :
    bytes64 (wordOfBytes b0 b1 b2 b3 b4 b5 b6 b7) = [b0, b1, b2, b3, b4, b5, b6, b7] := by
  have h := wordOfBytes_toNat b0 b1 b2 b3 b4 b5 b6 b7
  have := b0.isLt; have := b1.isLt; have := b2.isLt; have := b3.isLt
  have := b4.isLt; have := b5.isLt; have := b6.isLt; have := b7.isLt
  simp only [bytes64, List.cons.injEq, and_true]
  refine ⟨?_, ?_, ?_, ?_, ?_, ?_, ?_, ?_⟩ <;> apply BitVec.eq_of_toNat_eq <;>
    rw [BitVec.extractLsb'_toNat, Nat.shiftRight_eq_div_pow, h] <;> omega

end Sys2Proof
end

