-- ==== Sys2Proof/Laws/Float32.lean ====
section
/-! SUPPORT. What the binary32 operations of Machine/Float32.lean do: packing and unpacking, magnitudes and the rounding.
`roundLow_le_iff` says everything about the rounding; later lemmas cite it and never unfold `roundLow`. -/

namespace Sys2Proof.Machine

/-! ## Patterns -/

theorem f32Low_lt (x : F32) : f32Low x < 0x80000000 := Nat.mod_lt _ (by decide)

theorem f32Low_of_lt {x : F32} (h : x.toNat < 0x80000000) : f32Low x = x.toNat := Nat.mod_eq_of_lt h

theorem f32Pack_toNat {s : Bool} {l : Nat} (h : l < 0x80000000) :
    (f32Pack s l).toNat = if s then 0x80000000 + l else l := by
  unfold f32Pack
  rw [BitVec.toNat_ofNat]
  cases s <;> simp <;> omega

@[simp] theorem f32Pack_false_toNat {l : Nat} (h : l < 0x80000000) : (f32Pack false l).toNat = l := by
  simp [f32Pack_toNat h]

theorem f32Low_pack {s : Bool} {l : Nat} (h : l < 0x80000000) : f32Low (f32Pack s l) = l := by
  unfold f32Low
  rw [f32Pack_toNat h]
  cases s
  · simp; omega
  · simp; omega

theorem f32Sign_pack {s : Bool} {l : Nat} (h : l < 0x80000000) : f32Sign (f32Pack s l) = s := by
  unfold f32Sign
  rw [f32Pack_toNat h]
  cases s
  · simp; omega
  · simp

theorem f32Sign_of_lt {x : F32} (h : x.toNat < 0x80000000) : f32Sign x = false := by
  simp [f32Sign]; omega

/-- Two patterns with the same sign and the same bits 30:0 are equal. -/
theorem f32Pack_sign_low (x : F32) : f32Pack (f32Sign x) (f32Low x) = x := by
  apply BitVec.eq_of_toNat_eq
  rw [f32Pack_toNat (f32Low_lt x)]
  have := x.isLt
  unfold f32Sign f32Low
  split
  · simp_all; omega
  · simp_all

/-- A non-negative pattern is its own bits 30:0. -/
theorem f32Pack_toNat_self {x : F32} (h : x.toNat < 0x80000000) : f32Pack false x.toNat = x := by
  apply BitVec.eq_of_toNat_eq; simp [h]

/-! ## Magnitudes -/

/-- The magnitude of significand `k` at exponent step `e`. -/
theorem magOfLow_norm {e k : Nat} (hk : k < 0x1000000) (he : e = 0 ∨ 0x800000 ≤ k) :
    magOfLow (0x800000 * e + k) = k * 2 ^ e := by
  unfold magOfLow
  split
  · have : e = 0 := by omega
    subst this; simp
  · have h1 : (0x800000 * e + k) / 0x800000 = e + 1 := by omega
    have h2 : (0x800000 * e + k) % 0x800000 = k - 0x800000 := by omega
    rw [h1, h2]
    have : 0x800000 + (k - 0x800000) = k := by omega
    rw [this, Nat.add_sub_cancel]

/-- The magnitude after the last significand of an exponent step is that of the next step's first. -/
theorem magOfLow_carry (e : Nat) : magOfLow (0x1000000 + 0x800000 * e) = 0x1000000 * 2 ^ e := by
  have : 0x1000000 + 0x800000 * e = 0x800000 * (e + 1) + 0x800000 := by omega
  rw [this, magOfLow_norm (by decide) (Or.inr (le_refl _)), Nat.pow_succ]
  omega

/-- Every bits-30:0 value is an exponent step and a significand. -/
theorem low_decomp (l : Nat) : ∃ e k, k < 0x1000000 ∧ (e = 0 ∨ 0x800000 ≤ k) ∧ l = 0x800000 * e + k := by
  by_cases h : l < 0x800000
  · exact ⟨0, l, by omega, Or.inl rfl, by omega⟩
  · exact ⟨l / 0x800000 - 1, 0x800000 + l % 0x800000, by omega, Or.inr (by omega), by omega⟩

theorem magOfLow_succ {e k : Nat} (hk : k < 0x1000000) (he : e = 0 ∨ 0x800000 ≤ k) :
    magOfLow (0x800000 * e + k + 1) = (k + 1) * 2 ^ e := by
  rcases Nat.lt_or_ge (k + 1) 0x1000000 with h | h
  · exact magOfLow_norm h (he.imp_right fun h => by omega)
  · have h1 : k + 1 = 0x1000000 := by omega
    have h2 : 0x800000 * e + k + 1 = 0x1000000 + 0x800000 * e := by omega
    rw [h2, h1, magOfLow_carry]

theorem magOfLow_lt_succ (l : Nat) : magOfLow l < magOfLow (l + 1) := by
  obtain ⟨e, k, hk, he, rfl⟩ := low_decomp l
  rw [magOfLow_norm hk he, magOfLow_succ hk he]
  exact Nat.mul_lt_mul_of_pos_right (Nat.lt_succ_self k) (Nat.two_pow_pos e)

theorem magOfLow_strictMono : StrictMono magOfLow := strictMono_nat_of_lt_succ magOfLow_lt_succ

theorem magOfLow_le_iff {l l' : Nat} : magOfLow l ≤ magOfLow l' ↔ l ≤ l' := magOfLow_strictMono.le_iff_le

theorem magOfLow_lt_iff {l l' : Nat} : magOfLow l < magOfLow l' ↔ l < l' := magOfLow_strictMono.lt_iff_lt

@[simp] theorem magOfLow_zero : magOfLow 0 = 0 := by decide

theorem magOfLow_pos {l : Nat} (h : 0 < l) : 0 < magOfLow l := by
  simpa using magOfLow_lt_iff.2 h

/-! ## Rounding -/

/-- The exponent step and significand that `roundLow` truncates to. -/
theorem round_decomp (n d : Nat) :
    let e := Nat.log2 (n / d) - 23
    let k := n / (d * 2 ^ e)
    k < 0x1000000 ∧ (e = 0 ∨ 0x800000 ≤ k) := by
  intro e k
  have hk : k = n / d / 2 ^ e := (Nat.div_div_eq_div_mul n d (2 ^ e)).symm
  by_cases hq : n / d = 0
  · have h0 : k = 0 := by rw [hk, hq, Nat.zero_div]
    have he : e = 0 := by simp [e, hq]
    exact ⟨by omega, Or.inl he⟩
  · have hlog := Nat.lt_log2_self (n := n / d)
    have hle := Nat.log2_self_le hq
    constructor
    · rw [hk, Nat.div_lt_iff_lt_mul (Nat.two_pow_pos e)]
      refine lt_of_lt_of_le hlog ?_
      have : (0x1000000 : Nat) = 2 ^ 24 := by decide
      rw [this, ← Nat.pow_add]
      exact Nat.pow_le_pow_right (by decide) (by omega)
    · by_cases h23 : Nat.log2 (n / d) ≤ 23
      · exact Or.inl (by omega)
      · refine Or.inr ?_
        rw [hk, Nat.le_div_iff_mul_le (Nat.two_pow_pos e)]
        refine le_trans ?_ hle
        have : (0x800000 : Nat) = 2 ^ 23 := by decide
        rw [this, ← Nat.pow_add]
        exact Nat.pow_le_pow_right (by decide) (by omega)

/-- **The rounding.** The rounded value is at most `l` exactly when `n / d` is at most the midpoint of `l` and its
successor, a tie going to the even one of the two. -/
theorem roundLow_le_iff {n d l : Nat} (hd : 0 < d) (hl : l < 0x7F800000) :
    roundLow n d ≤ l ↔
      if l % 2 = 0 then 2 * n ≤ (magOfLow l + magOfLow (l + 1)) * d
      else 2 * n < (magOfLow l + magOfLow (l + 1)) * d := by
  obtain ⟨hk, he⟩ := round_decomp n d
  have hmin : ∀ a, min a 0x7F800000 ≤ l ↔ a ≤ l := fun a => by
    rw [min_le_iff]; exact or_iff_left (Nat.not_le.2 hl)
  unfold roundLow
  simp only [hmin]
  generalize hE : Nat.log2 (n / d) - 23 = e at hk he ⊢
  have hu : 0 < d * 2 ^ e := Nat.mul_pos hd (Nat.two_pow_pos e)
  have hdm := Nat.div_add_mod n (d * 2 ^ e)
  have hr := Nat.mod_lt n hu
  generalize hK : n / (d * 2 ^ e) = k at hk he hdm ⊢
  generalize hR : n % (d * 2 ^ e) = r at hdm hr ⊢
  have hM := magOfLow_norm hk he
  have hM1 := magOfLow_succ hk he
  have expand : ∀ m, m * 2 ^ e * d = d * 2 ^ e * m := fun m => by ring
  generalize hU : d * 2 ^ e = u at *
  rcases Nat.lt_trichotomy l (0x800000 * e + k) with h | h | h
  · refine iff_of_false (by split <;> omega) ?_
    have h1 : magOfLow (l + 1) ≤ k * 2 ^ e := hM ▸ magOfLow_le_iff.2 h
    have h0 := magOfLow_lt_succ l
    have h2 : (magOfLow l + magOfLow (l + 1)) * d < (k * 2 ^ e + k * 2 ^ e) * d :=
      Nat.mul_lt_mul_of_pos_right (by omega) hd
    have h3 : (k * 2 ^ e + k * 2 ^ e) * d = 2 * (u * k) := by rw [← expand k]; ring
    split <;> omega
  · subst h
    rw [hM, hM1]
    have h3 : (k * 2 ^ e + (k + 1) * 2 ^ e) * d = 2 * (u * k) + u := by
      have : (k * 2 ^ e + (k + 1) * 2 ^ e) * d = 2 * (k * 2 ^ e * d) + d * 2 ^ e := by ring
      rw [this, expand, hU]
    rw [h3]
    have hpar : (0x800000 * e + k) % 2 = k % 2 := by omega
    rw [hpar]
    split <;> split <;> omega
  · refine iff_of_true (by split <;> omega) ?_
    have h1 : (k + 1) * 2 ^ e ≤ magOfLow l := hM1 ▸ magOfLow_le_iff.2 h
    have h0 := magOfLow_lt_succ l
    have h2 : ((k + 1) * 2 ^ e + (k + 1) * 2 ^ e) * d < (magOfLow l + magOfLow (l + 1)) * d :=
      Nat.mul_lt_mul_of_pos_right (by omega) hd
    have h3 : ((k + 1) * 2 ^ e + (k + 1) * 2 ^ e) * d = 2 * (u * k) + 2 * u := by
      rw [← hU]; ring
    split <;> omega

theorem roundLow_le_inf (n d : Nat) : roundLow n d ≤ 0x7F800000 := Nat.min_le_right _ _

theorem roundLow_lt (n d : Nat) : roundLow n d < 0x80000000 :=
  Nat.lt_of_le_of_lt (roundLow_le_inf n d) (by decide)

/-- Rounding is monotone in the exact value. -/
theorem roundLow_mono {n d n' d' : Nat} (hd : 0 < d) (hd' : 0 < d') (h : n * d' ≤ n' * d) :
    roundLow n d ≤ roundLow n' d' := by
  by_contra hlt
  have hlt := Nat.lt_of_not_le hlt
  generalize hl : roundLow n' d' = l at hlt
  have hl7 : l < 0x7F800000 := Nat.lt_of_lt_of_le hlt (roundLow_le_inf n d)
  have h1 := (roundLow_le_iff hd' hl7).1 hl.le
  have h2 := mt (roundLow_le_iff hd hl7).2 (Nat.not_le.2 hlt)
  generalize magOfLow l + magOfLow (l + 1) = m at h1 h2
  split at h1 <;> simp_all only [if_true, if_false, Nat.not_le, Nat.not_lt]
  · have a : m * d * d' < 2 * n * d' := Nat.mul_lt_mul_of_pos_right h2 hd'
    have b : 2 * n' * d ≤ m * d' * d := Nat.mul_le_mul_right d h1
    nlinarith
  · have a : m * d * d' ≤ 2 * n * d' := Nat.mul_le_mul_right d' h2
    have b : 2 * n' * d < m * d' * d := Nat.mul_lt_mul_of_pos_right h1 hd
    nlinarith

/-- A representable value rounds to itself. -/
theorem roundLow_exact {l d : Nat} (hd : 0 < d) (hl : l ≤ 0x7F800000) : roundLow (magOfLow l * d) d = l := by
  apply Nat.le_antisymm
  · rcases Nat.lt_or_eq_of_le hl with h | h
    · rw [roundLow_le_iff hd h]
      have := magOfLow_lt_succ l
      have h2 : 2 * (magOfLow l * d) < (magOfLow l + magOfLow (l + 1)) * d := by
        have : (magOfLow l + magOfLow l) * d < (magOfLow l + magOfLow (l + 1)) * d :=
          Nat.mul_lt_mul_of_pos_right (by omega) hd
        linarith
      split
      · exact h2.le
      · exact h2
    · rw [h]; exact roundLow_le_inf _ _
  · rcases Nat.eq_zero_or_pos l with h | h
    · omega
    · by_contra hlt
      have hle : roundLow (magOfLow l * d) d ≤ l - 1 := by omega
      rw [roundLow_le_iff hd (by omega)] at hle
      have hs := magOfLow_lt_succ (l - 1)
      have hl1 : l - 1 + 1 = l := by omega
      rw [hl1] at hle hs
      have h2 : (magOfLow (l - 1) + magOfLow l) * d < 2 * (magOfLow l * d) := by
        have : (magOfLow (l - 1) + magOfLow l) * d < (magOfLow l + magOfLow l) * d :=
          Nat.mul_lt_mul_of_pos_right (by omega) hd
        linarith
      split at hle <;> omega

theorem roundLow_exact_one {l : Nat} (hl : l ≤ 0x7F800000) : roundLow (magOfLow l) 1 = l := by
  simpa using roundLow_exact (d := 1) (by decide) hl

/-- A value at most a representable one rounds to at most it. -/
theorem roundLow_le {n d l : Nat} (hd : 0 < d) (hl : l ≤ 0x7F800000) (h : n ≤ magOfLow l * d) : roundLow n d ≤ l := by
  rw [← roundLow_exact hd hl]
  exact roundLow_mono hd hd (Nat.mul_le_mul_right d h)

/-- A value at least a representable one rounds to at least it. -/
theorem le_roundLow {n d l : Nat} (hd : 0 < d) (hl : l ≤ 0x7F800000) (h : magOfLow l * d ≤ n) : l ≤ roundLow n d := by
  rw [← roundLow_exact hd hl]
  exact roundLow_mono hd hd (Nat.mul_le_mul_right d h)

@[simp] theorem roundLow_zero (d : Nat) : roundLow 0 d = 0 := by
  simp [roundLow, Nat.log2_zero]

/-! ## The operations on finite non-negative patterns

Such a pattern is the number of its bits, and the operations below are the exact ones followed by the rounding. -/

/-- A finite pattern whose sign bit is 0. -/
abbrev NonnegFinite (x : F32) : Prop := x.toNat < 0x7F800000

theorem f32Low_nonneg {x : F32} (h : NonnegFinite x) : f32Low x = x.toNat :=
  f32Low_of_lt (Nat.lt_trans h (by decide))

theorem f32Sign_nonneg {x : F32} (h : NonnegFinite x) : f32Sign x = false :=
  f32Sign_of_lt (Nat.lt_trans h (by decide))

theorem f32IsNaN_nonneg {x : F32} (h : NonnegFinite x) : f32IsNaN x = false := by
  rw [f32IsNaN, f32Low_nonneg h]; exact decide_eq_false (by omega)

theorem f32IsInf_nonneg {x : F32} (h : NonnegFinite x) : f32IsInf x = false := by
  rw [f32IsInf, f32Low_nonneg h]; exact decide_eq_false (by omega)

theorem f32Mag_nonneg {x : F32} (h : NonnegFinite x) : f32Mag x = magOfLow x.toNat := by
  rw [f32Mag, f32Low_nonneg h]

theorem f32Int_nonneg {x : F32} (h : NonnegFinite x) : f32Int x = (magOfLow x.toNat : Int) := by
  simp [f32Int, f32Sign_nonneg h, f32Mag_nonneg h]

theorem f32Key_nonneg {x : F32} (h : NonnegFinite x) : f32Key x = (x.toNat : Int) := by
  simp [f32Key, f32Sign_nonneg h, f32Low_nonneg h]

theorem flt_nonneg {a b : F32} (ha : NonnegFinite a) (hb : NonnegFinite b) : flt a b = decide (a.toNat < b.toNat) := by
  simp [flt, f32IsNaN_nonneg ha, f32IsNaN_nonneg hb, f32Key_nonneg ha, f32Key_nonneg hb]

theorem fle_nonneg {a b : F32} (ha : NonnegFinite a) (hb : NonnegFinite b) : fle a b = decide (a.toNat ≤ b.toNat) := by
  simp [fle, f32IsNaN_nonneg ha, f32IsNaN_nonneg hb, f32Key_nonneg ha, f32Key_nonneg hb]

theorem fadd_nonneg {a b : F32} (ha : NonnegFinite a) (hb : NonnegFinite b) :
    fadd a b = f32Pack false (roundLow (magOfLow a.toNat + magOfLow b.toNat) 1) := by
  unfold fadd faddCore
  simp only [f32IsNaN_nonneg ha, f32IsNaN_nonneg hb, f32IsInf_nonneg ha, f32IsInf_nonneg hb, Bool.or_self,
    Bool.false_eq_true, if_false, f32Int_nonneg ha, f32Int_nonneg hb, f32Sign_nonneg ha, f32Sign_nonneg hb, Bool.and_self]
  split
  · rename_i h
    have : magOfLow a.toNat + magOfLow b.toNat = 0 := by omega
    rw [this, roundLow_zero]
  · have h1 : decide ((magOfLow a.toNat : Int) + magOfLow b.toNat < 0) = false := decide_eq_false (by omega)
    have h2 : ((magOfLow a.toNat : Int) + magOfLow b.toNat).natAbs = magOfLow a.toNat + magOfLow b.toNat := by omega
    rw [h1, h2]

theorem fneg_low (x : F32) : f32Low (fneg x) = f32Low x := f32Low_pack (f32Low_lt x)

theorem fneg_sign (x : F32) : f32Sign (fneg x) = !f32Sign x := f32Sign_pack (f32Low_lt x)

/-- A difference of finite non-negative values: the sign of the exact difference, `+0` when it is 0. -/
theorem fsub_nonneg {a b : F32} (ha : NonnegFinite a) (hb : NonnegFinite b) :
    fsub a b =
      f32Pack (decide (magOfLow a.toNat < magOfLow b.toNat))
        (roundLow ((magOfLow a.toNat : Int) - magOfLow b.toNat).natAbs 1) := by
  have hni : f32IsInf (fneg b) = false := by
    rw [f32IsInf, fneg_low, f32Low_nonneg hb]; exact decide_eq_false (by omega)
  have hint : f32Int (fneg b) = -(magOfLow b.toNat : Int) := by
    simp [f32Int, fneg_sign, f32Sign_nonneg hb, f32Mag, fneg_low, f32Low_nonneg hb]
  unfold fsub faddCore
  simp only [f32IsNaN_nonneg ha, f32IsNaN_nonneg hb, f32IsInf_nonneg ha, hni, Bool.or_self, Bool.false_eq_true, if_false,
    f32Int_nonneg ha, hint, f32Sign_nonneg ha, Bool.false_and]
  have he : (magOfLow a.toNat : Int) + -(magOfLow b.toNat : Int) = (magOfLow a.toNat : Int) - magOfLow b.toNat := by omega
  rw [he]
  split
  · rename_i h
    have h1 : decide (magOfLow a.toNat < magOfLow b.toNat) = false := decide_eq_false (by omega)
    simp [h, h1]
  · have h1 : decide ((magOfLow a.toNat : Int) - magOfLow b.toNat < 0) = decide (magOfLow a.toNat < magOfLow b.toNat) :=
      decide_eq_decide.2 (by omega)
    rw [h1]

theorem fmul_nonneg {a b : F32} (ha : NonnegFinite a) (hb : NonnegFinite b) :
    fmul a b = f32Pack false (roundLow (magOfLow a.toNat * magOfLow b.toNat) (2 ^ 149)) := by
  unfold fmul
  simp only [f32IsNaN_nonneg ha, f32IsNaN_nonneg hb, f32IsInf_nonneg ha, f32IsInf_nonneg hb, Bool.or_self,
    Bool.false_eq_true, if_false, f32Sign_nonneg ha, f32Sign_nonneg hb, bne_self_eq_false, f32Mag_nonneg ha,
    f32Mag_nonneg hb]

theorem fdiv_nonneg {a b : F32} (ha : NonnegFinite a) (hb : NonnegFinite b) (h0 : b.toNat ≠ 0) :
    fdiv a b = f32Pack false (roundLow (magOfLow a.toNat * 2 ^ 149) (magOfLow b.toNat)) := by
  unfold fdiv
  simp only [f32IsNaN_nonneg ha, f32IsNaN_nonneg hb, f32IsInf_nonneg ha, f32IsInf_nonneg hb, Bool.or_self,
    Bool.false_eq_true, if_false, f32Sign_nonneg ha, f32Sign_nonneg hb, bne_self_eq_false, f32Mag_nonneg ha,
    f32Mag_nonneg hb, f32Low_nonneg hb, h0]

/-- The pattern of a non-negative result. -/
theorem pack_round_toNat (n d : Nat) : (f32Pack false (roundLow n d)).toNat = roundLow n d :=
  f32Pack_false_toNat (roundLow_lt n d)

/-! ## Special operands (60_exceptions.md R265) -/

/-- What a free NaN pattern gives is a NaN, whatever the pattern. -/
theorem f32IsNaN_f32NaN (op : FpOp) (a b : F32) : f32IsNaN (f32NaN op a b) = true := by
  unfold f32NaN
  simp only []
  have h := Nat.mod_lt (Config.nanBits op a b).toNat (show 0 < 0x800000 by decide)
  rw [f32IsNaN, f32Low_pack (by split <;> omega)]
  exact decide_eq_true (by split <;> omega)

/-- A finite pattern is no NaN and no infinity. -/
theorem f32IsFinite_not {x : F32} (h : f32IsFinite x = true) : f32IsNaN x = false ∧ f32IsInf x = false := by
  simp only [f32IsFinite, f32IsNaN, f32IsInf, decide_eq_true_eq, decide_eq_false_iff_not] at *
  omega

/-- An infinity is no NaN, and its bits 30:0 are not 0. -/
theorem f32IsInf_not {x : F32} (h : f32IsInf x = true) : f32IsNaN x = false ∧ f32Low x ≠ 0 := by
  simp only [f32IsNaN, f32IsInf, decide_eq_true_eq, decide_eq_false_iff_not] at *
  omega

/-- A magnitude is 0 exactly for the patterns of `+0.0` and `-0.0`. -/
theorem f32Mag_eq_zero {x : F32} : f32Mag x = 0 ↔ f32Low x = 0 := by
  refine ⟨fun h => ?_, fun h => by rw [f32Mag, h, magOfLow_zero]⟩
  by_contra hx
  exact absurd h (Nat.ne_of_gt (magOfLow_pos (Nat.pos_of_ne_zero hx)))

/-- The value of `-x` is the negated value. -/
theorem f32Int_fneg (x : F32) : f32Int (fneg x) = -f32Int x := by
  unfold f32Int f32Mag
  rw [fneg_sign, fneg_low]
  cases f32Sign x <;> simp

/-- A finite non-negative value times 1.0 is that value. -/
theorem fmul_f1 {x : F32} (h : NonnegFinite x) : fmul x f1 = x := by
  have h1 : magOfLow f1.toNat = 2 ^ 149 := by decide +kernel
  rw [fmul_nonneg h (by decide), h1, roundLow_exact (Nat.two_pow_pos _) (Nat.le_of_lt h)]
  exact f32Pack_toNat_self (Nat.lt_trans h (by decide))

end Sys2Proof.Machine
end

