-- ==== Sys2Proof/Laws/State.lean ====
section
/-! SUPPORT. One lemma per field and per update of the state, each true by unfolding the one update, so that no later proof unfolds a record
update; then the same for the accessors of the per-id registers and for the voice's updates. -/

namespace Sys2Proof.Machine

/-! ## `recordParam` -/

@[simp] theorem recordParam_cfg (p : Pid) (x : F32) (s : State) : (recordParam p x s).cfg = s.cfg := rfl
@[simp] theorem recordParam_reg (p : Pid) (x : F32) (s : State) : (recordParam p x s).reg = s.reg := rfl
@[simp] theorem recordParam_v (p : Pid) (x : F32) (s : State) : (recordParam p x s).v = s.v := rfl
@[simp] theorem recordParam_cmd (p : Pid) (x : F32) (s : State) : (recordParam p x s).cmd = s.cmd := rfl
@[simp] theorem recordParam_offered (p : Pid) (x : F32) (s : State) : (recordParam p x s).offered = s.offered := rfl
@[simp] theorem recordParam_emitted (p : Pid) (x : F32) (s : State) : (recordParam p x s).emitted = s.emitted := rfl
@[simp] theorem recordParam_hostReady (p : Pid) (x : F32) (s : State) : (recordParam p x s).hostReady = s.hostReady := rfl
@[simp] theorem recordParam_pend_pval (p : Pid) (x : F32) (s : State) : (recordParam p x s).pend.pval = perPidSet s.pend.pval p x := rfl
@[simp] theorem recordParam_pend_pvalid (p : Pid) (x : F32) (s : State) : (recordParam p x s).pend.pvalid = perPidSet s.pend.pvalid p true := rfl
@[simp] theorem recordParam_pend_note (p : Pid) (x : F32) (s : State) : (recordParam p x s).pend.note = s.pend.note := rfl

/-! ## `setNoteRecord` -/

@[simp] theorem setNoteRecord_cfg (r : NoteRecord) (s : State) : (setNoteRecord r s).cfg = s.cfg := rfl
@[simp] theorem setNoteRecord_reg (r : NoteRecord) (s : State) : (setNoteRecord r s).reg = s.reg := rfl
@[simp] theorem setNoteRecord_v (r : NoteRecord) (s : State) : (setNoteRecord r s).v = s.v := rfl
@[simp] theorem setNoteRecord_cmd (r : NoteRecord) (s : State) : (setNoteRecord r s).cmd = s.cmd := rfl
@[simp] theorem setNoteRecord_offered (r : NoteRecord) (s : State) : (setNoteRecord r s).offered = s.offered := rfl
@[simp] theorem setNoteRecord_emitted (r : NoteRecord) (s : State) : (setNoteRecord r s).emitted = s.emitted := rfl
@[simp] theorem setNoteRecord_hostReady (r : NoteRecord) (s : State) : (setNoteRecord r s).hostReady = s.hostReady := rfl
@[simp] theorem setNoteRecord_pend_pval (r : NoteRecord) (s : State) : (setNoteRecord r s).pend.pval = s.pend.pval := rfl
@[simp] theorem setNoteRecord_pend_pvalid (r : NoteRecord) (s : State) : (setNoteRecord r s).pend.pvalid = s.pend.pvalid := rfl
@[simp] theorem setNoteRecord_pend_note (r : NoteRecord) (s : State) : (setNoteRecord r s).pend.note = r := rfl

/-! ## `noteIntake` -/

@[simp] theorem noteIntake_cfg (num : Numerics) (s : State) : (noteIntake num s).cfg = s.cfg := rfl
@[simp] theorem noteIntake_reg (num : Numerics) (s : State) : (noteIntake num s).reg = s.reg := rfl
@[simp] theorem noteIntake_v (num : Numerics) (s : State) : (noteIntake num s).v = intakeVoice num s.cfg s.reg s.pend.note s.v := rfl
@[simp] theorem noteIntake_cmd (num : Numerics) (s : State) : (noteIntake num s).cmd = s.cmd := rfl
@[simp] theorem noteIntake_offered (num : Numerics) (s : State) : (noteIntake num s).offered = s.offered := rfl
@[simp] theorem noteIntake_emitted (num : Numerics) (s : State) : (noteIntake num s).emitted = s.emitted := rfl
@[simp] theorem noteIntake_hostReady (num : Numerics) (s : State) : (noteIntake num s).hostReady = s.hostReady := rfl
@[simp] theorem noteIntake_pend_pval (num : Numerics) (s : State) : (noteIntake num s).pend.pval = s.pend.pval := rfl
@[simp] theorem noteIntake_pend_pvalid (num : Numerics) (s : State) : (noteIntake num s).pend.pvalid = s.pend.pvalid := rfl
@[simp] theorem noteIntake_pend_note (num : Numerics) (s : State) : (noteIntake num s).pend.note = NoteRecord.empty := rfl

/-! ## `emit` -/

@[simp] theorem emit_cfg (ws : List Emission) (s : State) : (emit ws s).cfg = s.cfg := rfl
@[simp] theorem emit_reg (ws : List Emission) (s : State) : (emit ws s).reg = s.reg := rfl
@[simp] theorem emit_v (ws : List Emission) (s : State) : (emit ws s).v = s.v := rfl
@[simp] theorem emit_cmd (ws : List Emission) (s : State) : (emit ws s).cmd = s.cmd := rfl
@[simp] theorem emit_offered (ws : List Emission) (s : State) : (emit ws s).offered = s.offered ++ ws := rfl
@[simp] theorem emit_emitted (ws : List Emission) (s : State) : (emit ws s).emitted = s.emitted := rfl
@[simp] theorem emit_hostReady (ws : List Emission) (s : State) : (emit ws s).hostReady = s.hostReady := rfl
@[simp] theorem emit_pend (ws : List Emission) (s : State) : (emit ws s).pend = s.pend := rfl

/-! ## `takeOffered` -/

@[simp] theorem takeOffered_cfg (e : Emission) (rest : List Emission) (s : State) : (takeOffered e rest s).cfg = s.cfg := rfl
@[simp] theorem takeOffered_reg (e : Emission) (rest : List Emission) (s : State) : (takeOffered e rest s).reg = s.reg := rfl
@[simp] theorem takeOffered_v (e : Emission) (rest : List Emission) (s : State) : (takeOffered e rest s).v = s.v := rfl
@[simp] theorem takeOffered_cmd (e : Emission) (rest : List Emission) (s : State) : (takeOffered e rest s).cmd = s.cmd := rfl
@[simp] theorem takeOffered_offered (e : Emission) (rest : List Emission) (s : State) : (takeOffered e rest s).offered = rest := rfl
@[simp] theorem takeOffered_emitted (e : Emission) (rest : List Emission) (s : State) : (takeOffered e rest s).emitted = s.emitted ++ [e] := rfl
@[simp] theorem takeOffered_hostReady (e : Emission) (rest : List Emission) (s : State) : (takeOffered e rest s).hostReady = s.hostReady := rfl
@[simp] theorem takeOffered_pend (e : Emission) (rest : List Emission) (s : State) : (takeOffered e rest s).pend = s.pend := rfl

/-! ## `hostSend` -/

@[simp] theorem hostSend_cfg (ws : List CmdWord) (s : State) : (hostSend ws s).cfg = s.cfg := rfl
@[simp] theorem hostSend_reg (ws : List CmdWord) (s : State) : (hostSend ws s).reg = s.reg := rfl
@[simp] theorem hostSend_v (ws : List CmdWord) (s : State) : (hostSend ws s).v = s.v := rfl
@[simp] theorem hostSend_cmd (ws : List CmdWord) (s : State) : (hostSend ws s).cmd = s.cmd ++ ws := rfl
@[simp] theorem hostSend_offered (ws : List CmdWord) (s : State) : (hostSend ws s).offered = s.offered := rfl
@[simp] theorem hostSend_emitted (ws : List CmdWord) (s : State) : (hostSend ws s).emitted = s.emitted := rfl
@[simp] theorem hostSend_hostReady (ws : List CmdWord) (s : State) : (hostSend ws s).hostReady = s.hostReady := rfl
@[simp] theorem hostSend_pend (ws : List CmdWord) (s : State) : (hostSend ws s).pend = s.pend := rfl

/-! ## `hostSetReady` -/

@[simp] theorem hostSetReady_cfg (b : List Bool) (s : State) : (hostSetReady b s).cfg = s.cfg := rfl
@[simp] theorem hostSetReady_reg (b : List Bool) (s : State) : (hostSetReady b s).reg = s.reg := rfl
@[simp] theorem hostSetReady_v (b : List Bool) (s : State) : (hostSetReady b s).v = s.v := rfl
@[simp] theorem hostSetReady_cmd (b : List Bool) (s : State) : (hostSetReady b s).cmd = s.cmd := rfl
@[simp] theorem hostSetReady_offered (b : List Bool) (s : State) : (hostSetReady b s).offered = s.offered := rfl
@[simp] theorem hostSetReady_emitted (b : List Bool) (s : State) : (hostSetReady b s).emitted = s.emitted := rfl
@[simp] theorem hostSetReady_hostReady (b : List Bool) (s : State) : (hostSetReady b s).hostReady = b := rfl
@[simp] theorem hostSetReady_pend (b : List Bool) (s : State) : (hostSetReady b s).pend = s.pend := rfl

/-! ## `hostDrain` -/

@[simp] theorem hostDrain_cfg (s : State) : (hostDrain s).cfg = s.cfg := rfl
@[simp] theorem hostDrain_reg (s : State) : (hostDrain s).reg = s.reg := rfl
@[simp] theorem hostDrain_v (s : State) : (hostDrain s).v = s.v := rfl
@[simp] theorem hostDrain_cmd (s : State) : (hostDrain s).cmd = s.cmd := rfl
@[simp] theorem hostDrain_offered (s : State) : (hostDrain s).offered = [] := rfl
@[simp] theorem hostDrain_emitted (s : State) : (hostDrain s).emitted = s.emitted ++ s.offered := rfl
@[simp] theorem hostDrain_hostReady (s : State) : (hostDrain s).hostReady = s.hostReady := rfl
@[simp] theorem hostDrain_pend (s : State) : (hostDrain s).pend = s.pend := rfl

/-! ## `activateVoice` -/

@[simp] theorem activateVoice_cfg (s : State) : (activateVoice s).cfg = s.cfg := rfl
@[simp] theorem activateVoice_reg (s : State) : (activateVoice s).reg = s.reg := rfl
@[simp] theorem activateVoice_v (s : State) : (activateVoice s).v = Voice.reset := rfl
@[simp] theorem activateVoice_cmd (s : State) : (activateVoice s).cmd = s.cmd := rfl
@[simp] theorem activateVoice_offered (s : State) : (activateVoice s).offered = s.offered := rfl
@[simp] theorem activateVoice_emitted (s : State) : (activateVoice s).emitted = s.emitted := rfl
@[simp] theorem activateVoice_hostReady (s : State) : (activateVoice s).hostReady = s.hostReady := rfl
@[simp] theorem activateVoice_pend_pval (s : State) : (activateVoice s).pend.pval = s.pend.pval := rfl
@[simp] theorem activateVoice_pend_pvalid (s : State) : (activateVoice s).pend.pvalid = s.pend.pvalid := rfl
@[simp] theorem activateVoice_pend_note (s : State) : (activateVoice s).pend.note = NoteRecord.empty := rfl

/-! ## `silentBlock` -/

@[simp] theorem silentBlock_cfg (c : BitVec 8) (n : BitVec 32) (s : State) : (silentBlock c n s).cfg = s.cfg := by simp only [silentBlock, emit]
@[simp] theorem silentBlock_reg (c : BitVec 8) (n : BitVec 32) (s : State) : (silentBlock c n s).reg = s.reg := by simp only [silentBlock, emit]
@[simp] theorem silentBlock_v (c : BitVec 8) (n : BitVec 32) (s : State) : (silentBlock c n s).v = s.v := by simp only [silentBlock, emit]
@[simp] theorem silentBlock_cmd (c : BitVec 8) (n : BitVec 32) (s : State) : (silentBlock c n s).cmd = s.cmd := by simp only [silentBlock, emit]
@[simp] theorem silentBlock_offered (c : BitVec 8) (n : BitVec 32) (s : State) : (silentBlock c n s).offered = s.offered ++ (fanOut c (List.replicate n.toNat f0) ++ [.status (statusWord true c n)]) := by simp only [silentBlock, emit]
@[simp] theorem silentBlock_emitted (c : BitVec 8) (n : BitVec 32) (s : State) : (silentBlock c n s).emitted = s.emitted := by simp only [silentBlock, emit]
@[simp] theorem silentBlock_hostReady (c : BitVec 8) (n : BitVec 32) (s : State) : (silentBlock c n s).hostReady = s.hostReady := by simp only [silentBlock, emit]
@[simp] theorem silentBlock_pend (c : BitVec 8) (n : BitVec 32) (s : State) : (silentBlock c n s).pend = s.pend := by simp only [silentBlock, emit]

/-! ## `soundingBlock` -/

@[simp] theorem soundingBlock_cfg (num : Numerics) (c : BitVec 8) (n : BitVec 32) (s : State) : (soundingBlock num c n s).cfg = s.cfg := by simp only [soundingBlock, emit]
@[simp] theorem soundingBlock_reg (num : Numerics) (c : BitVec 8) (n : BitVec 32) (s : State) : (soundingBlock num c n s).reg = s.reg := by simp only [soundingBlock, emit]
@[simp] theorem soundingBlock_v (num : Numerics) (c : BitVec 8) (n : BitVec 32) (s : State) : (soundingBlock num c n s).v = (sampleLoop num s.reg (blockValues num s.cfg s.reg s.v) n.toNat s.v).1 := by simp only [soundingBlock, emit]
@[simp] theorem soundingBlock_cmd (num : Numerics) (c : BitVec 8) (n : BitVec 32) (s : State) : (soundingBlock num c n s).cmd = s.cmd := by simp only [soundingBlock, emit]
@[simp] theorem soundingBlock_emitted (num : Numerics) (c : BitVec 8) (n : BitVec 32) (s : State) : (soundingBlock num c n s).emitted = s.emitted := by simp only [soundingBlock, emit]
@[simp] theorem soundingBlock_hostReady (num : Numerics) (c : BitVec 8) (n : BitVec 32) (s : State) : (soundingBlock num c n s).hostReady = s.hostReady := by simp only [soundingBlock, emit]
@[simp] theorem soundingBlock_pend (num : Numerics) (c : BitVec 8) (n : BitVec 32) (s : State) : (soundingBlock num c n s).pend = s.pend := by simp only [soundingBlock, emit]

@[simp] theorem noEffect_eq (s : State) : noEffect s = s := rfl

/-! ## Voice updates -/

@[simp] theorem onNoteOn_phase (c : Cfg) (r : ParamBank) (v : Voice) : (onNoteOn c r v).phase = v.phase := by simp only [onNoteOn]
@[simp] theorem onNoteOn_level (c : Cfg) (r : ParamBank) (v : Voice) : (onNoteOn c r v).level = v.level := by simp only [onNoteOn]
@[simp] theorem onNoteOn_env (c : Cfg) (r : ParamBank) (v : Voice) : (onNoteOn c r v).env = .attack := by simp only [onNoteOn]
@[simp] theorem onNoteOn_ic1 (c : Cfg) (r : ParamBank) (v : Voice) : (onNoteOn c r v).ic1 = v.ic1 := by simp only [onNoteOn]
@[simp] theorem onNoteOn_ic2 (c : Cfg) (r : ParamBank) (v : Voice) : (onNoteOn c r v).ic2 = v.ic2 := by simp only [onNoteOn]
@[simp] theorem onNoteOn_attackRate (c : Cfg) (r : ParamBank) (v : Voice) : (onNoteOn c r v).attackRate = attackRateOf c r.attack := by simp only [onNoteOn]
@[simp] theorem onNoteOn_releaseRate (c : Cfg) (r : ParamBank) (v : Voice) : (onNoteOn c r v).releaseRate = v.releaseRate := by simp only [onNoteOn]
@[simp] theorem onNoteOn_noteFreq (c : Cfg) (r : ParamBank) (v : Voice) : (onNoteOn c r v).noteFreq = v.noteFreq := by simp only [onNoteOn]

@[simp] theorem onNoteOff_phase (c : Cfg) (r : ParamBank) (v : Voice) : (onNoteOff c r v).phase = v.phase := by simp only [onNoteOff]
@[simp] theorem onNoteOff_level (c : Cfg) (r : ParamBank) (v : Voice) : (onNoteOff c r v).level = v.level := by simp only [onNoteOff]
@[simp] theorem onNoteOff_env (c : Cfg) (r : ParamBank) (v : Voice) : (onNoteOff c r v).env = .release := by simp only [onNoteOff]
@[simp] theorem onNoteOff_ic1 (c : Cfg) (r : ParamBank) (v : Voice) : (onNoteOff c r v).ic1 = v.ic1 := by simp only [onNoteOff]
@[simp] theorem onNoteOff_ic2 (c : Cfg) (r : ParamBank) (v : Voice) : (onNoteOff c r v).ic2 = v.ic2 := by simp only [onNoteOff]
@[simp] theorem onNoteOff_attackRate (c : Cfg) (r : ParamBank) (v : Voice) : (onNoteOff c r v).attackRate = v.attackRate := by simp only [onNoteOff]
@[simp] theorem onNoteOff_releaseRate (c : Cfg) (r : ParamBank) (v : Voice) : (onNoteOff c r v).releaseRate = releaseRateOf c r.release v.level := by simp only [onNoteOff]
@[simp] theorem onNoteOff_noteFreq (c : Cfg) (r : ParamBank) (v : Voice) : (onNoteOff c r v).noteFreq = v.noteFreq := by simp only [onNoteOff]

@[simp] theorem advancePhase_phase (inc : F32) (v : Voice) : (advancePhase inc v).phase = nextPhase v.phase inc := by simp only [advancePhase]
@[simp] theorem advancePhase_level (inc : F32) (v : Voice) : (advancePhase inc v).level = v.level := by simp only [advancePhase]
@[simp] theorem advancePhase_env (inc : F32) (v : Voice) : (advancePhase inc v).env = v.env := by simp only [advancePhase]
@[simp] theorem advancePhase_ic1 (inc : F32) (v : Voice) : (advancePhase inc v).ic1 = v.ic1 := by simp only [advancePhase]
@[simp] theorem advancePhase_ic2 (inc : F32) (v : Voice) : (advancePhase inc v).ic2 = v.ic2 := by simp only [advancePhase]
@[simp] theorem advancePhase_attackRate (inc : F32) (v : Voice) : (advancePhase inc v).attackRate = v.attackRate := by simp only [advancePhase]
@[simp] theorem advancePhase_releaseRate (inc : F32) (v : Voice) : (advancePhase inc v).releaseRate = v.releaseRate := by simp only [advancePhase]
@[simp] theorem advancePhase_noteFreq (inc : F32) (v : Voice) : (advancePhase inc v).noteFreq = v.noteFreq := by simp only [advancePhase]

@[simp] theorem idleStep_phase (v : Voice) : (idleStep v).phase = v.phase := rfl
@[simp] theorem idleStep_level (v : Voice) : (idleStep v).level = v.level := rfl
@[simp] theorem idleStep_env (v : Voice) : (idleStep v).env = v.env := rfl
@[simp] theorem idleStep_ic1 (v : Voice) : (idleStep v).ic1 = v.ic1 := rfl
@[simp] theorem idleStep_ic2 (v : Voice) : (idleStep v).ic2 = v.ic2 := rfl
@[simp] theorem idleStep_attackRate (v : Voice) : (idleStep v).attackRate = v.attackRate := rfl
@[simp] theorem idleStep_releaseRate (v : Voice) : (idleStep v).releaseRate = v.releaseRate := rfl
@[simp] theorem idleStep_noteFreq (v : Voice) : (idleStep v).noteFreq = v.noteFreq := rfl

@[simp] theorem attackStep_phase (v : Voice) : (attackStep v).phase = v.phase := by simp only [attackStep]
@[simp] theorem attackStep_env (v : Voice) : (attackStep v).env = v.env := by simp only [attackStep]
@[simp] theorem attackStep_ic1 (v : Voice) : (attackStep v).ic1 = v.ic1 := by simp only [attackStep]
@[simp] theorem attackStep_ic2 (v : Voice) : (attackStep v).ic2 = v.ic2 := by simp only [attackStep]
@[simp] theorem attackStep_attackRate (v : Voice) : (attackStep v).attackRate = v.attackRate := by simp only [attackStep]
@[simp] theorem attackStep_releaseRate (v : Voice) : (attackStep v).releaseRate = v.releaseRate := by simp only [attackStep]
@[simp] theorem attackStep_noteFreq (v : Voice) : (attackStep v).noteFreq = v.noteFreq := by simp only [attackStep]

@[simp] theorem filterStep_phase (q : FilterCoeffs) (x : F32) (v : Voice) : (filterStep q x v).1.phase = v.phase := by simp only [filterStep]
@[simp] theorem filterStep_level (q : FilterCoeffs) (x : F32) (v : Voice) : (filterStep q x v).1.level = v.level := by simp only [filterStep]
@[simp] theorem filterStep_env (q : FilterCoeffs) (x : F32) (v : Voice) : (filterStep q x v).1.env = v.env := by simp only [filterStep]
@[simp] theorem filterStep_attackRate (q : FilterCoeffs) (x : F32) (v : Voice) : (filterStep q x v).1.attackRate = v.attackRate := by simp only [filterStep]
@[simp] theorem filterStep_releaseRate (q : FilterCoeffs) (x : F32) (v : Voice) : (filterStep q x v).1.releaseRate = v.releaseRate := by simp only [filterStep]
@[simp] theorem filterStep_noteFreq (q : FilterCoeffs) (x : F32) (v : Voice) : (filterStep q x v).1.noteFreq = v.noteFreq := by simp only [filterStep]

/-! ## Per-id registers -/

@[simp] theorem perPidGet_fill {α : Type} (x : α) (p : Pid) : perPidGet (PerPid.fill x) p = x := by cases p <;> rfl

@[simp] theorem perPidGet_set_self {α : Type} (a : PerPid α) (p : Pid) (x : α) : perPidGet (perPidSet a p x) p = x := by
  cases p <;> rfl

theorem perPidGet_set_of_ne {α : Type} (a : PerPid α) {p q : Pid} (h : q ≠ p) (x : α) :
    perPidGet (perPidSet a p x) q = perPidGet a q := by
  cases p <;> cases q <;> first | rfl | exact absurd rfl h

/-- A later write to the same id replaces an earlier one. -/
@[simp] theorem perPidSet_set {α : Type} (a : PerPid α) (p : Pid) (x y : α) :
    perPidSet (perPidSet a p x) p y = perPidSet a p y := by
  cases p <;> rfl

/-- Writes to two ids commute. -/
theorem perPidSet_comm {α : Type} (a : PerPid α) {p q : Pid} (h : p ≠ q) (x y : α) :
    perPidSet (perPidSet a p x) q y = perPidSet (perPidSet a q y) p x := by
  cases p <;> cases q <;> first | rfl | exact absurd rfl h

/-- Two files of per-id registers that read the same at every id are equal. -/
theorem PerPid.ext_get {α : Type} {a b : PerPid α} (h : ∀ p, perPidGet a p = perPidGet b p) : a = b := by
  cases a; cases b
  have h0 := h .gain; have h1 := h .freq; have h2 := h .fine; have h3 := h .res
  have h4 := h .wave; have h5 := h .attack; have h6 := h .release; have h7 := h .bypass
  simp only [perPidGet] at h0 h1 h2 h3 h4 h5 h6 h7
  subst h0 h1 h2 h3 h4 h5 h6 h7
  rfl

/-- Every `PARAM_SET` of a register records its raw value. -/
theorem execParam_eq (p : Pid) (pos : BitVec 24) (x : F32) (s : State) :
    exec (paramInstr p pos x) s = .next (recordParam p x s) := by
  cases p <;> rfl

end Sys2Proof.Machine
end

