-- ==== Sys2Proof/Laws/Ops.lean ====
section
/-! SUPPORT. What the shared operations of a block do: the commit, the note intake, the sample loop, and `PROCESS` as a
whole. Each lemma says one operation's effect once; later proofs cite it and do not unfold the operation. -/

namespace Sys2Proof.Machine

/-! ## The commit -/

/-- One turn of the commit's loop, without its conditional on the flag: clearing a clear flag changes nothing. -/
theorem commitOne_eq (s : State) (p : Pid) :
    commitOne s p =
      { s with
        reg := if perPidGet s.pend.pvalid p then writeParam s.reg p (clamp01 (perPidGet s.pend.pval p)) else s.reg
        pend := { s.pend with pvalid := perPidSet s.pend.pvalid p false } } := by
  unfold commitOne
  split
  · rfl
  · rename_i h
    have : perPidSet s.pend.pvalid p false = s.pend.pvalid := by
      apply PerPid.ext_get; intro q
      by_cases hq : q = p
      · subst hq; rw [perPidGet_set_self]; simpa using h
      · exact perPidGet_set_of_ne _ hq _
    simp [this]

/-- The parameter bank after a commit (43_parameter_intake.md R163): each register on its own. -/
def committedBank (s : State) : ParamBank :=
  { gain := if s.pend.pvalid.gain then clamp01 s.pend.pval.gain else s.reg.gain
    freq := if s.pend.pvalid.freq then clamp01 s.pend.pval.freq else s.reg.freq
    fine := if s.pend.pvalid.fine then clamp01 s.pend.pval.fine else s.reg.fine
    res := if s.pend.pvalid.res then clamp01 s.pend.pval.res else s.reg.res
    wave := if s.pend.pvalid.wave then waveIndex (clamp01 s.pend.pval.wave) else s.reg.wave
    attack := if s.pend.pvalid.attack then clamp01 s.pend.pval.attack else s.reg.attack
    release := if s.pend.pvalid.release then clamp01 s.pend.pval.release else s.reg.release
    bypass := committedBypass s }

/-- A conditional write of one register leaves the others. -/
theorem writeParam_ite (b : Bool) (r : ParamBank) (p : Pid) (x : F32) :
    (if b then writeParam r p x else r) =
      { gain := if p = .gain ∧ b then x else r.gain
        freq := if p = .freq ∧ b then x else r.freq
        fine := if p = .fine ∧ b then x else r.fine
        res := if p = .res ∧ b then x else r.res
        wave := if p = .wave ∧ b then waveIndex x else r.wave
        attack := if p = .attack ∧ b then x else r.attack
        release := if p = .release ∧ b then x else r.release
        bypass := if p = .bypass ∧ b then bypassBit x else r.bypass } := by
  cases b <;> cases p <;> rfl

/-- **The commit** (R163): every register on its own, every flag cleared, nothing else changed. -/
theorem commitParams_eq (s : State) :
    commitParams s =
      { s with reg := committedBank s, pend := { s.pend with pvalid := PerPid.fill false } } := by
  simp only [commitParams, pidsInOrder, List.foldl_cons, List.foldl_nil, commitOne_eq, writeParam_ite]
  simp [perPidGet, perPidSet, committedBank, committedBypass, PerPid.fill]

/-! ## The block's start -/

/-- The voice after steps 1 and 2 of a block. -/
def startVoice (num : Numerics) (s : State) : Voice := intakeVoice num s.cfg (committedBank s) s.pend.note s.v

/-- **Steps 1 and 2** (45_process_block.md R201, R202). -/
theorem blockStart_eq (num : Numerics) (s : State) :
    blockStart num s =
      { s with
        reg := committedBank s
        v := startVoice num s
        pend := { pvalid := PerPid.fill false, pval := s.pend.pval, note := NoteRecord.empty } } := by
  simp only [blockStart, noteIntake, commitParams_eq, startVoice]

theorem intakeVoice_phase (num : Numerics) (c : Cfg) (r : ParamBank) (k : NoteRecord) (v : Voice) :
    (intakeVoice num c r k v).phase = v.phase := by
  unfold intakeVoice intakeLast intakeOff intakeOn
  cases k.last <;> cases k.onSeen <;> cases k.offSeen <;> simp

theorem intakeVoice_level (num : Numerics) (c : Cfg) (r : ParamBank) (k : NoteRecord) (v : Voice) :
    (intakeVoice num c r k v).level = v.level := by
  unfold intakeVoice intakeLast intakeOff intakeOn
  cases k.last <;> cases k.onSeen <;> cases k.offSeen <;> simp

theorem intakeVoice_ic1 (num : Numerics) (c : Cfg) (r : ParamBank) (k : NoteRecord) (v : Voice) :
    (intakeVoice num c r k v).ic1 = v.ic1 := by
  unfold intakeVoice intakeLast intakeOff intakeOn
  cases k.last <;> cases k.onSeen <;> cases k.offSeen <;> simp

theorem intakeVoice_ic2 (num : Numerics) (c : Cfg) (r : ParamBank) (k : NoteRecord) (v : Voice) :
    (intakeVoice num c r k v).ic2 = v.ic2 := by
  unfold intakeVoice intakeLast intakeOff intakeOn
  cases k.last <;> cases k.onSeen <;> cases k.offSeen <;> simp

theorem intakeVoice_attackRate (num : Numerics) (c : Cfg) (r : ParamBank) (k : NoteRecord) (v : Voice) :
    (intakeVoice num c r k v).attackRate = if k.onSeen then attackRateOf c r.attack else v.attackRate := by
  unfold intakeVoice intakeLast intakeOff intakeOn
  cases k.last <;> cases k.onSeen <;> cases k.offSeen <;> simp

theorem intakeVoice_releaseRate (num : Numerics) (c : Cfg) (r : ParamBank) (k : NoteRecord) (v : Voice) :
    (intakeVoice num c r k v).releaseRate = if k.offSeen then releaseRateOf c r.release v.level else v.releaseRate := by
  unfold intakeVoice intakeLast intakeOff intakeOn
  cases k.last <;> cases k.onSeen <;> cases k.offSeen <;> simp

theorem intakeVoice_noteFreq (num : Numerics) (c : Cfg) (r : ParamBank) (k : NoteRecord) (v : Voice) :
    (intakeVoice num c r k v).noteFreq = if k.onSeen then noteFrequency num k.pitch else v.noteFreq := by
  unfold intakeVoice intakeLast intakeOff intakeOn
  cases k.last <;> cases k.onSeen <;> cases k.offSeen <;> simp

/-- An empty record leaves the voice (44_note_events.md R182). -/
@[simp] theorem intakeVoice_empty (num : Numerics) (c : Cfg) (r : ParamBank) (v : Voice) :
    intakeVoice num c r NoteRecord.empty v = v := rfl

/-! ## The sample loop -/

@[simp] theorem sampleLoop_zero (num : Numerics) (r : ParamBank) (b : BlockValues) (v : Voice) :
    sampleLoop num r b 0 v = (v, []) := rfl

theorem sampleLoop_succ (num : Numerics) (r : ParamBank) (b : BlockValues) (n : Nat) (v : Voice) :
    sampleLoop num r b (n + 1) v =
      ((sampleLoop num r b n (sampleStep num r b v).1).1,
        (sampleStep num r b v).2 :: (sampleLoop num r b n (sampleStep num r b v).1).2) := rfl

/-- The loop gives one value a sample. -/
@[simp] theorem sampleLoop_length (num : Numerics) (r : ParamBank) (b : BlockValues) (n : Nat) (v : Voice) :
    (sampleLoop num r b n v).2.length = n := by
  induction n generalizing v with
  | zero => rfl
  | succ n ih => simp [sampleLoop_succ, ih]

/-- What every sample keeps, the loop keeps. -/
theorem sampleLoop_keeps {num : Numerics} {r : ParamBank} {b : BlockValues} (P : Voice → Prop)
    (h : ∀ v, P v → P (sampleStep num r b v).1) (n : Nat) (v : Voice) (hv : P v) : P (sampleLoop num r b n v).1 := by
  induction n generalizing v with
  | zero => exact hv
  | succ n ih => exact ih _ (h v hv)

/-- **One sample**: the sounding path or the silent path (45_process_block.md R205 to R207). -/
theorem sampleStep_cases (num : Numerics) (r : ParamBank) (b : BlockValues) (v : Voice) :
    (fgt (envStep v).level f0 = true ∧ sampleStep num r b v = soundingSample num r b (envStep v)) ∨
    (fgt (envStep v).level f0 = false ∧ sampleStep num r b v = (envStep v, f0)) := by
  unfold sampleStep
  cases h : fgt (envStep v).level f0 <;> simp [h]

/-- The filter leaves everything but its memory. -/
theorem filterSample_frame (f : Option FilterCoeffs) (x : F32) (v : Voice) :
    (filterSample f x v).1.phase = v.phase ∧ (filterSample f x v).1.level = v.level ∧
      (filterSample f x v).1.env = v.env ∧ (filterSample f x v).1.attackRate = v.attackRate ∧
      (filterSample f x v).1.releaseRate = v.releaseRate ∧ (filterSample f x v).1.noteFreq = v.noteFreq := by
  cases f <;> simp [filterSample]

/-- A sounding sample writes the phase and the filter memory and nothing else (R206). -/
theorem soundingSample_frame (num : Numerics) (r : ParamBank) (b : BlockValues) (v : Voice) :
    (soundingSample num r b v).1.phase = nextPhase v.phase b.phaseInc ∧ (soundingSample num r b v).1.level = v.level ∧
      (soundingSample num r b v).1.env = v.env ∧ (soundingSample num r b v).1.attackRate = v.attackRate ∧
      (soundingSample num r b v).1.releaseRate = v.releaseRate ∧ (soundingSample num r b v).1.noteFreq = v.noteFreq := by
  have h := filterSample_frame b.filter (osc num v.phase r.wave.val) v
  simp [soundingSample, h]

/-- The envelope step writes the level and the state and nothing else (41_envelope.md R123 to R126). -/
theorem envStep_frame (v : Voice) :
    (envStep v).phase = v.phase ∧ (envStep v).ic1 = v.ic1 ∧ (envStep v).ic2 = v.ic2 ∧
      (envStep v).attackRate = v.attackRate ∧ (envStep v).releaseRate = v.releaseRate ∧
      (envStep v).noteFreq = v.noteFreq := by
  unfold envStep
  cases v.env
  · simp
  · simp
  · unfold releaseStep; simp only; split <;> simp

/-- A sample's level and envelope state are those of its envelope step. -/
theorem sampleStep_env (num : Numerics) (r : ParamBank) (b : BlockValues) (v : Voice) :
    (sampleStep num r b v).1.level = (envStep v).level ∧ (sampleStep num r b v).1.env = (envStep v).env ∧
      (sampleStep num r b v).1.attackRate = v.attackRate ∧ (sampleStep num r b v).1.releaseRate = v.releaseRate ∧
      (sampleStep num r b v).1.noteFreq = v.noteFreq := by
  have he := envStep_frame v
  have hs := soundingSample_frame num r b (envStep v)
  rcases sampleStep_cases num r b v with ⟨-, h⟩ | ⟨-, h⟩ <;> rw [h] <;> simp [he, hs]

/-! ## Emitted words -/

@[simp] theorem outWords_append (a b : List Emission) : outWords (a ++ b) = outWords a ++ outWords b :=
  List.filterMap_append

@[simp] theorem statusWords_append (a b : List Emission) : statusWords (a ++ b) = statusWords a ++ statusWords b :=
  List.filterMap_append

@[simp] theorem outWords_status (w : StatusWord) : outWords [.status w] = [] := rfl

@[simp] theorem statusWords_status (w : StatusWord) : statusWords [.status w] = [w] := rfl

theorem outWords_map_out (l : List OutWord) : outWords (l.map .out) = l := by
  induction l with
  | nil => rfl
  | cons a l ih => exact congrArg (a :: ·) ih

theorem statusWords_map_out (l : List OutWord) : statusWords (l.map .out) = [] := by
  induction l with
  | nil => rfl
  | cons a l ih => exact ih

/-- The fan-out is a list of OUT words (45_process_block.md R208). -/
theorem fanOut_eq_map (c : BitVec 8) (ys : List F32) :
    fanOut c ys = (ys.flatMap fun y => List.replicate c.toNat y).map .out := by
  induction ys with
  | nil => rfl
  | cons y ys ih => simp only [fanOut, List.flatMap_cons, List.map_append, List.map_replicate] at ih ⊢; rw [ih]

@[simp] theorem outWords_fanOut (c : BitVec 8) (ys : List F32) :
    outWords (fanOut c ys) = ys.flatMap fun y => List.replicate c.toNat y := by
  rw [fanOut_eq_map, outWords_map_out]

@[simp] theorem statusWords_fanOut (c : BitVec 8) (ys : List F32) : statusWords (fanOut c ys) = [] := by
  rw [fanOut_eq_map, statusWords_map_out]

theorem fanOut_length (c : BitVec 8) (ys : List F32) : (fanOut c ys).length = c.toNat * ys.length := by
  induction ys with
  | nil => rfl
  | cons y ys ih =>
    simp only [fanOut, List.flatMap_cons, List.length_append, List.length_replicate, List.length_cons] at ih ⊢
    rw [ih, Nat.mul_succ, Nat.add_comm]

/-! ## `PROCESS` -/

/-- The values of the block that a `PROCESS` in state `s` runs (R204). -/
def startValues (num : Numerics) (s : State) : BlockValues := blockValues num s.cfg (committedBank s) (startVoice num s)

/-- The sample loop of the block that a `PROCESS` of `n` samples in state `s` runs (R205). -/
def blockLoop (num : Numerics) (n : BitVec 32) (s : State) : Voice × List F32 :=
  sampleLoop num (committedBank s) (startValues num s) n.toNat (startVoice num s)

/-- **A bypassed or empty block** (R203). -/
theorem processBlock_silent {num : Numerics} {c : BitVec 8} {n : BitVec 32} {s : State}
    (h : committedBypass s = true ∨ n = 0#32) :
    processBlock num c n s =
      { s with
        reg := committedBank s
        v := startVoice num s
        pend := { pvalid := PerPid.fill false, pval := s.pend.pval, note := NoteRecord.empty }
        offered := s.offered ++ (fanOut c (List.replicate n.toNat f0) ++ [.status (statusWord true c n)]) } := by
  have hb : blockIsSilent n (blockStart num s) = true := by
    simp only [blockIsSilent, blockStart_eq, committedBank]
    rcases h with h | h <;> simp [h]
  simp only [processBlock]
  rw [if_pos hb]
  simp only [silentBlock, emit, blockStart_eq]

/-- **A block that runs its sample loop** (R204 to R210). -/
theorem processBlock_sounding {num : Numerics} {c : BitVec 8} {n : BitVec 32} {s : State}
    (h : committedBypass s = false) (hn : n ≠ 0#32) :
    processBlock num c n s =
      { s with
        reg := committedBank s
        v := (blockLoop num n s).1
        pend := { pvalid := PerPid.fill false, pval := s.pend.pval, note := NoteRecord.empty }
        offered := s.offered ++ (fanOut c (blockLoop num n s).2 ++
          [.status (statusWord (silentFlag (blockLoop num n s).1.env (blockLoop num n s).2) c n)]) } := by
  have hb : blockIsSilent n (blockStart num s) = false := by
    simp [blockIsSilent, blockStart_eq, committedBank, h, hn]
  simp only [processBlock]
  rw [if_neg (by simp [hb])]
  simp only [soundingBlock, emit, blockStart_eq, blockLoop, startValues]

/-- Every `PROCESS` is one of the two. -/
theorem processBlock_kind (n : BitVec 32) (s : State) :
    (committedBypass s = true ∨ n = 0#32) ∨ (committedBypass s = false ∧ n ≠ 0#32) := by
  cases h : committedBypass s <;> by_cases hn : n = 0#32 <;> simp [hn]

end Sys2Proof.Machine
end

