-- ==== Sys2Proof/Laws/Order.lean ====
section
/-! SUPPORT. The order of binary32 results: the rounding gives a nearest value, and on finite non-negative operands each
operation is monotone, so a bound on operands becomes a bound on the result by evaluating it at the ends. -/

namespace Sys2Proof.Machine

/-- The rounding gives a nearest pattern, the even one on a tie (00_scope.md R9). -/
theorem roundLow_nearest {n d : Nat} (hd : 0 < d) : NearestLow n d (roundLow n d) := by
  refine ⟨roundLow_le_inf n d, ?_⟩
  intro l hl
  have hri := roundLow_le_inf n d
  have below : 0 < roundLow n d →
      (roundLow n d % 2 = 0 ∧ (magOfLow (roundLow n d - 1) + magOfLow (roundLow n d)) * d ≤ 2 * n) ∨
      (magOfLow (roundLow n d - 1) + magOfLow (roundLow n d)) * d < 2 * n := by
    intro hp
    have h := mt (roundLow_le_iff (n := n) hd (l := roundLow n d - 1) (by omega)).2 (by omega)
    rw [Nat.sub_add_cancel hp] at h
    split at h
    · right; omega
    · left; omega
  have above : roundLow n d < 0x7F800000 →
      (roundLow n d % 2 = 0 ∧ 2 * n ≤ (magOfLow (roundLow n d) + magOfLow (roundLow n d + 1)) * d) ∨
      2 * n < (magOfLow (roundLow n d) + magOfLow (roundLow n d + 1)) * d := by
    intro hp
    have h := (roundLow_le_iff (n := n) hd hp).1 (le_refl _)
    split at h
    · left; omega
    · right; omega
  generalize roundLow n d = r at *
  rcases Nat.lt_trichotomy l r with h | h | h
  · have k := below (by omega)
    have h1 : magOfLow l * d ≤ magOfLow (r - 1) * d := Nat.mul_le_mul_right _ (magOfLow_le_iff.2 (by omega))
    have h2 : magOfLow (r - 1) * d < magOfLow r * d := Nat.mul_lt_mul_of_pos_right (magOfLow_lt_iff.2 (by omega)) hd
    rw [Nat.add_mul] at k
    generalize magOfLow l * d = a at *
    generalize magOfLow (r - 1) * d = b at *
    generalize magOfLow r * d = c at *
    omega
  · subst h; exact ⟨le_refl _, fun _ h => absurd rfl h⟩
  · have k := above (by omega)
    have h1 : magOfLow (r + 1) * d ≤ magOfLow l * d := Nat.mul_le_mul_right _ (magOfLow_le_iff.2 (by omega))
    have h2 : magOfLow r * d < magOfLow (r + 1) * d := Nat.mul_lt_mul_of_pos_right (magOfLow_lt_iff.2 (by omega)) hd
    rw [Nat.add_mul] at k
    generalize magOfLow l * d = a at *
    generalize magOfLow (r + 1) * d = b at *
    generalize magOfLow r * d = c at *
    omega

/-! ## Results as numbers -/

theorem fadd_toNat {a b : F32} (ha : NonnegFinite a) (hb : NonnegFinite b) :
    (fadd a b).toNat = roundLow (magOfLow a.toNat + magOfLow b.toNat) 1 := by
  rw [fadd_nonneg ha hb, pack_round_toNat]

theorem fmul_toNat {a b : F32} (ha : NonnegFinite a) (hb : NonnegFinite b) :
    (fmul a b).toNat = roundLow (magOfLow a.toNat * magOfLow b.toNat) (2 ^ 149) := by
  rw [fmul_nonneg ha hb, pack_round_toNat]

theorem fdiv_toNat {a b : F32} (ha : NonnegFinite a) (hb : NonnegFinite b) (h0 : b.toNat ≠ 0) :
    (fdiv a b).toNat = roundLow (magOfLow a.toNat * 2 ^ 149) (magOfLow b.toNat) := by
  rw [fdiv_nonneg ha hb h0, pack_round_toNat]

theorem fsub_toNat {a b : F32} (ha : NonnegFinite a) (hb : NonnegFinite b) (h : b.toNat ≤ a.toNat) :
    (fsub a b).toNat = roundLow (magOfLow a.toNat - magOfLow b.toNat) 1 := by
  have hm : magOfLow b.toNat ≤ magOfLow a.toNat := magOfLow_le_iff.2 h
  have h1 : decide (magOfLow a.toNat < magOfLow b.toNat) = false := decide_eq_false (by omega)
  have h2 : ((magOfLow a.toNat : Int) - magOfLow b.toNat).natAbs = magOfLow a.toNat - magOfLow b.toNat := by omega
  rw [fsub_nonneg ha hb, h1, h2, pack_round_toNat]

/-! ## Monotonicity -/

theorem fadd_mono {a b a' b' : F32} (ha' : NonnegFinite a') (hb' : NonnegFinite b') (h1 : a.toNat ≤ a'.toNat)
    (h2 : b.toNat ≤ b'.toNat) : (fadd a b).toNat ≤ (fadd a' b').toNat := by
  rw [fadd_toNat (Nat.lt_of_le_of_lt h1 ha') (Nat.lt_of_le_of_lt h2 hb'), fadd_toNat ha' hb']
  have := magOfLow_le_iff.2 h1
  have := magOfLow_le_iff.2 h2
  exact roundLow_mono (by decide) (by decide) (by omega)

theorem fmul_mono {a b a' b' : F32} (ha' : NonnegFinite a') (hb' : NonnegFinite b') (h1 : a.toNat ≤ a'.toNat)
    (h2 : b.toNat ≤ b'.toNat) : (fmul a b).toNat ≤ (fmul a' b').toNat := by
  rw [fmul_toNat (Nat.lt_of_le_of_lt h1 ha') (Nat.lt_of_le_of_lt h2 hb'), fmul_toNat ha' hb']
  exact roundLow_mono (Nat.two_pow_pos _) (Nat.two_pow_pos _)
    (Nat.mul_le_mul_right _ (Nat.mul_le_mul (magOfLow_le_iff.2 h1) (magOfLow_le_iff.2 h2)))

/-- A quotient rises with its dividend and falls with its divisor. -/
theorem fdiv_mono {a b a' b' : F32} (ha' : NonnegFinite a') (hb : NonnegFinite b) (h0 : b'.toNat ≠ 0)
    (h1 : a.toNat ≤ a'.toNat) (h2 : b'.toNat ≤ b.toNat) : (fdiv a b).toNat ≤ (fdiv a' b').toNat := by
  have hb' : NonnegFinite b' := Nat.lt_of_le_of_lt h2 hb
  have p' : 0 < magOfLow b'.toNat := magOfLow_pos (by omega)
  have p : 0 < magOfLow b.toNat := magOfLow_pos (by omega)
  rw [fdiv_toNat (Nat.lt_of_le_of_lt h1 ha') hb (by omega), fdiv_toNat ha' hb' h0]
  exact roundLow_mono p p' (Nat.mul_le_mul (Nat.mul_le_mul_right _ (magOfLow_le_iff.2 h1)) (magOfLow_le_iff.2 h2))

/-- A difference of ordered operands rises with the first and falls with the second. -/
theorem fsub_mono {a b a' b' : F32} (ha' : NonnegFinite a') (hb : NonnegFinite b) (h : b.toNat ≤ a.toNat)
    (h1 : a.toNat ≤ a'.toNat) (h2 : b'.toNat ≤ b.toNat) : (fsub a b).toNat ≤ (fsub a' b').toNat := by
  rw [fsub_toNat (Nat.lt_of_le_of_lt h1 ha') hb h, fsub_toNat ha' (Nat.lt_of_le_of_lt h2 hb) (by omega)]
  have := magOfLow_le_iff.2 h1
  have := magOfLow_le_iff.2 h2
  exact roundLow_mono (by decide) (by decide) (by omega)

/-! ## Values in [0, 1] -/

theorem inUnit_nonneg {x : F32} (h : InUnit x) : NonnegFinite x := Nat.lt_of_le_of_lt h (by decide)

/-- `1.0` is 2^149 units. -/
theorem magOfLow_one : magOfLow 0x3F800000 = 2 ^ 149 := by decide +kernel

/-- A factor in [0, 1] does not raise a value. -/
theorem fmul_inUnit_le {a x : F32} (ha : NonnegFinite a) (hx : InUnit x) : (fmul a x).toNat ≤ a.toNat := by
  rw [fmul_toNat ha (inUnit_nonneg hx)]
  refine roundLow_le (Nat.two_pow_pos _) (Nat.le_of_lt ha) ?_
  rw [← magOfLow_one]
  exact Nat.mul_le_mul_left _ (magOfLow_le_iff.2 hx)

/-- What the clamp gives, by the value's place (43_parameter_intake.md R164). -/
theorem clamp01_cases (x : F32) :
    (fgt x f1 = true ∧ clamp01 x = f1) ∨
    (fgt x f1 = false ∧ fgt x f0 = true ∧ clamp01 x = x ∧ InUnit x) ∨
    (fgt x f0 = false ∧ clamp01 x = f0) := by
  have k0 : f32Key f0 = 0 := by decide
  have k1 : f32Key f1 = 0x3F800000 := by decide
  have n0 : f32IsNaN f0 = false := by decide
  have n1 : f32IsNaN f1 = false := by decide
  unfold clamp01 fgt flt
  simp only [k0, k1, n0, n1, Bool.not_false, Bool.true_and]
  cases f32IsNaN x
  · simp only [Bool.not_false, Bool.true_and]
    by_cases h1 : (0x3F800000 : Int) < f32Key x
    · simp [h1]
    · by_cases h0 : (0 : Int) < f32Key x
      · have hs : f32Sign x = false := by
          by_contra hs; simp only [Bool.not_eq_false] at hs; simp only [f32Key, hs] at h0; simp at h0; omega
        have hk : f32Key x = x.toNat := by
          have : x.toNat < 0x80000000 := by simp [f32Sign] at hs; omega
          simp [f32Key, hs, f32Low_of_lt this]
        rw [hk] at h0 h1
        simp [h1, hk]
        omega
      · simp [h1, h0]
  · simp

theorem clamp01_inUnit (x : F32) : InUnit (clamp01 x) := by
  rcases clamp01_cases x with ⟨-, h⟩ | ⟨-, -, h, hx⟩ | ⟨-, h⟩
  · rw [h]; decide
  · rw [h]; exact hx
  · rw [h]; decide

/-- P3 of 00_scope.md R12: on [0, 1] `POW1000` is at most 1000.0, and not negative. -/
theorem pow1000_le {x : F32} (h : InUnit x) : (numerics.pow1000 x).toNat ≤ 0x447A0000 := by
  show (conformPow1000 Config.rawPow1000 x).toNat ≤ _
  unfold conformPow1000
  have hx : inRange f0 x f1 = true := by
    simp [inRange, fle_nonneg (show NonnegFinite f0 by decide) (inUnit_nonneg h), fle_nonneg (inUnit_nonneg h) (show NonnegFinite f1 by decide)]
    exact h
  generalize Config.rawPow1000 x = y
  split
  · decide
  split
  · decide
  split
  · decide
  · rename_i h3
    rw [hx] at h3
    simp [inRange, fle, f32Key] at h3
    have e1 : f32Sign f1 = false := by decide
    have e2 : f32Low f1 = 0x3F800000 := by decide
    have e3 : f32Sign f1000 = false := by decide
    have e4 : f32Low f1000 = 0x447A0000 := by decide
    simp [e1,e2,e3,e4] at h3
    cases hs : f32Sign y
    · simp [hs] at h3
      rw [← f32Low_of_lt (x := y) (by simp [f32Sign] at hs; omega)]; omega
    · simp [hs] at h3; omega

end Sys2Proof.Machine
end

