-- ==== Sys2Proof/Laws/PerInstr.lean ====
section
/-! SUPPORT. Statements made per command, one lemma per constructor of `Instr`. The family `OpcodeRow`: the encoded word of a
well-formed command belongs to the command's row of spec/opcode_table.json (30_encoding.md R71). -/

namespace Sys2Proof.Laws.OpcodeRow

/-- The command's word belongs to the command's row. -/
def Statement (i : Instr) : Prop := i.wellFormed = true → (tableRow i).holds (encode i) = true

theorem nop : Statement (.nop) := fun _ => by decide

theorem paramGain (pos : BitVec 24) (value : F32) : Statement (.paramGain pos value) := fun _ => by
  refine (holds_iff (and_pidMask _)).2 ?_
  simp only [encode, formatP_toNat, BitVec.toNat_ofNat]; omega

theorem paramFreq (pos : BitVec 24) (value : F32) : Statement (.paramFreq pos value) := fun _ => by
  refine (holds_iff (and_pidMask _)).2 ?_
  simp only [encode, formatP_toNat, BitVec.toNat_ofNat]; omega

theorem paramFine (pos : BitVec 24) (value : F32) : Statement (.paramFine pos value) := fun _ => by
  refine (holds_iff (and_pidMask _)).2 ?_
  simp only [encode, formatP_toNat, BitVec.toNat_ofNat]; omega

theorem paramRes (pos : BitVec 24) (value : F32) : Statement (.paramRes pos value) := fun _ => by
  refine (holds_iff (and_pidMask _)).2 ?_
  simp only [encode, formatP_toNat, BitVec.toNat_ofNat]; omega

theorem paramWave (pos : BitVec 24) (value : F32) : Statement (.paramWave pos value) := fun _ => by
  refine (holds_iff (and_pidMask _)).2 ?_
  simp only [encode, formatP_toNat, BitVec.toNat_ofNat]; omega

theorem paramAttack (pos : BitVec 24) (value : F32) : Statement (.paramAttack pos value) := fun _ => by
  refine (holds_iff (and_pidMask _)).2 ?_
  simp only [encode, formatP_toNat, BitVec.toNat_ofNat]; omega

theorem paramRelease (pos : BitVec 24) (value : F32) : Statement (.paramRelease pos value) := fun _ => by
  refine (holds_iff (and_pidMask _)).2 ?_
  simp only [encode, formatP_toNat, BitVec.toNat_ofNat]; omega

theorem paramBypass (pos : BitVec 24) (value : F32) : Statement (.paramBypass pos value) := fun _ => by
  refine (holds_iff (and_pidMask _)).2 ?_
  simp only [encode, formatP_toNat, BitVec.toNat_ofNat]; omega

theorem paramReserved (pid : BitVec 4) (pos : BitVec 24) (value : F32) : Statement (.paramReserved pid pos value) := fun h => by
  have h8 : 8 ≤ pid.toNat := of_decide_eq_true h
  refine (holds_iff (and_reservedPidMask _)).2 ?_
  simp only [encode, formatP_toNat, BitVec.toNat_ofNat]; omega

theorem noteOn (pitch vel : BitVec 7) (chan : BitVec 4) : Statement (.noteOn pitch vel chan) := fun _ => by
  refine (holds_iff (and_opMask _)).2 ?_
  simp only [encode, formatN_toNat, BitVec.toNat_ofNat]; omega

theorem noteOff (pitch vel : BitVec 7) (chan : BitVec 4) : Statement (.noteOff pitch vel chan) := fun _ => by
  refine (holds_iff (and_opMask _)).2 ?_
  simp only [encode, formatN_toNat, BitVec.toNat_ofNat]; omega

theorem process (c : BitVec 8) (n : BitVec 32) : Statement (.process c n) := fun _ => by
  refine (holds_iff (and_opMask _)).2 ?_
  simp only [encode, formatB_toNat, BitVec.toNat_ofNat]; omega

theorem activate : Statement (.activate) := fun _ => by decide

theorem reserved6 : Statement (.reserved6) := fun _ => by decide

theorem reserved7 : Statement (.reserved7) := fun _ => by decide

theorem reserved8 : Statement (.reserved8) := fun _ => by decide

theorem reserved9 : Statement (.reserved9) := fun _ => by decide

theorem reservedA : Statement (.reservedA) := fun _ => by decide

theorem reservedB : Statement (.reservedB) := fun _ => by decide

theorem reservedC : Statement (.reservedC) := fun _ => by decide

theorem reservedD : Statement (.reservedD) := fun _ => by decide

theorem reservedE : Statement (.reservedE) := fun _ => by decide

theorem reservedF : Statement (.reservedF) := fun _ => by decide

end Sys2Proof.Laws.OpcodeRow
end

