-- ==== Sys2Proof/Laws/Step.lean ====
section
/-! SUPPORT. What a command and a step can do: a command always completes, and words sent after it do not matter to it; a
step with a word offered hands it over or waits; a step with none offered takes the next command or keeps the state; and
runs of several steps or commands. -/

namespace Sys2Proof.Machine

/-! ## Runs -/

theorem machine_run_zero (M : Host.Core) (s : M.State) : M.run 0 s = .next s := by rw [Host.Core.run]

theorem machine_run_succ (M : Host.Core) (k : Nat) (s t : M.State) (h : M.step s = .next t) : M.run (k + 1) s = M.run k t := by
  rw [Host.Core.run, h]

@[simp] theorem run_zero (s : State) : Sys2Proof.core.run 0 s = .next s := machine_run_zero Sys2Proof.core s

/-- A run whose first step goes on. -/
theorem run_succ {s t : State} (k : Nat) (h : step s = .next t) : Sys2Proof.core.run (k + 1) s = Sys2Proof.core.run k t :=
  machine_run_succ Sys2Proof.core k s t h

@[simp] theorem execAll_nil (s : State) : execAll [] s = .next s := rfl

/-- A run of commands whose first one goes on. -/
theorem execAll_cons {i : Instr} {s t : State} (is : List Instr) (h : exec i s = .next t) :
    execAll (i :: is) s = execAll is t := by
  simp only [execAll, h]

/-- Commands one after the other, in two parts. -/
theorem execAll_append {is : List Instr} {s t : State} (js : List Instr) (h : execAll is s = .next t) :
    execAll (is ++ js) s = execAll js t := by
  induction is generalizing s with
  | nil => cases h; rfl
  | cons i is ih =>
    simp only [List.cons_append, execAll] at h ⊢
    cases hi : exec i s <;> rw [hi] at h
    · exact ih h
    · cases h
    · cases h

/-! ## `PROCESS` -/

/-- The words a `PROCESS` offers: a fan-out of one value a sample, then one STATUS word (45_process_block.md R208, R210). -/
theorem processBlock_offered (num : Numerics) (c : BitVec 8) (n : BitVec 32) (s : State) :
    ∃ (ys : List F32) (silent : Bool), ys.length = n.toNat ∧
      (processBlock num c n s).offered = s.offered ++ (fanOut c ys ++ [.status (statusWord silent c n)]) := by
  rcases processBlock_kind n s with h | ⟨h, hn⟩
  · rw [processBlock_silent h]; exact ⟨_, _, by simp, rfl⟩
  · rw [processBlock_sounding h hn]; exact ⟨_, _, by simp [blockLoop], rfl⟩

/-- What a `PROCESS` keeps, and what its commit leaves (R163). -/
theorem processBlock_frame (num : Numerics) (c : BitVec 8) (n : BitVec 32) (s : State) :
    (processBlock num c n s).cfg = s.cfg ∧ (processBlock num c n s).cmd = s.cmd ∧
      (processBlock num c n s).emitted = s.emitted ∧ (processBlock num c n s).hostReady = s.hostReady ∧
      (processBlock num c n s).reg = committedBank s ∧
      (processBlock num c n s).pend = ⟨PerPid.fill false, s.pend.pval, NoteRecord.empty⟩ := by
  rcases processBlock_kind n s with h | ⟨h, hn⟩
  · rw [processBlock_silent h]; simp
  · rw [processBlock_sounding h hn]; simp

/-- The words of a fan-out are as many as the channels of all samples. -/
theorem flatMap_replicate_length (k : Nat) (ys : List F32) :
    (ys.flatMap fun y => List.replicate k y).length = k * ys.length := by
  induction ys with
  | nil => rfl
  | cons y ys ih =>
    rw [List.flatMap_cons, List.length_append, ih, List.length_replicate, List.length_cons, Nat.mul_succ, Nat.add_comm]

/-! ## One command -/

/-- Every command completes, and the words behind it on CMD do not change what it does (20_memory.md R56). -/
theorem exec_next (i : Instr) (s : State) (ws : List CmdWord) :
    ∃ t, exec i s = .next t ∧ exec i { s with cmd := s.cmd ++ ws } = .next { t with cmd := t.cmd ++ ws } := by
  cases i with
  | process c n =>
    refine ⟨_, rfl, ?_⟩
    show Host.Outcome.next _ = Host.Outcome.next _
    congr 1
    rcases processBlock_kind n s with h | ⟨h, hn⟩
    · rw [processBlock_silent h, processBlock_silent (s := { s with cmd := s.cmd ++ ws }) h]; rfl
    · rw [processBlock_sounding h hn, processBlock_sounding (s := { s with cmd := s.cmd ++ ws }) h hn]; rfl
  | paramReserved pid pos v =>
    refine ⟨_, rfl, ?_⟩
    simp only [exec, execParamReserved, paramSet]
    split <;> rfl
  | _ => exact ⟨_, rfl, rfl⟩

/-- What a command other than `PROCESS` can do: it records in the intake state, or it is `ACTIVATE`, or it does nothing. -/
theorem exec_cases (i : Instr) (s : State) (hi : ∀ c n, i ≠ .process c n) :
    (∃ p, exec i s = .next { s with pend := p } ∧ i ≠ .activate) ∨ (i = .activate ∧ exec i s = .next (activateVoice s)) := by
  cases i with
  | process c n => exact absurd rfl (hi c n)
  | activate => exact .inr ⟨rfl, rfl⟩
  | paramReserved pid pos v =>
    refine .inl ?_
    simp only [exec, execParamReserved, paramSet]
    split
    · exact ⟨_, rfl, by simp⟩
    · exact ⟨s.pend, rfl, by simp⟩
  | nop => exact .inl ⟨s.pend, rfl, by simp⟩
  | reserved6 => exact .inl ⟨s.pend, rfl, by simp⟩
  | reserved7 => exact .inl ⟨s.pend, rfl, by simp⟩
  | reserved8 => exact .inl ⟨s.pend, rfl, by simp⟩
  | reserved9 => exact .inl ⟨s.pend, rfl, by simp⟩
  | reservedA => exact .inl ⟨s.pend, rfl, by simp⟩
  | reservedB => exact .inl ⟨s.pend, rfl, by simp⟩
  | reservedC => exact .inl ⟨s.pend, rfl, by simp⟩
  | reservedD => exact .inl ⟨s.pend, rfl, by simp⟩
  | reservedE => exact .inl ⟨s.pend, rfl, by simp⟩
  | reservedF => exact .inl ⟨s.pend, rfl, by simp⟩
  | _ => exact .inl ⟨_, rfl, by simp⟩

/-! ## One step -/

theorem step_offered {s : State} {e : Emission} {rest : List Emission} (h : s.offered = e :: rest) :
    step s = .next (handshake e rest s) := by
  simp only [step, h]

theorem step_command {s : State} {w : CmdWord} {later : List CmdWord} (ho : s.offered = []) (hc : s.cmd = w :: later) :
    step s = exec (decodeWord w) { s with cmd := later } := by
  simp only [step, ho, hc]

theorem step_empty {s : State} (ho : s.offered = []) (hc : s.cmd = []) : step s = .next s := by
  simp only [step, ho, hc]

/-- **The step**: it hands a word over or waits, or runs the next command, or keeps the state. -/
theorem step_cases (s : State) :
    (∃ e rest, s.offered = e :: rest ∧ step s = .next (handshake e rest s)) ∨
    (s.offered = [] ∧ ∃ w later, s.cmd = w :: later ∧ step s = exec (decodeWord w) { s with cmd := later }) ∨
    (s.offered = [] ∧ s.cmd = [] ∧ step s = .next s) := by
  by_cases ho : s.offered = []
  · by_cases hc : s.cmd = []
    · exact .inr (.inr ⟨ho, hc, step_empty ho hc⟩)
    · obtain ⟨w, later, hw⟩ := List.exists_cons_of_ne_nil hc
      exact .inr (.inl ⟨ho, w, later, hw, step_command ho hw⟩)
  · obtain ⟨e, rest, he⟩ := List.exists_cons_of_ne_nil ho
    exact .inl ⟨e, rest, he, step_offered he⟩

/-- **The handshake**: the host takes the offered word, or nothing changes but the host's readiness. -/
theorem handshake_cases (e : Emission) (rest : List Emission) (s : State) :
    (∃ later, handshake e rest s = takeOffered e rest { s with hostReady := later } ∧
      (s.hostReady = [] ∧ later = [] ∨ s.hostReady = true :: later)) ∨
    (∃ later, handshake e rest s = { s with hostReady := later } ∧ s.hostReady = false :: later) := by
  unfold handshake
  rcases h : s.hostReady with _ | ⟨b, later⟩
  · refine .inl ⟨[], ?_, .inl ⟨rfl, rfl⟩⟩
    simp [takeOffered, h]
  · cases b
    · exact .inr ⟨later, rfl, rfl⟩
    · exact .inl ⟨later, rfl, .inr rfl⟩

/-- With a host that takes every word, the offered words are handed over in as many steps (20_memory.md R52). -/
theorem run_drain (es : List Emission) (s : State) (hr : s.hostReady = []) (ho : s.offered = es) :
    Sys2Proof.core.run es.length s = .next (hostDrain s) := by
  induction es generalizing s with
  | nil =>
    have : hostDrain s = s := by cases s; cases ho; simp [hostDrain]
    simp [this]
  | cons e es ih =>
    rw [List.length_cons, run_succ _ (step_offered ho)]
    have hh : handshake e es s = takeOffered e es s := by simp [handshake, hr]
    rw [hh, ih (takeOffered e es s) hr rfl]
    simp [hostDrain, takeOffered, ho]

end Sys2Proof.Machine
end

