-- ==== Sys2Proof/Tests/Slice0.lean ====
section
/-! SUPPORT. The model's own tests. Expected values are the spec's: the words of 30_encoding.md R72 to R85, the vectors of
95_test_vectors.md (each test names its own), the values the rules state. A vector marked REF is tested with a small table
that gives the transcendental values the spec lists. The last part holds a witness for the hypotheses of every statement. -/

namespace Sys2Proof.Tests

-- One theorem after the other: each `decide +kernel` waits for the kernel, and waiting in parallel takes a thread each.
set_option Elab.async false

open Sys2Proof Sys2Proof.Machine

/-! ## Small states -/

/-- A configuration at 44100 Hz. -/
def cfg44 (mode : PitchMode) (filterEn : Bool) : Cfg := ⟨⟨0x472C4400#32, by decide⟩, mode, filterEn⟩

/-- A configuration at 100 Hz, KNOB mode, no filter. -/
def cfg100 : Cfg := ⟨⟨0x42C80000#32, by decide⟩, .knob, false⟩

/-- The power-on state with pending parameter changes. -/
def withChanges (c : Cfg) (xs : List (Pid × F32)) : State := xs.foldl (fun s x => recordParam x.1 x.2 s) (State.powerOn c)

/-- A pending `NOTE_ON`. -/
def withNoteOn (p : BitVec 7) (s : State) : State := setNoteRecord (noteRecordOn p s.pend.note) s

/-- A pending `NOTE_OFF`. -/
def withNoteOff (s : State) : State := setNoteRecord (noteRecordOff s.pend.note) s

/-- The words a step offers. -/
def offeredBy (o : Host.Outcome State Fault Refusal) : List Emission :=
  match o with
  | .next t => t.offered
  | .fault _ => []
  | .refused _ => []

/-- A fact about the state a command leaves. -/
def leaves (o : Host.Outcome State Fault Refusal) (p : State → Bool) : Bool :=
  match o with
  | .next t => p t
  | .fault _ => false
  | .refused _ => false

/-- The OUT words `ys` and the STATUS word `st`. -/
def block (ys : List OutWord) (st : StatusWord) : List Emission := ys.map .out ++ [.status st]

/-! ## Well-formedness -/

/-- The one check of `Instr.wellFormed`: the row of the reserved ids holds no id below 8. -/
theorem test_wellFormed_refuses_pid7 : (Instr.paramReserved 7#4 0#24 0#32).wellFormed = false := by decide
theorem test_wellFormed_takes_pid8 : (Instr.paramReserved 8#4 0#24 0#32).wellFormed = true := by decide

/-! ## Decoding and encoding: words written out from R72 to R75 -/

-- OP 1, PID, POS 0x000011, VALUE 0x3F000000 (R72)
theorem test_decode_param :
    decodeWord 0x100000113F000000#64 = .paramGain 0x11#24 0x3F000000#32 ∧
    decodeWord 0x110000113F000000#64 = .paramFreq 0x11#24 0x3F000000#32 ∧
    decodeWord 0x120000113F000000#64 = .paramFine 0x11#24 0x3F000000#32 ∧
    decodeWord 0x130000113F000000#64 = .paramRes 0x11#24 0x3F000000#32 ∧
    decodeWord 0x140000113F000000#64 = .paramWave 0x11#24 0x3F000000#32 ∧
    decodeWord 0x150000113F000000#64 = .paramAttack 0x11#24 0x3F000000#32 ∧
    decodeWord 0x160000113F000000#64 = .paramRelease 0x11#24 0x3F000000#32 ∧
    decodeWord 0x170000113F000000#64 = .paramBypass 0x11#24 0x3F000000#32 ∧
    decodeWord 0x180000113F000000#64 = .paramReserved 8#4 0x11#24 0x3F000000#32 ∧
    decodeWord 0x1F0000113F000000#64 = .paramReserved 15#4 0x11#24 0x3F000000#32 := by decide

-- V-ENC-2 and R85
theorem test_decode_notes :
    decodeWord 0x2FFFFFFFFFFFFFC5#64 = .noteOn 69#7 127#7 15#4 ∧
    decodeWord 0x3FFFFFFFF0FFFF80#64 = .noteOff 0#7 127#7 0#4 ∧
    decodeWord 0x200000000164003C#64 = .noteOn 60#7 100#7 1#4 ∧
    decodeWord 0x3000000000000045#64 = .noteOff 69#7 0#7 0#4 := by decide

-- V-ENC-2
theorem test_decode_process_and_control :
    decodeWord 0x4FFFFF0200000004#64 = .process 2#8 4#32 ∧
    decodeWord 0x5FFFFFFFFFFFFFFF#64 = .activate ∧
    decodeWord 0x0123456789ABCDEF#64 = .nop ∧
    decodeWord 0x6000000000000000#64 = .reserved6 ∧ decodeWord 0x7000000000000000#64 = .reserved7 ∧
    decodeWord 0x8000000000000000#64 = .reserved8 ∧ decodeWord 0x9000000000000000#64 = .reserved9 ∧
    decodeWord 0xA000000000000000#64 = .reservedA ∧ decodeWord 0xB000000000000000#64 = .reservedB ∧
    decodeWord 0xC000000000000000#64 = .reservedC ∧ decodeWord 0xD000000000000000#64 = .reservedD ∧
    decodeWord 0xE000000000000000#64 = .reservedE ∧ decodeWord 0xF000000000000000#64 = .reservedF := by decide

-- R85
theorem test_encode :
    encode .nop = 0x0000000000000000#64 ∧
    encode (.paramGain 0 0x3F800000#32) = 0x100000003F800000#64 ∧
    encode (.paramFine 17#24 0x3F000000#32) = 0x120000113F000000#64 ∧
    encode (.paramReserved 9#4 0 0x3F000000#32) = 0x190000003F000000#64 ∧
    encode (.noteOn 60#7 100#7 1#4) = 0x200000000164003C#64 ∧
    encode (.noteOff 69#7 0 0) = 0x3000000000000045#64 ∧
    encode (.process 2#8 512#32) = 0x4000000200000200#64 ∧
    encode .activate = 0x5000000000000000#64 := by decide

-- 20_memory.md R53: `w[7:0]` first; R54: a partial word is not delivered
theorem test_bytes :
    wordBytes 0x0123456789ABCDEF#64 = [0xEF#8, 0xCD#8, 0xAB#8, 0x89#8, 0x67#8, 0x45#8, 0x23#8, 0x01#8] ∧
    outBytes 0x3F800000#32 = [0x00#8, 0x00#8, 0x80#8, 0x3F#8] ∧
    statusBytes 0x80000002000000A0#64 = [0xA0#8, 0x00#8, 0x00#8, 0x00#8, 0x02#8, 0x00#8, 0x00#8, 0x80#8] ∧
    wordsOfBytes [0x45#8, 0#8, 0#8, 0#8, 0#8, 0#8, 0#8, 0x20#8, 0xAA#8] = ([0x2000000000000045#64], [0xAA#8]) ∧
    decodeTableWord 64 0x4000000200000200 = some (.process 2#8 512#32) := by decide

/-! ## The assembly notation (R83 to R85) -/

theorem test_assemble_R85 :
    (assemble ("NOP\nparam gain, 1.0\nparam freq, 0.5 ; c\nparam fine, 0.5, pos=17\nparam res, 0.99\n\nparam ATTACK, 0.05\n" ++
      "param release, 0.3\nparam 9, 0.5\nwave sine\nwave saw\nwave square\nwave triangle\nbypass on\nbypass off\n" ++
      "noteon 69\nnoteon 60, vel=100, chan=1\nnoteoff 69\nprocess 2, 512\nprocess 0, 0\nblock 4\nactivate").toList).toOption =
    some [0x0000000000000000#64, 0x100000003F800000#64, 0x110000003F000000#64, 0x120000113F000000#64,
      0x130000003F7D70A4#64, 0x150000003D4CCCCD#64, 0x160000003E99999A#64, 0x190000003F000000#64, 0x1400000000000000#64,
      0x140000003EAAAAAB#64, 0x140000003F2AAAAB#64, 0x140000003F800000#64, 0x170000003F800000#64, 0x1700000000000000#64,
      0x2000000000000045#64, 0x200000000164003C#64, 0x3000000000000045#64, 0x4000000200000200#64, 0x4000000000000000#64,
      0x4000000100000004#64, 0x5000000000000000#64] := by decide +kernel

/-! ## Arithmetic (00_scope.md R9 to R11) -/

-- R11: TWO_PI is exactly 2.0 × PI; the named constants are the values nearest to 0.001, 0.49 and 0.95
theorem test_constants :
    fmul f2 fPi = fTwoPi ∧ asmValue ['0', '.', '0', '0', '1'] = some fKMs ∧ asmValue ['0', '.', '4', '9'] = some fKNyq ∧
    asmValue ['0', '.', '9', '5'] = some fKRes ∧ asmValue ['2', '9', '9', '0'] = some f2990 := by decide +kernel

-- R10: roundHalfAway(0.5) = 1, roundHalfAway(2.5) = 3, float(p - 69) exact, comparisons with NaN false, +0 = -0
theorem test_elementary :
    roundHalfAway fHalf = 1 ∧ roundHalfAway 0x40200000#32 = 3 ∧ floatOfInt (-69) = 0xC28A0000#32 ∧
    flt 0x7FC00000#32 f1 = false ∧ fge 0x7FC00000#32 f1 = false ∧ feq f0 0x80000000#32 = true ∧
    fmin f1 f2 = f1 ∧ fmax f1 f2 = f2 ∧ fabs 0xBF800000#32 = f1 := by decide +kernel

/-! ## Operand mappings -/

-- V-INT-1
theorem test_clamp01 :
    clamp01 0x3FC00000#32 = 0x3F800000#32 ∧ clamp01 0x7F800000#32 = 0x3F800000#32 ∧ clamp01 0xFF800000#32 = 0x00000000#32 ∧
    clamp01 0x7FC00000#32 = 0x00000000#32 ∧ clamp01 0xBF800000#32 = 0x00000000#32 ∧ clamp01 0x80000000#32 = 0x00000000#32 ∧
    clamp01 0x00000001#32 = 0x00000001#32 ∧ clamp01 0x3F3AE148#32 = 0x3F3AE148#32 := by decide +kernel

-- V-INT-3
theorem test_waveIndex :
    waveIndex 0x3E2AAAAA#32 = 0 ∧ waveIndex 0x3E2AAAAB#32 = 1 ∧ waveIndex 0x3EFFFFFF#32 = 1 ∧ waveIndex 0x3F000000#32 = 2 ∧
    waveIndex 0x3F2AAAAB#32 = 2 ∧ waveIndex 0x3F555554#32 = 2 ∧ waveIndex 0x3F555555#32 = 3 ∧
    waveIndex 0x3F555556#32 = 3 ∧ waveIndex 0x3F800000#32 = 3 := by decide +kernel

-- V-INT-4
theorem test_bypassBit :
    bypassBit 0x3EFFFFFF#32 = false ∧ bypassBit 0x3F000000#32 = true ∧ bypassBit (clamp01 0x7FC00000#32) = false := by
  decide +kernel

/-! ## Oscillator, envelope, filter -/

-- V-OSC and R105: saw, square and triangle at π/2, at 1.5 × PI and just below TWO_PI
theorem test_osc :
    osc numerics 0x3FC90FDB#32 1 = 0xBF000000#32 ∧ osc numerics 0x3FC90FDB#32 2 = 0x3F800000#32 ∧
    osc numerics 0x3FC90FDB#32 3 = 0x00000000#32 ∧ osc numerics 0x3DCCCCCD#32 1 = 0xBF77D9ED#32 ∧
    osc numerics 0x3DCCCCCD#32 3 = 0x3F6FB3DA#32 ∧ normPhase 0x3DCCCCCD#32 = 0x3C826136#32 ∧
    osc numerics 0x00000000#32 0 = 0x00000000#32 := by decide +kernel

-- V-PH-1, R108
theorem test_nextPhase :
    nextPhase 0x40A0D97C#32 0x3FA0D97C#32 = 0x00000000#32 ∧ nextPhase 0x00000000#32 0x3D80634A#32 = 0x3D80634A#32 ∧
    nextPhase 0x3FA0D97C#32 0x3FA0D97C#32 = 0x4020D97C#32 ∧ nextPhase 0x4020D97C#32 0x3FA0D97C#32 = 0x4071463A#32 := by
  decide +kernel

-- R107 (NOTE mode, 440 Hz), V-NOTE-4 (KNOB mode, FREQ = 0)
theorem test_phaseIncrement :
    phaseIncrement numerics (cfg44 .note false) { ParamBank.reset with fine := 0x3F000000#32 } Voice.reset = 0x3D80634A#32 ∧
    phaseIncrement numerics (cfg44 .knob false) { ParamBank.reset with fine := 0x3F000000#32 } Voice.reset = 0x3B3ABEF7#32 := by
  decide +kernel

-- V-ENV-1
theorem test_attackRate :
    attackRateOf (cfg44 .knob false) 0x00000000#32 = 0x3CB9C277#32 ∧ attackRateOf (cfg44 .knob false) 0x3D4CCCCD#32 = 0x3BD472CD#32 ∧
    attackRateOf (cfg44 .knob false) 0x3F000000#32 = 0x38BDA620#32 ∧ attackRateOf (cfg44 .knob false) 0x3F800000#32 = 0x37BE37C6#32 ∧
    attackRateOf cfg100 0x00000000#32 = 0x3F800000#32 ∧ attackMs 0x3D4CCCCD#32 = 0x405FD70B#32 := by decide +kernel

-- V-ENV-2
theorem test_releaseRate :
    releaseRateOf (cfg44 .knob false) 0x00000000#32 0x3F800000#32 = 0x3B149B92#32 ∧
    releaseRateOf (cfg44 .knob false) 0x00000000#32 0x3E99999A#32 = 0x3A325449#32 ∧
    releaseRateOf (cfg44 .knob false) 0x3F000000#32 0x3F800000#32 = 0x37FB1CD8#32 ∧
    releaseRateOf (cfg44 .knob false) 0x3F800000#32 0x3F800000#32 = 0x36FD9FB1#32 ∧
    releaseRateOf cfg100 0x00000000#32 0x3F800000#32 = 0x3F7FFFFE#32 := by decide +kernel

-- R124 by hand, with V-ENV-2's rate at 100 Hz: 0x3F7FFFFE is 1 - 2^-23, so the first Release step leaves 2^-23 = 0x34000000
-- (the prose of V-ENV-2 and Program 3 says 0x33800000: log entry 10), and the second reaches Idle
theorem test_releaseStep :
    (releaseStep { Voice.reset with level := 0x3F800000#32, env := .release, releaseRate := 0x3F7FFFFE#32 }).level = 0x34000000#32 ∧
    releaseStep { Voice.reset with level := 0x34000000#32, env := .release, releaseRate := 0x3F7FFFFE#32 } =
      { Voice.reset with level := 0x00000000#32, env := .idle, releaseRate := 0x3F7FFFFE#32 } := by decide +kernel

-- V-FLT-1: the exact values, the damping and A1, A2 from the listed G and K
theorem test_coefficients :
    dampingOf 0x00000000#32 = 0x40000000#32 ∧ dampingOf 0x3F000000#32 = 0x3F866666#32 ∧ dampingOf 0x3F800000#32 = 0x3DCCCCD0#32 ∧
    a1Of 0x3D38AB65#32 0x3F866666#32 = 0x3F73F492#32 ∧ fmul 0x3D38AB65#32 0x3F73F492#32 = 0x3D2FFB1E#32 ∧
    cutoffHz numerics (cfg44 .knob true) 0x3F800000#32 = 0x469C4000#32 := by decide +kernel

-- V-FLT-3, samples 0 and 1
theorem test_filterStep :
    filterStep ⟨0x3F800000#32, 0x3F000000#32, 0x3ECCCCCD#32, 0x3ECCCCCD#32⟩ 0x3F800000#32 Voice.reset =
      ({ Voice.reset with ic1 := 0x3F4CCCCD#32, ic2 := 0x3F4CCCCD#32 }, 0x3ECCCCCD#32) ∧
    filterStep ⟨0x3F800000#32, 0x3F000000#32, 0x3ECCCCCD#32, 0x3ECCCCCD#32⟩ 0x3F800000#32
        { Voice.reset with ic1 := 0x3F4CCCCD#32, ic2 := 0x3F4CCCCD#32 } =
      ({ Voice.reset with ic1 := 0x3F23D70B#32, ic2 := 0x3FA3D70A#32 }, 0x3F851EB8#32) := by decide +kernel

/-! ## `PROCESS`, one block from a small state -/

-- Program 1, block 6
theorem test_process_program1 :
    offeredBy (exec (.process 1 8) (withNoteOn 69 (withChanges (cfg44 .note false)
      [(.gain, 0x3F800000#32), (.fine, 0x3F000000#32), (.wave, 0x3F2AAAAB#32), (.attack, 0#32)]))) =
    block [0x3CB9C277#32, 0x3D39C277#32, 0x3D8B51D9#32, 0x3DB9C277#32, 0x3DE83315#32, 0x3E0B51D9#32, 0x3E228A28#32, 0x3E39C277#32]
      0x0000000100000008#64 := by decide +kernel

-- Program 2, block 7: two channels, the last GAIN before the commit, the triangle
theorem test_process_program2 :
    offeredBy (exec (.process 2 3) (withNoteOn 60 (withChanges cfg100
      [(.gain, 0x3E800000#32), (.gain, 0x3F000000#32), (.fine, 0x3F000000#32), (.wave, 0x3F800000#32)]))) =
    block [0x3F000000#32, 0x3F000000#32, 0x3DCCCCD0#32, 0x3DCCCCD0#32, 0xBE99999A#32, 0xBE99999A#32]
      0x0000000200000003#64 := by decide +kernel

/-- Program 3 after its block 5, with the `NOTE_OFF` of command 6 pending. -/
def program3 : State :=
  withNoteOff { State.powerOn cfg100 with
    reg := { ParamBank.reset with gain := 0x3F800000#32, fine := 0x3F000000#32, wave := 1 }
    v := { Voice.reset with phase := 0x4020D97C#32, level := 0x3F800000#32, env := .attack, attackRate := 0x3F800000#32 } }

-- Program 3, block 7: a release that ends inside the block
theorem test_process_program3 :
    offeredBy (exec (.process 1 4) program3) =
      block [0xB2CCCCCC#32, 0x00000000#32, 0x00000000#32, 0x00000000#32] 0x0000000100000004#64 ∧
    leaves (exec (.process 1 4) program3) (fun t => decide (t.v =
      { Voice.reset with phase := 0x4071463A#32, attackRate := 0x3F800000#32, releaseRate := 0x3F7FFFFE#32 })) = true := by
  decide +kernel

/-- `POW1000(0.5)` and `TAN` at Program 4's argument as 95_test_vectors.md gives them (V-FLT-1), `EXP2(+0.0) = 1.0`. -/
def refTable : Numerics :=
  conform { sin := fun _ => 0#32, tan := fun _ => 0x3D38AB65#32, pow1000 := fun _ => 0x41FCFB72#32, exp2 := fun _ => 0x3F800000#32 }

/-- Program 4, commands 1 to 7. -/
def program4 : State :=
  withNoteOn 69 (withChanges (cfg44 .knob true)
    [(.gain, 0x3F800000#32), (.fine, 0x3F000000#32), (.freq, 0x3F000000#32), (.res, 0x3F000000#32), (.wave, 0x3EAAAAAB#32),
     (.attack, 0#32)])

-- R213 (REF for POW1000(0.5), no sine value needed): the source's end-to-end scenario, the voice and STATUS after the block
theorem test_process_R213 :
    (let s := processBlock refTable 1 160 (withNoteOn 60 (withChanges (cfg44 .knob false)
      [(.freq, 0x3F000000#32), (.fine, 0x3F000000#32), (.gain, 0x3F800000#32), (.wave, 0#32), (.attack, 0x3D4CCCCD#32)]))
     decide (s.v.phase = 0x3FECF35D#32 ∧ s.v.level = 0x3F800000#32 ∧ s.v.env = .attack ∧ s.v.attackRate = 0x3BD472CD#32 ∧
       s.offered.length = 161)) = true := by decide +kernel

-- Program 4 (REF): the filtered saw
theorem test_process_program4 :
    (processBlock refTable 1 4 program4).offered =
      block [0xBA7F644E#32, 0xBBB7F3AE#32, 0xBC592F6D#32, 0xBCBF0A77#32] 0x0000000100000004#64 ∧
    (processBlock refTable 1 4 program4).v =
      { phase := 0x3EB88B67#32, level := 0x3DB9C277#32, env := .attack, ic1 := 0xBE7D9C07#32, ic2 := 0xBE927F95#32,
        attackRate := 0x3CB9C277#32, releaseRate := 0#32, noteFreq := 0x43DC0000#32 } := by decide +kernel

-- V-PROC-1: GAIN = 0 gives -0.0 words, SILENT = 0 in Attack; V-INT-5: the commit runs in an empty block
theorem test_process_corners :
    offeredBy (exec (.process 1 3) (withNoteOn 69 (withChanges cfg100 [(.fine, 0x3F000000#32), (.wave, 0x3EAAAAAB#32)]))) =
      block [0x80000000#32, 0x80000000#32, 0x80000000#32] 0x0000000100000003#64 ∧
    offeredBy (exec (.process 1 0) (withChanges cfg100 [(.bypass, 0x3F800000#32), (.gain, 0x3F000000#32)])) =
      block [] 0x8000000100000000#64 ∧
    leaves (exec (.process 1 0) (withChanges cfg100 [(.bypass, 0x3F800000#32), (.gain, 0x3F000000#32)]))
      (fun t => t.reg.bypass && decide (t.reg.gain = 0x3F000000#32)) = true := by decide +kernel

-- V-PROC-2 block 1 (C = 0 advances the voice) and V-PROC-4 block 1 (a NOTE_ON in a bypassed block acts, the level stays 0)
theorem test_process_no_channels_and_bypass :
    offeredBy (exec (.process 0 3) (withNoteOn 69 (withChanges cfg100 [(.fine, 0x3F000000#32), (.wave, 0x3F2AAAAB#32)]))) =
      block [] 0x0000000000000003#64 ∧
    leaves (exec (.process 0 3) (withNoteOn 69 (withChanges cfg100 [(.fine, 0x3F000000#32), (.wave, 0x3F2AAAAB#32)])))
      (fun t => decide (t.v.phase = 0x4071463A#32)) = true ∧
    offeredBy (exec (.process 1 2) (withNoteOn 69 (withChanges cfg100 [(.bypass, 0x3F800000#32)]))) =
      block [0x00000000#32, 0x00000000#32] 0x8000000100000002#64 ∧
    leaves (exec (.process 1 2) (withNoteOn 69 (withChanges cfg100 [(.bypass, 0x3F800000#32)])))
      (fun t => decide (t.v.env = .attack ∧ t.v.level = 0#32)) = true := by decide +kernel

/-! ## The other commands, one step each -/

-- R160's example and V-INT-2: raw value recorded, the register untouched, PID 9 ignored
theorem test_param :
    leaves (exec (.paramGain 5 0x3E800000#32) (State.powerOn cfg100))
      (fun t => t.pend.pvalid.gain && decide (t.pend.pval.gain = 0x3E800000#32 ∧ t.reg = ParamBank.reset)) = true ∧
    leaves (exec (.paramFreq 0 0x7FC00000#32) (State.powerOn cfg100)) (fun t => decide (t.pend.pval.freq = 0x7FC00000#32)) = true ∧
    leaves (exec (.paramFine 0 0x3F000000#32) (State.powerOn cfg100)) (fun t => decide (t.pend.pval.fine = 0x3F000000#32)) = true ∧
    leaves (exec (.paramRes 0 0x3F000000#32) (State.powerOn cfg100)) (fun t => decide (t.pend.pval.res = 0x3F000000#32)) = true ∧
    leaves (exec (.paramWave 0 0x3F000000#32) (State.powerOn cfg100)) (fun t => decide (t.pend.pval.wave = 0x3F000000#32)) = true ∧
    leaves (exec (.paramAttack 0 0x3F000000#32) (State.powerOn cfg100)) (fun t => decide (t.pend.pval.attack = 0x3F000000#32)) = true ∧
    leaves (exec (.paramRelease 0 0x3F000000#32) (State.powerOn cfg100)) (fun t => decide (t.pend.pval.release = 0x3F000000#32)) = true ∧
    leaves (exec (.paramBypass 0 0x3F000000#32) (State.powerOn cfg100)) (fun t => decide (t.pend.pval.bypass = 0x3F000000#32)) = true ∧
    leaves (exec (.paramReserved 9 0 0x3F800000#32) (State.powerOn cfg100)) (fun t => decide (t = State.powerOn cfg100)) = true := by
  decide +kernel

-- R180's example and R181
theorem test_notes :
    leaves (exec (.noteOn 69 0 0) (State.powerOn cfg100))
      (fun t => decide (t.pend.note = ⟨.on, true, 69#7, false⟩ ∧ t.v = Voice.reset)) = true ∧
    leaves (exec (.noteOff 60 0 0) (withNoteOn 69 (State.powerOn cfg100)))
      (fun t => decide (t.pend.note = ⟨.off, true, 69#7, true⟩)) = true := by decide +kernel

-- R230, V-CTL-3: ACTIVATE resets the voice, discards the NOTE_ON, keeps the pending change
theorem test_activate :
    leaves (exec .activate (withNoteOn 69 (withChanges cfg100 [(.gain, 0x3F800000#32)])))
      (fun t => decide (t.pend.note = NoteRecord.empty ∧ t.pend.pval.gain = 0x3F800000#32 ∧ t.pend.pvalid.gain = true)) = true ∧
    leaves (exec .activate program3) (fun t => decide (t.v = Voice.reset ∧ t.reg = program3.reg)) = true := by decide +kernel

/-! ## The step -/

-- R52, R310: a stalled host; R56: the next command only after the offered word
theorem test_step_waits :
    leaves (step { State.powerOn cfg100 with offered := [.out 0x3F800000#32], hostReady := [false], cmd := [0x2000000000000045#64] })
      (fun t => decide (t.offered = [.out 0x3F800000#32] ∧ t.emitted = [] ∧ t.cmd = [0x2000000000000045#64] ∧ t.v = Voice.reset)) = true ∧
    leaves (step { State.powerOn cfg100 with offered := [.out 0x3F800000#32], cmd := [0x2000000000000045#64] })
      (fun t => decide (t.offered = [] ∧ t.emitted = [.out 0x3F800000#32] ∧ t.pend.note = NoteRecord.empty)) = true := by
  decide +kernel

-- R300: after power-on the block takes the first word of CMD; V-SRC-8 from reset
theorem test_step_first_command :
    leaves (step (State.withFetchWord (State.powerOn cfg100) 64 0x4000000100000004))
      (fun t => decide (t.offered = block [0#32, 0#32, 0#32, 0#32] 0x8000000100000004#64)) = true := by decide +kernel

/-! ## Witnesses: for every statement with hypotheses, a state and operands that meet them together -/

/-- A power-on state at 100 Hz with one word of each kind waiting. -/
def demo : State := { State.powerOn cfg100 with cmd := [0x4000000200000003#64, 0x2000000000000045#64] }

/-- A sounding voice. -/
def soundingVoice : Voice := { Voice.reset with level := 0x3F000000#32, env := .attack, attackRate := 0x3C000000#32, phase := 0x40C90FDA#32 }

theorem witness_DecodeOfEncodeIsTheCommand :
    (Instr.paramReserved 15#4 0xFFFFFF#24 0xFFFFFFFF#32).wellFormed = true ∧
    (Instr.paramReserved 8#4 0#24 0#32).wellFormed = true ∧ (Instr.process 255#8 0xFFFFFFFF#32).wellFormed = true := by decide

theorem witness_PartialWordIsNotDelivered :
    ([] : List Byte).length < 8 ∧ ([1#8, 2#8, 3#8, 4#8, 5#8, 6#8, 7#8] : List Byte).length < 8 := by decide

theorem witness_StepRunsTheDecodedCommand :
    demo.offered = [] ∧ demo.cmd = 0x4000000200000003#64 :: [0x2000000000000045#64] ∧
    decodeWord 0x4000000200000003#64 = .process 2#8 3#32 := by decide

theorem witness_OfferedWordIsHandedOverOrWaits :
    let s (ready : List Bool) : State := { demo with offered := [.out 0#32, .status 0#64], hostReady := ready }
    (s []).offered = .out 0#32 :: [.status 0#64] ∧ (s []).hostReady = [] ∧ (s [true, false]).hostReady = true :: [false] ∧
    (s [false]).hostReady = false :: [] := by decide

theorem witness_NoCommandsKeepTheState : (State.powerOn cfg100).offered = [] ∧ (State.powerOn cfg100).cmd = [] := by decide

theorem witness_LaterCommandsDoNotAffectAStep :
    demo.cmd ≠ [] ∧ ({ demo with offered := [.out 0#32], cmd := [] } : State).offered ≠ [] := by decide

theorem witness_BlockIsDeliveredInOrder :
    demo.offered = [] ∧ demo.hostReady = [] ∧ demo.cmd = 0x4000000200000003#64 :: [0x2000000000000045#64] ∧
    decodeWord 0x4000000200000003#64 = .process 2#8 3#32 := by decide

theorem witness_ParamSetRecordsTheRawValue : Pid.freq ≠ Pid.gain ∧ 8 ≤ (8#4).toNat ∧ 8 ≤ (15#4).toNat := by decide

theorem witness_ReservedParameterIdChangesNothing : 8 ≤ (8#4).toNat ∧ 8 ≤ (15#4).toNat := by decide

-- 1.0 + 1 ulp and +inf; the smallest subnormal and 1.0; NaN, +0.0, -0.0 and -inf
theorem witness_ClampMapsEveryPatternIntoTheUnitRange :
    fgt 0x3F800001#32 f1 = true ∧ fgt 0x7F800000#32 f1 = true ∧
    (fgt 0x00000001#32 f0 = true ∧ fle 0x00000001#32 f1 = true) ∧ (fgt 0x3F800000#32 f0 = true ∧ fle 0x3F800000#32 f1 = true) ∧
    f32IsNaN 0x7FC00000#32 = true ∧ fle 0x00000000#32 f0 = true ∧ fle 0x80000000#32 f0 = true ∧ fle 0xFF800000#32 f0 = true := by
  decide +kernel

theorem witness_WaveIndexThresholds :
    (InUnit 0x00000000#32 ∧ (0x00000000#32).toNat < 0x3E2AAAAB) ∧ (InUnit 0x3E2AAAAA#32 ∧ (0x3E2AAAAA#32).toNat < 0x3E2AAAAB) ∧
    (InUnit 0x3E2AAAAB#32 ∧ 0x3E2AAAAB ≤ (0x3E2AAAAB#32).toNat ∧ (0x3E2AAAAB#32).toNat ≤ 0x3EFFFFFF) ∧
    (InUnit 0x3EFFFFFF#32 ∧ 0x3E2AAAAB ≤ (0x3EFFFFFF#32).toNat ∧ (0x3EFFFFFF#32).toNat ≤ 0x3EFFFFFF) ∧
    (InUnit 0x3F000000#32 ∧ 0x3F000000 ≤ (0x3F000000#32).toNat ∧ (0x3F000000#32).toNat ≤ 0x3F555554) ∧
    (InUnit 0x3F555554#32 ∧ 0x3F000000 ≤ (0x3F555554#32).toNat ∧ (0x3F555554#32).toNat ≤ 0x3F555554) ∧
    (InUnit 0x3F555555#32 ∧ 0x3F555555 ≤ (0x3F555555#32).toNat) ∧ (InUnit 0x3F800000#32 ∧ 0x3F555555 ≤ (0x3F800000#32).toNat) := by
  decide +kernel

theorem witness_LastParameterWriteWins : (State.powerOn cfg100).pend.pvalid = PerPid.fill false := by decide

theorem witness_ParameterAndNoteCommandsCommute : Pid.attack ≠ Pid.release := by decide

theorem witness_NoteRecordAgreesWithArrivalOrder : (State.powerOn cfg100).pend.note = NoteRecord.empty := by decide

theorem witness_NoteIntakeAppliesTheRecord :
    committedBypass (withChanges cfg100 [(.bypass, 0x3F000000#32)]) = true ∧ (0#32) = 0#32 ∧
    (withNoteOn 60 (State.powerOn cfg100)).pend.note.last = .on ∧ (withNoteOff (State.powerOn cfg100)).pend.note.last = .off ∧
    (State.powerOn cfg100).pend.note.last = .none := by decide +kernel

theorem witness_AttackRateComesFromTheCommittedAttack : (State.powerOn cfg100).pend.note.onSeen = false := by decide

theorem witness_ReleaseRateIsCapturedAtTheIntake : (State.powerOn cfg100).pend.note.offSeen = false := by decide

theorem witness_AttackStepRisesAndSaturates :
    soundingVoice.env = .attack ∧ InUnit soundingVoice.level ∧ InUnit soundingVoice.attackRate := by decide

theorem witness_ReleaseStepFallsToIdle :
    let v : Voice := { soundingVoice with env := .release, level := 0x00000001#32, releaseRate := 0x00000000#32 }
    v.env = .release ∧ InUnit v.level ∧ InUnit v.releaseRate ∧ v.level ≠ 0x00000000#32 ∧ v.releaseRate = 0x00000000#32 := by decide

theorem witness_IdleStepWritesNothing : Voice.reset.env = .idle := by decide

theorem witness_AttackRateIsPositive :
    InUnit 0x3F800000#32 ∧ cfg100.sampleRate.bits.toNat ≤ 0x71800000 ∧ (⟨0x71800000#32, by decide⟩ : SampleRate).bits.toNat ≤ 0x71800000 := by
  decide

-- the selector's boundary, and a phase on each side of the square's step
theorem witness_WaveformCornerValues :
    4 ≤ 4 ∧ flt (fdiv 0x40490FDA#32 fTwoPi) fHalf = true ∧ flt (fdiv fPi fTwoPi) fHalf = false := by decide +kernel

theorem witness_OscillatorStaysInRange : PhaseInRange 0x00000000#32 ∧ PhaseInRange 0x40C90FDA#32 := by decide +kernel

/-- A NOTE-mode state at 44100 Hz with `FINE = 0.5`: its increment is that of R107's example. -/
def noteDemo : State := { State.powerOn (cfg44 .note false) with reg := { ParamBank.reset with fine := 0x3F000000#32 } }

theorem witness_PhaseStaysBelowTwoPi :
    (PhaseInRange 0x40C90FDA#32 ∧ fgt 0x00000001#32 f0 = true ∧ flt 0x00000001#32 fTwoPi = true) ∧
    (PhaseInRange 0x00000000#32 ∧ fgt 0x40C90FDA#32 f0 = true ∧ flt 0x40C90FDA#32 fTwoPi = true) ∧
    PhaseInRange noteDemo.v.phase ∧
    fgt (phaseIncrement numerics noteDemo.cfg (blockStart numerics noteDemo).reg (blockStart numerics noteDemo).v) f0 = true ∧
    flt (phaseIncrement numerics noteDemo.cfg (blockStart numerics noteDemo).reg (blockStart numerics noteDemo).v) fTwoPi = true := by
  decide +kernel

theorem witness_CentredFineGivesTheBaseFrequency :
    let r : ParamBank := { ParamBank.reset with fine := 0x3F000000#32 }
    r.fine = 0x3F000000#32 ∧ (cfg44 .knob true).pitchMode = .knob ∧ r.freq = 0x00000000#32 ∧
    InUnit r.freq ∧ InUnit 0x3F800000#32 ∧ (cfg44 .note true).pitchMode = .note ∧
    Voice.reset.noteFreq.toNat < 0x7F800000 ∧ (0x7F7FFFFF#32).toNat < 0x7F800000 := by decide

theorem witness_PitchModeSelectsOneFrequencySource :
    (State.powerOn (cfg44 .knob true)).cfg.pitchMode = .knob ∧ noteDemo.cfg.pitchMode = .note ∧ noteDemo.cfg.filterEn = false := by decide

theorem witness_DampingRange : InUnit 0x00000000#32 ∧ InUnit 0x3F800000#32 := by decide

theorem witness_NyquistGuardKeepsTheWarpFinite : InUnit 0x00000000#32 ∧ InUnit 0x3F800000#32 := by decide

theorem witness_NoRuleDividesByZero : InUnit 0x3F800000#32 ∧ InUnit 0x00000000#32 ∧ InUnit 0x3F000000#32 := by decide

theorem witness_MinimalVariantHasNoFilter : (State.powerOn cfg100).cfg.filterEn = false := by decide

theorem witness_PseudoInstructionsSetTheirRegister : asmField 32 ['4'] = some 4#32 ∧ asmField 32 ['0', 'x', 'f', 'f', 'f', 'f', 'f', 'f', 'f', 'f'] = some 0xFFFFFFFF#32 := by
  decide +kernel

theorem witness_ProcessEmitsSamplesThenStatus : 0 < (1#32).toNat ∧ 254 < (255#8).toNat := by decide

theorem witness_BypassedOrEmptyBlockIsSilentAndFrozen :
    committedBypass (withChanges cfg100 [(.bypass, 0x3F000000#32)]) = true ∧ (0#32) = 0#32 := by decide +kernel

theorem witness_SoundingBlockRunsTheSampleLoop :
    committedBypass (State.powerOn (cfg44 .knob true)) = false ∧ committedBypass (State.powerOn (cfg44 .note false)) = false ∧
    (1#32) ≠ 0#32 ∧ (cfg44 .knob true).pitchMode = .knob ∧ (cfg44 .knob true).filterEn = true ∧
    (cfg44 .note false).pitchMode = .note ∧ (cfg44 .note false).filterEn = false := by decide

theorem witness_SoundingSampleIsScaledAndAdvances :
    fgt (envStep soundingVoice).level f0 = true ∧ (⟨0x3D80634A#32, none⟩ : BlockValues).filter = none ∧
    (⟨0x3D80634A#32, some ⟨0x3F800000#32, 0x3F000000#32, 0x3ECCCCCD#32, 0x3ECCCCCD#32⟩⟩ : BlockValues).filter =
      some ⟨0x3F800000#32, 0x3F000000#32, 0x3ECCCCCD#32, 0x3ECCCCCD#32⟩ := by decide +kernel

theorem witness_SilentSampleTouchesNothing : fgt (envStep Voice.reset).level f0 = false := by decide +kernel

/-- The SILENT bit is 1 in a block from power-on. -/
theorem witness_SilentFlagGuaranteesZeroOutput :
    (0x8000000100000004#64).extractLsb' 63 1 = 1#1 ∧
    offeredBy (exec (.process 1 4) (State.powerOn cfg100)) = block [0#32, 0#32, 0#32, 0#32] 0x8000000100000004#64 := by
  decide +kernel

theorem witness_ChannelCountOnlyFansOut : (0#8) = 0#8 ∧ (0#32) = 0#32 := by decide

theorem witness_NoNoteOnMeansSilence :
    (State.powerOn cfg100).Inv ∧ (State.powerOn cfg100).v.level = 0x00000000#32 ∧ (State.powerOn cfg100).v.env ≠ .attack ∧
    (State.powerOn cfg100).pend.note.onSeen = false ∧ (State.powerOn cfg100).pend.note.last ≠ .on ∧
    ∀ pitch vel chan, Instr.noteOn pitch vel chan ∉ [Instr.noteOff 60 0 0, .process 1 1] := by
  refine ⟨by decide, by decide, by decide, by decide, by decide, ?_⟩
  intro pitch vel chan h
  simp at h

theorem witness_StepKeepsTheInvariant :
    (State.powerOn cfg100).Inv ∧ program3.Inv ∧ ({ demo with v := soundingVoice } : State).Inv := by decide +kernel

theorem witness_OnlyProcessWritesTheBankAndEmits : (∀ c n, Instr.nop ≠ .process c n) ∧ Instr.nop ≠ .activate := by
  refine ⟨?_, by decide⟩
  intro c n h
  cases h

/-- A conforming record that is far from the mathematical functions. -/
def flatNumerics : Numerics :=
  { sin := fun _ => f0, tan := fun _ => f1, pow1000 := fun x => if x = f1 then f1000 else f1, exp2 := fun _ => f1 }

theorem witness_NumericsConformAndNothingMore : Conforming flatNumerics := by
  refine ⟨⟨rfl, fun x _ => ?_⟩, ⟨rfl, fun x _ => ?_⟩, ⟨rfl, rfl, fun x _ => ?_⟩, fun x _ _ => ?_⟩
  · exact (by decide +kernel : inRange fNeg1 f0 f1 = true)
  · exact (by decide +kernel : f32IsFinite f1 = true ∧ fgt f1 f0 = true)
  · show inRange f1 (if x = f1 then f1000 else f1) f1000 = true
    split <;> decide +kernel
  · exact (by decide +kernel : f32IsFinite f1 = true ∧ fgt f1 f0 = true)

theorem witness_ArithmeticIsCorrectlyRounded :
    f32IsFinite 0x7F7FFFFF#32 = true ∧ f32IsFinite 0x80000001#32 = true ∧ f32Int 0x7F7FFFFF#32 + f32Int 0x80000001#32 ≠ 0 ∧
    f32Int 0x7F7FFFFF#32 - f32Int 0x80000001#32 ≠ 0 ∧ f32Mag 0x80000001#32 ≠ 0 ∧
    f32Int 0x3F800000#32 + f32Int 0xBF800000#32 = 0 ∧ f32Int 0x80000000#32 + f32Int 0x80000000#32 = 0 ∧
    f32Int 0x80000000#32 - f32Int 0x00000000#32 = 0 ∧ f32Mag 0x80000000#32 = 0 ∧ f32IsFinite 0x80000000#32 = true ∧
    f32IsNaN 0x7F800001#32 = true ∧ f32IsNaN 0xFFFFFFFF#32 = true ∧ f32IsInf 0x7F800000#32 = true ∧ f32IsInf 0xFF800000#32 = true ∧
    f32Sign 0x7F800000#32 ≠ f32Sign 0xFF800000#32 := by decide +kernel

end Sys2Proof.Tests
end

/-! PROOFS. 00_scope.md R12: the numerics record has the properties P1 to P4, and every conforming record is one the model
allows (O58). Each of the four functions repairs a value only where its property asks something of it and the value fails. -/

namespace Sys2Proof.Machine

/-! ## A repaired value -/

/-- Where the guard holds, a value repaired by one that passes the check passes it. -/
theorem ok_repair {ok : F32 → Bool} {guard : Bool} {dflt y : F32} (hd : ok dflt = true) (hg : guard = true) :
    ok (if (guard && !ok y) = true then dflt else y) = true := by
  subst hg
  cases hy : ok y with
  | true => simpa using hy
  | false => simpa using hd

/-- A value that passes the check wherever the guard holds is not repaired. -/
theorem repair_eq_self {ok guard : Bool} {dflt y : F32} (h : guard = true → ok = true) :
    (if (guard && !ok) = true then dflt else y) = y := by
  refine if_neg fun hc => ?_
  obtain ⟨hguard, hfails⟩ := (Bool.and_eq_true ..).mp hc
  rw [h hguard] at hfails
  cases hfails

/-! ## The properties of the repaired functions -/

/-- P1: a repaired `SIN` is in [-1.0, 1.0] on finite arguments. -/
theorem conformSin_inRange (f : F32 → F32) {x : F32} (hx : f32IsFinite x = true) :
    inRange fNeg1 (conformSin f x) f1 = true := by
  unfold conformSin
  split
  · decide
  · exact ok_repair (ok := fun y => inRange fNeg1 y f1) (by decide) hx

/-- P2: a repaired `EXP2` is finite and positive on [-8.0, 8.0]. -/
theorem conformExp2_positive (f : F32 → F32) {x : F32} (hx : inRange fNeg8 x f8 = true) :
    f32IsFinite (conformExp2 f x) = true ∧ fgt (conformExp2 f x) f0 = true := by
  rw [← Bool.and_eq_true]
  unfold conformExp2
  split
  · decide
  · exact ok_repair (ok := fun y => f32IsFinite y && fgt y f0) (by decide) hx

/-- P3: a repaired `POW1000` is in [1.0, 1000.0] on [0.0, 1.0]. -/
theorem conformPow1000_inRange (f : F32 → F32) {x : F32} (hx : inRange f0 x f1 = true) :
    inRange f1 (conformPow1000 f x) f1000 = true := by
  unfold conformPow1000
  split
  · decide
  · split
    · decide
    · exact ok_repair (ok := fun y => inRange f1 y f1000) (by decide) hx

/-- P4: a repaired `TAN` is finite and positive up to `fTanMax`. -/
theorem conformTan_positive (f : F32 → F32) {x : F32} (hpos : fgt x f0 = true) (hmax : fle x fTanMax = true) :
    f32IsFinite (conformTan f x) = true ∧ fgt (conformTan f x) f0 = true := by
  rw [← Bool.and_eq_true]
  exact ok_repair (ok := fun y => f32IsFinite y && fgt y f0) (by decide) (by rw [hpos, hmax]; rfl)

/-- Any four functions are made into a conforming record. -/
theorem conforming_conform (n : Numerics) : Conforming (conform n) :=
  ⟨⟨rfl, fun _ hx => conformSin_inRange n.sin hx⟩, ⟨rfl, fun _ hx => conformExp2_positive n.exp2 hx⟩,
    ⟨rfl, rfl, fun _ hx => conformPow1000_inRange n.pow1000 hx⟩,
    fun _ hpos hmax => conformTan_positive n.tan hpos hmax⟩

/-! ## Functions that are left as they are -/

theorem conformSin_eq_self {f : F32 → F32} (h0 : f f0 = f0)
    (h : ∀ x, f32IsFinite x = true → inRange fNeg1 (f x) f1 = true) : conformSin f = f := by
  funext x
  unfold conformSin
  split
  next hx => rw [hx, h0]
  next => exact repair_eq_self (h x)

theorem conformExp2_eq_self {f : F32 → F32} (h0 : f f0 = f1)
    (h : ∀ x, inRange fNeg8 x f8 = true → f32IsFinite (f x) = true ∧ fgt (f x) f0 = true) : conformExp2 f = f := by
  funext x
  unfold conformExp2
  split
  next hx => rw [hx, h0]
  next => exact repair_eq_self fun hx => (Bool.and_eq_true ..).mpr (h x hx)

theorem conformPow1000_eq_self {f : F32 → F32} (h0 : f f0 = f1) (h1 : f f1 = f1000)
    (h : ∀ x, inRange f0 x f1 = true → inRange f1 (f x) f1000 = true) : conformPow1000 f = f := by
  funext x
  unfold conformPow1000
  split
  next hx => rw [hx, h0]
  next =>
    split
    next hx => rw [hx, h1]
    next => exact repair_eq_self (h x)

theorem conformTan_eq_self {f : F32 → F32}
    (h : ∀ x, fgt x f0 = true → fle x fTanMax = true → f32IsFinite (f x) = true ∧ fgt (f x) f0 = true) :
    conformTan f = f := by
  funext x
  refine repair_eq_self fun hx => ?_
  obtain ⟨hpos, hmax⟩ := (Bool.and_eq_true ..).mp hx
  exact (Bool.and_eq_true ..).mpr (h x hpos hmax)

/-- A conforming record is left as it is. -/
theorem conform_eq_self {n : Numerics} (h : Conforming n) : conform n = n := by
  obtain ⟨⟨hsin0, hsin⟩, ⟨hexp0, hexp⟩, ⟨hpow0, hpow1, hpow⟩, htan⟩ := h
  unfold conform
  rw [conformSin_eq_self hsin0 hsin, conformTan_eq_self htan, conformPow1000_eq_self hpow0 hpow1 hpow,
    conformExp2_eq_self hexp0 hexp]

/-- Settles O58: the record is made conforming function by function, and a function that conforms is not changed. -/
theorem numericsConformAndNothingMore : Obligations.NumericsConformAndNothingMore :=
  ⟨conforming_conform _, conforming_conform, fun _ => conform_eq_self⟩

end Sys2Proof.Machine

/-! PROOFS. 00_scope.md R9 and 60_exceptions.md R265: what each operation gives, by the class of its operands, and with it
that the arithmetic is correctly rounded (O59). A sum and a difference are one computation, `faddCore`, so the rules about
it are proved once; `roundLow_nearest` says that the rounding is the right one. -/

namespace Sys2Proof.Machine

/-! ## The sign flip -/

@[simp] theorem f32IsNaN_fneg (x : F32) : f32IsNaN (fneg x) = f32IsNaN x := by simp only [f32IsNaN, fneg_low]

@[simp] theorem f32IsInf_fneg (x : F32) : f32IsInf (fneg x) = f32IsInf x := by simp only [f32IsInf, fneg_low]

@[simp] theorem f32IsFinite_fneg (x : F32) : f32IsFinite (fneg x) = f32IsFinite x := by
  simp only [f32IsFinite, fneg_low]

@[simp] theorem fneg_fneg (x : F32) : fneg (fneg x) = x := by
  rw [fneg, fneg_sign, fneg_low, Bool.not_not, f32Pack_sign_low]

theorem fneg_eq_negZero {x : F32} : fneg x = 0x80000000#32 ↔ x = 0x00000000#32 := by
  constructor
  · intro h
    rw [← fneg_fneg x, h]
    decide
  · rintro rfl
    decide

/-- The pattern of `-0.0` is the one with the sign bit and magnitude 0. -/
theorem eq_negZero_iff {x : F32} : x = 0x80000000#32 ↔ f32Sign x = true ∧ f32Mag x = 0 := by
  constructor
  · rintro rfl
    decide
  · rintro ⟨hs, hm⟩
    rw [← f32Pack_sign_low x, hs, f32Mag_eq_zero.mp hm]
    rfl

/-- Negative terms with the sum 0 are both `-0.0`. -/
theorem signs_of_zero_sum {a b : F32} (h : f32Int a + f32Int b = 0) :
    (f32Sign a && f32Sign b) = true ↔ a = 0x80000000#32 ∧ b = 0x80000000#32 := by
  rw [Bool.and_eq_true, eq_negZero_iff, eq_negZero_iff]
  constructor
  · rintro ⟨ha, hb⟩
    simp only [f32Int, ha, hb, if_true] at h
    exact ⟨⟨ha, by omega⟩, hb, by omega⟩
  · rintro ⟨⟨ha, -⟩, hb, -⟩
    exact ⟨ha, hb⟩

/-! ## The common core of sum and difference -/

section Core
variable {op : FpOp} {a b x y : F32}

theorem faddCore_finite (hx : f32IsFinite x = true) (hy : f32IsFinite y = true) (h : f32Int x + f32Int y ≠ 0) :
    faddCore op a b x y =
      f32Pack (decide (f32Int x + f32Int y < 0)) (roundLow (f32Int x + f32Int y).natAbs 1) := by
  simp [faddCore, f32IsFinite_not hx, f32IsFinite_not hy, h]

theorem faddCore_finite_zero (hx : f32IsFinite x = true) (hy : f32IsFinite y = true) (h : f32Int x + f32Int y = 0) :
    faddCore op a b x y = if x = 0x80000000#32 ∧ y = 0x80000000#32 then 0x80000000#32 else 0x00000000#32 := by
  have hcore : faddCore op a b x y = f32Pack (f32Sign x && f32Sign y) 0 := by
    simp [faddCore, f32IsFinite_not hx, f32IsFinite_not hy, h]
  rw [hcore]
  split
  next hz => rw [(signs_of_zero_sum h).mpr hz]; rfl
  next hz => rw [Bool.eq_false_iff.mpr (mt (signs_of_zero_sum h).mp hz)]; rfl

/-- The rounded sum of finite terms, where it is not exactly 0, is nearest to the exact one. -/
theorem faddCore_nearest (hx : f32IsFinite x = true) (hy : f32IsFinite y = true) (h : f32Int x + f32Int y ≠ 0) :
    ∃ r, faddCore op a b x y = f32Pack (decide (f32Int x + f32Int y < 0)) r ∧
      NearestLow (f32Int x + f32Int y).natAbs 1 r :=
  ⟨_, faddCore_finite hx hy h, roundLow_nearest Nat.one_pos⟩

theorem faddCore_inf_same_sign (hx : f32IsInf x = true) (h : f32Sign x = f32Sign y) : faddCore op a b x y = x := by
  simp [faddCore, hx, h]

theorem faddCore_inf_opposite (hx : f32IsInf x = true) (hy : f32IsInf y = true) (h : f32Sign x ≠ f32Sign y) :
    f32IsNaN (faddCore op a b x y) = true := by
  simp [faddCore, hx, hy, h, f32IsNaN_f32NaN]

theorem faddCore_inf_finite (hx : f32IsInf x = true) (hy : f32IsFinite y = true) : faddCore op a b x y = x := by
  simp [faddCore, hx, f32IsFinite_not hy]

theorem faddCore_finite_inf (hx : f32IsFinite x = true) (hy : f32IsInf y = true) : faddCore op a b x y = y := by
  simp [faddCore, hy, f32IsFinite_not hx]

end Core

section Operations
variable {a b : F32}

theorem fadd_eq_core (ha : f32IsNaN a = false) (hb : f32IsNaN b = false) : fadd a b = faddCore .add a b a b := by
  simp [fadd, ha, hb]

theorem fsub_eq_core (ha : f32IsNaN a = false) (hb : f32IsNaN b = false) :
    fsub a b = faddCore .sub a b a (fneg b) := by
  simp [fsub, ha, hb]

/-! ## The product -/

theorem fmul_finite (ha : f32IsFinite a = true) (hb : f32IsFinite b = true) :
    fmul a b = f32Pack (f32Sign a != f32Sign b) (roundLow (f32Mag a * f32Mag b) (2 ^ 149)) := by
  simp [fmul, f32IsFinite_not ha, f32IsFinite_not hb]

/-- An infinity times a factor that is not 0. -/
theorem fmul_inf (ha : f32IsNaN a = false) (hb : f32IsNaN b = false) (hinf : f32IsInf a = true ∨ f32IsInf b = true)
    (ha0 : f32Low a ≠ 0) (hb0 : f32Low b ≠ 0) : fmul a b = f32Pack (f32Sign a != f32Sign b) 0x7F800000 := by
  simp [fmul, ha, hb, hinf, ha0, hb0]

/-- An infinity times 0. -/
theorem fmul_inf_zero (ha : f32IsNaN a = false) (hb : f32IsNaN b = false)
    (hinf : f32IsInf a = true ∨ f32IsInf b = true) (h0 : f32Low a = 0 ∨ f32Low b = 0) :
    f32IsNaN (fmul a b) = true := by
  simp [fmul, ha, hb, hinf, h0, f32IsNaN_f32NaN]

/-! ## The quotient -/

theorem fdiv_finite (ha : f32IsFinite a = true) (hb : f32IsFinite b = true) (h0 : f32Mag b ≠ 0) :
    fdiv a b = f32Pack (f32Sign a != f32Sign b) (roundLow (f32Mag a * 2 ^ 149) (f32Mag b)) := by
  simp [fdiv, f32IsFinite_not ha, f32IsFinite_not hb, mt f32Mag_eq_zero.mpr h0]

theorem fdiv_zero (ha : f32IsFinite a = true) (hb : f32IsFinite b = true) (hb0 : f32Mag b = 0) (ha0 : f32Mag a ≠ 0) :
    fdiv a b = f32Pack (f32Sign a != f32Sign b) 0x7F800000 := by
  simp [fdiv, f32IsFinite_not ha, f32IsFinite_not hb, f32Mag_eq_zero.mp hb0, mt f32Mag_eq_zero.mpr ha0]

theorem fdiv_zero_zero (ha : f32IsFinite a = true) (hb : f32IsFinite b = true) (hb0 : f32Mag b = 0)
    (ha0 : f32Mag a = 0) : f32IsNaN (fdiv a b) = true := by
  simp [fdiv, f32IsFinite_not ha, f32IsFinite_not hb, f32Mag_eq_zero.mp hb0, f32Mag_eq_zero.mp ha0, f32IsNaN_f32NaN]

theorem fdiv_inf_inf (ha : f32IsInf a = true) (hb : f32IsInf b = true) : f32IsNaN (fdiv a b) = true := by
  simp [fdiv, f32IsInf_not ha, f32IsInf_not hb, ha, hb, f32IsNaN_f32NaN]

theorem fdiv_inf_finite (ha : f32IsInf a = true) (hb : f32IsFinite b = true) :
    fdiv a b = f32Pack (f32Sign a != f32Sign b) 0x7F800000 := by
  simp [fdiv, f32IsInf_not ha, ha, f32IsFinite_not hb]

theorem fdiv_finite_inf (ha : f32IsFinite a = true) (hb : f32IsInf b = true) :
    fdiv a b = f32Pack (f32Sign a != f32Sign b) 0 := by
  simp [fdiv, f32IsFinite_not ha, f32IsInf_not hb, hb]

/-! ## The classes of operands -/

/-- A NaN operand gives a NaN. -/
theorem arith_nan (h : f32IsNaN a = true ∨ f32IsNaN b = true) :
    f32IsNaN (fadd a b) = true ∧ f32IsNaN (fsub a b) = true ∧ f32IsNaN (fmul a b) = true ∧
      f32IsNaN (fdiv a b) = true := by
  simp [fadd, fsub, fmul, fdiv, h, f32IsNaN_f32NaN]

end Operations

/-- Settles O59: a case for each class of operands, from the rules above. -/
theorem arithmeticIsCorrectlyRounded : Obligations.ArithmeticIsCorrectlyRounded := by
  intro a b
  refine ⟨fun ha hb => ?finite, arith_nan, fun ha hb => ?infInf, fun ha hb => ?infFinite, fun ha hb => ?finiteInf⟩
  case finite =>
    obtain ⟨hna, -⟩ := f32IsFinite_not ha
    obtain ⟨hnb, -⟩ := f32IsFinite_not hb
    have hb' : f32IsFinite (fneg b) = true := (f32IsFinite_fneg b).trans hb
    have hdiff : f32Int a - f32Int b = f32Int a + f32Int (fneg b) := by rw [f32Int_fneg, sub_eq_add_neg]
    rw [fadd_eq_core hna hnb, fsub_eq_core hna hnb, hdiff]
    exact ⟨faddCore_nearest ha hb, faddCore_nearest ha hb', faddCore_finite_zero ha hb,
      fun h => by simpa only [fneg_eq_negZero] using faddCore_finite_zero ha hb' h,
      ⟨_, fmul_finite ha hb, roundLow_nearest (Nat.two_pow_pos 149)⟩,
      fun h0 => ⟨_, fdiv_finite ha hb h0, roundLow_nearest (Nat.pos_of_ne_zero h0)⟩,
      fdiv_zero ha hb, fdiv_zero_zero ha hb⟩
  case infInf =>
    obtain ⟨hna, hla⟩ := f32IsInf_not ha
    obtain ⟨hnb, hlb⟩ := f32IsInf_not hb
    have hb' : f32IsInf (fneg b) = true := (f32IsInf_fneg b).trans hb
    rw [fadd_eq_core hna hnb, fsub_eq_core hna hnb]
    refine ⟨?_, fmul_inf hna hnb (.inl ha) hla hlb, fdiv_inf_inf ha hb⟩
    split
    next h => exact ⟨faddCore_inf_same_sign ha h, faddCore_inf_opposite ha hb' (by simp [fneg_sign, h])⟩
    next h =>
      exact ⟨faddCore_inf_opposite ha hb h, faddCore_inf_same_sign ha ((Bool.eq_not.mpr h).trans (fneg_sign b).symm)⟩
  case infFinite =>
    obtain ⟨hna, hla⟩ := f32IsInf_not ha
    obtain ⟨hnb, -⟩ := f32IsFinite_not hb
    rw [fadd_eq_core hna hnb, fsub_eq_core hna hnb]
    exact ⟨faddCore_inf_finite ha hb, faddCore_inf_finite ha ((f32IsFinite_fneg b).trans hb), fdiv_inf_finite ha hb,
      fun h0 => fmul_inf_zero hna hnb (.inl ha) (.inr (f32Mag_eq_zero.mp h0)),
      fun h0 => fmul_inf hna hnb (.inl ha) hla (mt f32Mag_eq_zero.mpr h0)⟩
  case finiteInf =>
    obtain ⟨hna, -⟩ := f32IsFinite_not ha
    obtain ⟨hnb, hlb⟩ := f32IsInf_not hb
    rw [fadd_eq_core hna hnb, fsub_eq_core hna hnb]
    exact ⟨faddCore_finite_inf ha hb, faddCore_finite_inf ha ((f32IsInf_fneg b).trans hb), fdiv_finite_inf ha hb,
      fun h0 => fmul_inf_zero hna hnb (.inr hb) (.inl (f32Mag_eq_zero.mp h0)),
      fun h0 => fmul_inf hna hnb (.inr hb) (mt f32Mag_eq_zero.mpr h0) hlb⟩

end Sys2Proof.Machine

/-! PROOFS. 10_state.md R21, R22, R27, R33: what the state always satisfies (O54, O55), how an attack rate is bounded
below (O31), and what `PROCESS` and the other commands write (O43, O57). The binary32 registers stay in [+0.0, 1.0] for
three reasons: the commit clamps, a sample count is at least 1, and the envelope step saturates at either end. -/

namespace Sys2Proof.Machine

/-! ## Sample counts and rates (41_envelope.md R121, R122) -/

/-- The patterns of 1.0 up to +inf: what a sample count floored at 1 can be. -/
abbrev AtLeastOne (x : F32) : Prop := 0x3F800000 ≤ x.toNat ∧ x.toNat ≤ 0x7F800000

theorem floorOne_le {x b : F32} (hx : x.toNat ≤ b.toNat) (hb : 0x3F800000 ≤ b.toNat) :
    (floorOne x).toNat ≤ b.toNat := by
  unfold floorOne
  split
  · exact hb
  · exact hx

theorem atLeastOne_floorOne {x : F32} (hx : x.toNat ≤ 0x7F800000) : AtLeastOne (floorOne x) := by
  refine ⟨?_, floorOne_le (b := 0x7F800000#32) hx (by decide)⟩
  rcases Nat.lt_or_eq_of_le hx with hfin | hinf
  · unfold floorOne
    rw [flt_nonneg hfin (by decide)]
    split
    next => exact Nat.le_refl _
    next h => simpa using h
  · rw [BitVec.eq_of_toNat_eq (y := 0x7F800000#32) hinf]
    decide

/-- A product of finite non-negative values is at most +inf, so it is no NaN. -/
theorem fmul_le_inf {a b : F32} (ha : NonnegFinite a) (hb : NonnegFinite b) : (fmul a b).toNat ≤ 0x7F800000 := by
  rw [fmul_toNat ha hb]
  exact roundLow_le_inf _ _

theorem sampleRate_finite (c : Cfg) : NonnegFinite c.sampleRate.bits := (of_decide_eq_true c.sampleRate.ok).2

theorem fmul_fKMs_finite {ms : F32} (h : NonnegFinite ms) : NonnegFinite (fmul ms fKMs) :=
  Nat.lt_of_le_of_lt (fmul_inUnit_le h (by decide)) h

/-- Of a finite number of milliseconds the sample count is at least 1; past the largest finite value it is +inf. -/
theorem envSamples_atLeastOne (c : Cfg) {ms : F32} (h : NonnegFinite ms) : AtLeastOne (envSamples c ms) :=
  atLeastOne_floorOne (fmul_le_inf (fmul_fKMs_finite h) (sampleRate_finite c))

/-- Dividing by 1.0 or more, +inf included, does not raise a value. -/
theorem fdiv_atLeastOne_le {a b : F32} (ha : NonnegFinite a) (hb : AtLeastOne b) : (fdiv a b).toNat ≤ a.toNat := by
  obtain ⟨hone, hinf⟩ := hb
  rcases Nat.lt_or_eq_of_le hinf with hfin | hinf
  · have hpos : 0 < magOfLow b.toNat := magOfLow_pos (Nat.lt_of_lt_of_le (by decide) hone)
    rw [fdiv_toNat ha hfin (by omega)]
    refine roundLow_le hpos (Nat.le_of_lt ha) ?_
    rw [← magOfLow_one]
    exact Nat.mul_le_mul_left _ (magOfLow_le_iff.2 hone)
  · rw [BitVec.eq_of_toNat_eq (y := 0x7F800000#32) hinf,
      fdiv_finite_inf (decide_eq_true (by rwa [f32Low_nonneg ha])) (by decide), f32Sign_nonneg ha]
    exact Nat.zero_le _

/-- `base + (span × (x × x))` for `x` in [0, 1] is at most `base + span`. -/
theorem quadratic_le {base span x : F32} (hbase : NonnegFinite base) (hspan : NonnegFinite span) (hx : InUnit x) :
    (fadd base (fmul span (fmul x x))).toNat ≤ (fadd base span).toNat :=
  fadd_mono hbase hspan (Nat.le_refl _)
    (fmul_inUnit_le hspan (Nat.le_trans (fmul_inUnit_le (inUnit_nonneg hx) hx) hx))

theorem attackMs_le {a : F32} (h : InUnit a) : (attackMs a).toNat ≤ f1000.toNat :=
  Nat.le_trans (quadratic_le (by decide) (by decide) h) (by decide +kernel)

theorem releaseMs_finite {r : F32} (h : InUnit r) : NonnegFinite (releaseMs r) :=
  Nat.lt_of_le_of_lt (quadratic_le (by decide) (by decide) h) (by decide +kernel)

theorem attackMs_finite {a : F32} (h : InUnit a) : NonnegFinite (attackMs a) :=
  Nat.lt_of_le_of_lt (attackMs_le h) (by decide)

theorem attackRateOf_inUnit (c : Cfg) {a : F32} (h : InUnit a) : InUnit (attackRateOf c a) :=
  fdiv_atLeastOne_le (by decide) (envSamples_atLeastOne c (attackMs_finite h))

theorem releaseRateOf_inUnit (c : Cfg) {r level : F32} (hr : InUnit r) (hl : InUnit level) :
    InUnit (releaseRateOf c r level) :=
  Nat.le_trans (fdiv_atLeastOne_le (inUnit_nonneg hl) (envSamples_atLeastOne c (releaseMs_finite hr))) hl

/-! ## Where the attack rate is above 0 -/

/-- At most 1000 ms at a rate of at most 2^100 are at most 2^100 samples: `1000.0 × K_MS` rounds to 1.0. -/
theorem envSamples_le (c : Cfg) {ms : F32} (hms : ms.toNat ≤ f1000.toNat)
    (hrate : c.sampleRate.bits.toNat ≤ 0x71800000) : (envSamples c ms).toNat ≤ 0x71800000 := by
  have hsec : (fmul ms fKMs).toNat ≤ f1.toNat :=
    Nat.le_trans (fmul_mono (b' := fKMs) (by decide) (by decide) hms (Nat.le_refl _)) (by decide +kernel)
  have hprod : (fmul (fmul ms fKMs) c.sampleRate.bits).toNat ≤ (0x71800000#32).toNat :=
    Nat.le_trans (fmul_mono (b' := 0x71800000#32) (by decide) (by decide) hsec hrate) (by decide +kernel)
  exact floorOne_le hprod (by decide)

/-- The rate is at least 2^-100, the quotient of 1.0 by the largest sample count. -/
theorem attackRateOf_ge (c : Cfg) {a : F32} (h : InUnit a) (hrate : c.sampleRate.bits.toNat ≤ 0x71800000) :
    0x0D800000 ≤ (attackRateOf c a).toNat := by
  have hone := (envSamples_atLeastOne c (attackMs_finite h)).1
  calc 0x0D800000 ≤ (fdiv f1 0x71800000#32).toNat := by decide +kernel
    _ ≤ (attackRateOf c a).toNat :=
      fdiv_mono (by decide) (by decide) (by omega) (Nat.le_refl _) (envSamples_le c (attackMs_le h) hrate)

/-- Settles O31: the captured rate is in [2^-100, 1.0]. -/
theorem attackRateIsPositive : Obligations.AttackRateIsPositive := by
  intro c a ha hrate
  have hlow := attackRateOf_ge c ha hrate
  rw [fgt, flt_nonneg (by decide) (inUnit_nonneg (attackRateOf_inUnit c ha))]
  exact decide_eq_true (Nat.lt_of_lt_of_le (by decide) hlow)

/-! ## The envelope step (R123 to R126) -/

/-- A sum of two values in [0, 1] that does not reach 1.0 is in [0, 1]. -/
theorem fadd_inUnit {a b : F32} (ha : InUnit a) (hb : InUnit b) (h : fge (fadd a b) f1 = false) :
    InUnit (fadd a b) := by
  have hfin : NonnegFinite (fadd a b) :=
    Nat.lt_of_le_of_lt (fadd_mono (a' := f1) (b' := f1) (by decide) (by decide) ha hb) (by decide +kernel)
  rw [fge, fle_nonneg (by decide) hfin] at h
  exact Nat.le_of_not_le (of_decide_eq_false h)

/-- A negated magnitude is at most 0. -/
theorem fle_pack_true_zero {l : Nat} (h : l ≤ 0x7F800000) : fle (f32Pack true l) f0 = true := by
  have hl : l < 0x80000000 := Nat.lt_of_le_of_lt h (by decide)
  have hkey : f32Key f0 = 0 := by decide
  have hnan : f32IsNaN f0 = false := by decide
  rw [fle, hkey, hnan]
  simp [f32IsNaN, f32Key, f32Low_pack hl, f32Sign_pack hl, h]

/-- A difference of non-negative values that is above 0 is at most the first of them. -/
theorem fsub_le {a b : F32} (ha : NonnegFinite a) (hb : NonnegFinite b) (h : fle (fsub a b) f0 = false) :
    (fsub a b).toNat ≤ a.toNat := by
  rcases Nat.lt_or_ge a.toNat b.toNat with hlt | hge
  · have hneg : fle (fsub a b) f0 = true := by
      rw [fsub_nonneg ha hb, decide_eq_true (magOfLow_lt_iff.2 hlt)]
      exact fle_pack_true_zero (roundLow_le_inf _ _)
    rw [hneg] at h
    cases h
  · rw [fsub_toNat ha hb hge]
    exact roundLow_le Nat.one_pos (Nat.le_of_lt ha) (by omega)

theorem attackStep_legal {v : Voice} (hv : v.Legal) (henv : v.env = .attack) : (attackStep v).Legal := by
  obtain ⟨hlevel, hattack, hrelease, -⟩ := hv
  refine ⟨?_, hattack, hrelease, fun hidle => by simp [attackStep, henv] at hidle⟩
  simp only [attackStep]
  split
  next => decide
  next h => exact fadd_inUnit hlevel hattack (Bool.eq_false_iff.mpr h)

theorem releaseStep_legal {v : Voice} (hv : v.Legal) (henv : v.env = .release) : (releaseStep v).Legal := by
  obtain ⟨hlevel, hattack, hrelease, -⟩ := hv
  simp only [releaseStep]
  split
  next => exact ⟨Nat.zero_le _, hattack, hrelease, fun _ => rfl⟩
  next h =>
    have hle := fsub_le (inUnit_nonneg hlevel) (inUnit_nonneg hrelease) (Bool.eq_false_iff.mpr h)
    exact ⟨Nat.le_trans hle hlevel, hattack, hrelease, fun hidle => by simp [henv] at hidle⟩

theorem envStep_legal {v : Voice} (hv : v.Legal) : (envStep v).Legal := by
  unfold envStep
  split
  next => exact hv
  next henv => exact attackStep_legal hv henv
  next henv => exact releaseStep_legal hv henv

theorem sampleStep_legal (num : Numerics) (r : ParamBank) (b : BlockValues) {v : Voice} (hv : v.Legal) :
    (sampleStep num r b v).1.Legal := by
  obtain ⟨hlevel, hattack, hrelease, hidle⟩ := envStep_legal hv
  obtain ⟨-, -, -, ea, er, -⟩ := envStep_frame v
  obtain ⟨sl, se, sa, sr, -⟩ := sampleStep_env num r b v
  rw [ea] at hattack
  rw [er] at hrelease
  unfold Voice.Legal
  rw [sl, se, sa, sr]
  exact ⟨hlevel, hattack, hrelease, hidle⟩

/-! ## A block's start (45_process_block.md R201, R202) -/

theorem committedBank_legal {s : State} (h : s.reg.Legal) : (committedBank s).Legal := by
  have keeps : ∀ (b : Bool) (x y : F32), InUnit y → InUnit (if b then clamp01 x else y) := by
    intro b x y hy
    split
    · exact clamp01_inUnit x
    · exact hy
  obtain ⟨hgain, hfreq, hfine, hres, hattack, hrelease⟩ := h
  exact ⟨keeps _ _ _ hgain, keeps _ _ _ hfreq, keeps _ _ _ hfine, keeps _ _ _ hres, keeps _ _ _ hattack,
    keeps _ _ _ hrelease⟩

/-- A note event takes the envelope out of Idle, so a voice that is Idle after the intake was Idle before it. -/
theorem env_idle_of_intakeVoice {num : Numerics} {c : Cfg} {r : ParamBank} {k : NoteRecord} {v : Voice}
    (h : (intakeVoice num c r k v).env = .idle) : v.env = .idle := by
  unfold intakeVoice intakeLast at h
  split at h
  next =>
    unfold intakeOff at h
    split at h
    · simp at h
    · unfold intakeOn at h
      split at h
      · simp at h
      · exact h
  next => cases h
  next => cases h

theorem intakeVoice_legal (num : Numerics) (c : Cfg) {r : ParamBank} (k : NoteRecord) {v : Voice} (hr : r.Legal)
    (hv : v.Legal) : (intakeVoice num c r k v).Legal := by
  obtain ⟨-, -, -, -, hrAttack, hrRelease⟩ := hr
  obtain ⟨hlevel, hattack, hrelease, hidle⟩ := hv
  unfold Voice.Legal
  rw [intakeVoice_level, intakeVoice_attackRate, intakeVoice_releaseRate]
  refine ⟨hlevel, ?_, ?_, fun h => hidle (env_idle_of_intakeVoice h)⟩
  · split
    · exact attackRateOf_inUnit c hrAttack
    · exact hattack
  · split
    · exact releaseRateOf_inUnit c hrRelease hlevel
    · exact hrelease

/-! ## The invariant -/

theorem processBlock_inv (num : Numerics) (c : BitVec 8) (n : BitVec 32) {s : State} (h : s.Inv) :
    (processBlock num c n s).Inv := by
  obtain ⟨hreg, hv⟩ := h
  have hbank := committedBank_legal hreg
  have hstart : (startVoice num s).Legal := intakeVoice_legal num s.cfg s.pend.note hbank hv
  rcases processBlock_kind n s with hsilent | ⟨hsound, hn⟩
  · rw [processBlock_silent hsilent]
    exact ⟨hbank, hstart⟩
  · rw [processBlock_sounding hsound hn]
    exact ⟨hbank, sampleLoop_keeps Voice.Legal (fun _ => sampleStep_legal num _ _) n.toNat _ hstart⟩

theorem voiceReset_legal : Voice.reset.Legal := by decide

theorem exec_inv (i : Instr) {s : State} (h : s.Inv) : ∃ t, exec i s = .next t ∧ t.Inv := by
  by_cases hi : ∃ c n, i = .process c n
  · obtain ⟨c, n, rfl⟩ := hi
    exact ⟨_, rfl, processBlock_inv numerics c n h⟩
  · rcases exec_cases i s fun c n hc => hi ⟨c, n, hc⟩ with ⟨p, ht, -⟩ | ⟨-, ht⟩
    · exact ⟨_, ht, h⟩
    · exact ⟨_, ht, h.1, voiceReset_legal⟩

theorem handshake_inv (e : Emission) (rest : List Emission) {s : State} (h : s.Inv) : (handshake e rest s).Inv := by
  rcases handshake_cases e rest s with ⟨later, ht, -⟩ | ⟨later, ht, -⟩ <;> rw [ht] <;> exact h

/-- Settles O54, by the three things a step can do. -/
theorem stepKeepsTheInvariant : Obligations.StepKeepsTheInvariant := by
  intro s h
  rcases step_cases s with ⟨e, rest, -, hstep⟩ | ⟨-, w, later, -, hstep⟩ | ⟨-, -, hstep⟩ <;> rw [hstep]
  · exact ⟨_, rfl, handshake_inv e rest h⟩
  · exact exec_inv (decodeWord w) h
  · exact ⟨s, rfl, h⟩

theorem paramBankReset_legal : ParamBank.reset.Legal := by decide

theorem powerOn_inv (c : Cfg) : (State.powerOn c).Inv := ⟨paramBankReset_legal, voiceReset_legal⟩

/-- Settles O55: the registers after power-on do not depend on the configuration. -/
theorem powerOnMeetsTheInvariant : Obligations.PowerOnMeetsTheInvariant :=
  ⟨powerOn_inv, powerOn_inv Config.cfg⟩

/-! ## What the commands write -/

/-- Settles O43: what `PROCESS` leaves pending does not depend on the kind of block. -/
theorem processEmptiesTheIntake : Obligations.ProcessEmptiesTheIntake := by
  intro c n s
  obtain ⟨-, -, -, -, -, hpend⟩ := processBlock_frame numerics c n s
  refine ⟨_, rfl, fun p => ?_, ?_⟩
  · rw [hpend]
    exact perPidGet_fill false p
  · rw [hpend]
    rfl

/-- Settles O57: the other commands only record in the intake state, except that `ACTIVATE` resets the voice. -/
theorem onlyProcessWritesTheBankAndEmits : Obligations.OnlyProcessWritesTheBankAndEmits := by
  intro i s hi
  rcases exec_cases i s hi with ⟨p, ht, -⟩ | ⟨hactivate, ht⟩
  · exact ⟨_, ht, rfl, rfl, rfl, rfl, fun _ => rfl⟩
  · exact ⟨_, ht, rfl, rfl, rfl, rfl, fun hne => absurd hactivate hne⟩

end Sys2Proof.Machine

/-! PROOFS. 20_memory.md: the streams as bytes (O5, O6), the step on the streams (O7, O8, O10), the delivery of a block
(O11), and the order in which intake commands arrive (O20). -/

namespace Sys2Proof.Machine

/-! ## Words as bytes (R53, R54) -/

/-- A command word is the word of its own eight bytes. -/
theorem exists_bytes_of_word (w : CmdWord) :
    ∃ b0 b1 b2 b3 b4 b5 b6 b7 : Byte, wordBytes w = [b0, b1, b2, b3, b4, b5, b6, b7] ∧
      wordOfBytes b0 b1 b2 b3 b4 b5 b6 b7 = w := by
  obtain ⟨b0, b1, b2, b3, b4, b5, b6, b7, hbytes, hdigits⟩ := bytes64_digits w
  refine ⟨b0, b1, b2, b3, b4, b5, b6, b7, hbytes, BitVec.eq_of_toNat_eq ?_⟩
  rw [wordOfBytes_toNat, hdigits]
  ring

theorem decode_partial {bs : List Byte} (h : bs.length < 8) : decode bs = .error .partialWord := by
  unfold decode
  split
  next => simp only [List.length_cons] at h; omega
  next => rfl

theorem wordsOfBytes_partial {bs : List Byte} (h : bs.length < 8) : wordsOfBytes bs = ([], bs) := by
  unfold wordsOfBytes
  split
  next => simp only [List.length_cons] at h; omega
  next => rfl

/-- A whole word at the head of a byte sequence is its first word. -/
theorem wordsOfBytes_wordBytes_append (w : CmdWord) (bs : List Byte) :
    wordsOfBytes (wordBytes w ++ bs) = (w :: (wordsOfBytes bs).1, (wordsOfBytes bs).2) := by
  obtain ⟨b0, b1, b2, b3, b4, b5, b6, b7, hbytes, rfl⟩ := exists_bytes_of_word w
  rw [hbytes]
  rfl

theorem wordsOfBytes_flatMap_append (ws : List CmdWord) {left : List Byte} (h : left.length < 8) :
    wordsOfBytes (ws.flatMap wordBytes ++ left) = (ws, left) := by
  induction ws with
  | nil => exact wordsOfBytes_partial h
  | cons w ws ih => rw [List.flatMap_cons, List.append_assoc, wordsOfBytes_wordBytes_append, ih]

@[simp] theorem hostSend_nil (s : State) : hostSend [] s = s := by simp only [hostSend, List.append_nil]

/-- Settles O5: what arrives of a byte sequence is `wordsOfBytes`, which drops a partial word. -/
theorem partialWordIsNotDelivered : Obligations.PartialWordIsNotDelivered := by
  refine ⟨fun bs s h => ⟨decode_partial h, ?_⟩, fun ws left s h => ?_⟩
  · rw [hostSendBytes, wordsOfBytes_partial h, hostSend_nil]
  · rw [hostSendBytes, wordsOfBytes_flatMap_append ws h]

@[simp] theorem outWords_out (w : OutWord) : outWords [.out w] = [w] := rfl

@[simp] theorem statusWords_out (w : OutWord) : statusWords [.out w] = [] := rfl

/-- The bytes of the OUT words the host takes come after those of the OUT words it has taken. -/
theorem outStreamBytes_emitted_append (s : State) (es : List Emission) :
    outStreamBytes { s with emitted := s.emitted ++ es } = outStreamBytes s ++ (outWords es).flatMap outBytes := by
  simp only [outStreamBytes, outStream, outWords_append, List.flatMap_append]

/-- The bytes of the STATUS words the host takes come after those of the STATUS words it has taken. -/
theorem statusStreamBytes_emitted_append (s : State) (es : List Emission) :
    statusStreamBytes { s with emitted := s.emitted ++ es } =
      statusStreamBytes s ++ (statusWords es).flatMap statusBytes := by
  simp only [statusStreamBytes, statusStream, statusWords_append, List.flatMap_append]

/-- Settles O6: a word's bytes are its digits in base 256, and the bytes of a stream are those of its words in order. -/
theorem commandBytesAreLittleEndian : Obligations.CommandBytesAreLittleEndian := by
  refine ⟨?command, bytes32_digits, bytes64_digits, ?out, ?status⟩
  case command =>
    intro b0 b1 b2 b3 b4 b5 b6 b7 rest
    refine ⟨wordOfBytes b0 b1 b2 b3 b4 b5 b6 b7, ?_, rfl, bytes64_wordOfBytes ..⟩
    rw [wordOfBytes_toNat]
    ring
  case out =>
    intro s w
    simp [outStreamBytes_emitted_append, statusStreamBytes_emitted_append]
  case status =>
    intro s w
    simp [outStreamBytes_emitted_append, statusStreamBytes_emitted_append]

/-! ## The step on the streams (R52, R56, R310) -/

/-- Settles O7: both halves are a step with nothing offered and a word on CMD. -/
theorem stepRunsTheDecodedCommand : Obligations.StepRunsTheDecodedCommand := by
  refine ⟨fun s w later i ho hc hi => ?_, fun s nbits w => ?_⟩
  · exact hi ▸ step_command ho hc
  · exact step_command (s := s.withFetchWord nbits w) rfl rfl

/-- Settles O8: the host past the end of its readiness or ready takes the word, and one that is not ready leaves it. -/
theorem offeredWordIsHandedOverOrWaits : Obligations.OfferedWordIsHandedOverOrWaits := by
  intro s e rest ho
  refine ⟨_, step_offered ho, ?_⟩
  rcases handshake_cases e rest s with ⟨later, ht, ⟨hr, rfl⟩ | hr⟩ | ⟨later, ht, hr⟩ <;> rw [ht]
  case inl.inl => simp [ho, hr]
  case inl.inr => simp [ho, hr]
  case inr => simp [hr]

theorem handshake_hostSend (e : Emission) (rest : List Emission) (ws : List CmdWord) (s : State) :
    handshake e rest (hostSend ws s) = hostSend ws (handshake e rest s) := by
  unfold handshake
  rw [hostSend_hostReady]
  split <;> rfl

/-- Settles O10: neither the handshake nor a command reads the words behind it. -/
theorem laterCommandsDoNotAffectAStep : Obligations.LaterCommandsDoNotAffectAStep := by
  intro s ws hbusy
  rcases step_cases s with ⟨e, rest, ho, hstep⟩ | ⟨ho, w, later, hc, hstep⟩ | ⟨ho, hc, -⟩
  · refine ⟨_, hstep, ?_⟩
    rw [step_offered (s := hostSend ws s) ho, handshake_hostSend]
  · obtain ⟨t, hexec, hsent⟩ := exec_next (decodeWord w) { s with cmd := later } ws
    refine ⟨t, hstep.trans hexec, ?_⟩
    have hc' : (hostSend ws s).cmd = w :: (later ++ ws) := by rw [hostSend_cmd, hc, List.cons_append]
    exact (step_command (s := hostSend ws s) ho hc').trans hsent
  · exact absurd hbusy (by simp [ho, hc])

/-! ## The delivery of a block (R58, R211) -/

/-- From an empty offer a `PROCESS` offers the OUT words of its samples and then its STATUS word. -/
theorem processBlock_offered_outs (num : Numerics) (c : BitVec 8) (n : BitVec 32) {s : State} (ho : s.offered = []) :
    ∃ (outs : List OutWord) (st : StatusWord), outs.length = c.toNat * n.toNat ∧
      (processBlock num c n s).offered = outs.map .out ++ [.status st] := by
  obtain ⟨ys, silent, hlen, hoff⟩ := processBlock_offered num c n s
  refine ⟨ys.flatMap fun y => List.replicate c.toNat y, statusWord silent c n, ?_, ?_⟩
  · rw [flatMap_replicate_length, hlen]
  · rw [hoff, ho, List.nil_append, fanOut_eq_map]

/-- Settles O11: one step runs the `PROCESS`, and each word it offers takes one more. -/
theorem blockIsDeliveredInOrder : Obligations.BlockIsDeliveredInOrder := by
  intro s w later c n ho hr hc hw
  have hstep : step s = .next (processBlock numerics c n { s with cmd := later }) := by
    rw [step_command ho hc, hw]
    rfl
  obtain ⟨-, hcmd, hemitted, hready, -⟩ := processBlock_frame numerics c n { s with cmd := later }
  obtain ⟨outs, st, hlen, hoff⟩ := processBlock_offered_outs numerics c n (s := { s with cmd := later }) ho
  have hsteps : c.toNat * n.toNat + 1 = (outs.map Emission.out ++ [Emission.status st]).length := by simp [hlen]
  refine ⟨hostDrain (processBlock numerics c n { s with cmd := later }), outs, st, ?_, hlen, ?_, rfl, hcmd⟩
  · rw [Nat.add_comm, run_succ _ hstep, hsteps]
    exact run_drain _ _ (hready.trans hr) hoff
  · rw [hostDrain_emitted, hemitted, hoff, List.append_assoc]

/-! ## The order of intake commands (R56) -/

/-- Two commands whose effects commute give the same state in either order. -/
theorem execAll_pair_comm {i j : Instr} {f g : State → State} (hi : ∀ s, exec i s = .next (f s))
    (hj : ∀ s, exec j s = .next (g s)) {s : State} (hcomm : g (f s) = f (g s)) :
    ∃ t, execAll [i, j] s = .next t ∧ execAll [j, i] s = .next t := by
  refine ⟨g (f s), ?_, ?_⟩
  · rw [execAll_cons _ (hi s), execAll_cons _ (hj _), execAll_nil]
  · rw [execAll_cons _ (hj s), execAll_cons _ (hi _), execAll_nil, hcomm]

/-- What a note event does to the note record (44_note_events.md R180, R181). -/
def noteRecordAfter : NoteEvent → NoteRecord → NoteRecord
  | .on pitch => noteRecordOn pitch
  | .off => noteRecordOff

theorem execNote_eq (e : NoteEvent) (s : State) :
    exec (noteInstr e) s = .next (setNoteRecord (noteRecordAfter e s.pend.note) s) := by
  cases e <;> rfl

theorem recordParam_comm {p q : Pid} (h : p ≠ q) (x y : F32) (s : State) :
    recordParam q y (recordParam p x s) = recordParam p x (recordParam q y s) := by
  simp only [recordParam, perPidSet_comm _ h]

/-- Settles O20: a `PARAM_SET` and a note command write different fields of the intake state, and so do the `PARAM_SET`s
of two ids. -/
theorem parameterAndNoteCommandsCommute : Obligations.ParameterAndNoteCommandsCommute := by
  refine ⟨fun p pos x e s => ?_, fun p q pos pos' x y s h => ?_⟩
  · exact execAll_pair_comm (execParam_eq p pos x) (execNote_eq e) rfl
  · exact execAll_pair_comm (execParam_eq p pos x) (execParam_eq q pos' y) (recordParam_comm h x y s)

end Sys2Proof.Machine

/-! PROOFS. 30_encoding.md: decoding and encoding (O1, O3, O4), the rows of the opcode table (O2), and the
pseudo-instructions (O60). One fact carries O2 and O3: the encoded command of a word is that word with its reserved bits
zeroed (`encode_decodeWord`). -/

namespace Sys2Proof.Machine

/-! ## Decoding an encoded command (R71 to R75) -/

section
variable {w : CmdWord}

theorem decodeWord_param (h : fieldOp w = 1#4) :
    decodeWord w = decodeParam (fieldPid w) (fieldPos w) (fieldValue w) := by
  rw [decodeWord, h]
  rfl

theorem decodeWord_noteOn (h : fieldOp w = 2#4) :
    decodeWord w = .noteOn (fieldPitch w) (fieldVel w) (fieldChan w) := by
  rw [decodeWord, h]
  rfl

theorem decodeWord_noteOff (h : fieldOp w = 3#4) :
    decodeWord w = .noteOff (fieldPitch w) (fieldVel w) (fieldChan w) := by
  rw [decodeWord, h]
  rfl

theorem decodeWord_process (h : fieldOp w = 4#4) : decodeWord w = .process (fieldC w) (fieldN w) := by
  rw [decodeWord, h]
  rfl

end

theorem decodeWord_formatP (pid : BitVec 4) (pos : BitVec 24) (value : F32) :
    decodeWord (formatP pid pos value) = decodeParam pid pos value := by
  rw [decodeWord_param (fieldOp_formatP ..), fieldPid_formatP, fieldPos_formatP, fieldValue_formatP]

theorem decodeParam_reserved {pid : BitVec 4} (h : reservedPid pid = true) (pos : BitVec 24) (value : F32) :
    decodeParam pid pos value = .paramReserved pid pos value := by
  have h8 : 8 ≤ pid.toNat := of_decide_eq_true h
  unfold decodeParam
  split
  case h_9 => rfl
  all_goals omega

/-- No bit of an operand is dropped. -/
theorem decodeWord_encode {i : Instr} (h : i.wellFormed = true) : decodeWord (encode i) = i := by
  cases i with
  | paramGain pos value | paramFreq pos value | paramFine pos value | paramRes pos value | paramWave pos value
  | paramAttack pos value | paramRelease pos value | paramBypass pos value => exact decodeWord_formatP _ pos value
  | paramReserved pid pos value => exact (decodeWord_formatP pid pos value).trans (decodeParam_reserved h pos value)
  | noteOn pitch vel chan =>
    rw [encode, decodeWord_noteOn (fieldOp_formatN ..), fieldPitch_formatN, fieldVel_formatN, fieldChan_formatN]
  | noteOff pitch vel chan =>
    rw [encode, decodeWord_noteOff (fieldOp_formatN ..), fieldPitch_formatN, fieldVel_formatN, fieldChan_formatN]
  | process c n => rw [encode, decodeWord_process (fieldOp_formatB ..), fieldC_formatB, fieldN_formatB]
  | nop | activate | reserved6 | reserved7 | reserved8 | reserved9 | reservedA | reservedB | reservedC | reservedD
  | reservedE | reservedF => decide

/-- The bytes of a word at the head of a byte sequence decode to the word's command (20_memory.md R53). -/
theorem decode_wordBytes_append (w : CmdWord) (rest : List Byte) :
    decode (wordBytes w ++ rest) = .ok (decodeWord w, rest) := by
  obtain ⟨b0, b1, b2, b3, b4, b5, b6, b7, hbytes, rfl⟩ := exists_bytes_of_word w
  rw [hbytes]
  rfl

/-- Settles O1: the bytes of a word are the word, and the fields of an encoded command are its operands. -/
theorem decodeOfEncodeIsTheCommand : Obligations.DecodeOfEncodeIsTheCommand := by
  intro i rest h
  rw [decode_wordBytes_append, decodeWord_encode h]
  exact ⟨rfl, rfl⟩

/-! ## Encoding a decoded command (R76, R77) -/

/-- The opcodes of format X (R75): all but those of `PARAM_SET`, `NOTE_ON`, `NOTE_OFF` and `PROCESS`. -/
def opIsFormatX (op : BitVec 4) : Bool := op == 0#4 || decide (5 ≤ op.toNat)

/-- Every opcode has one of the formats P, N (for two opcodes), B and X. -/
theorem op_cases : ∀ op : BitVec 4, op = 1#4 ∨ op = 2#4 ∨ op = 3#4 ∨ op = 4#4 ∨ opIsFormatX op = true := by decide

/-- Of a word of format X only the opcode is looked at. -/
theorem decodeWord_of_opIsFormatX {w : CmdWord} (h : opIsFormatX (fieldOp w) = true) :
    decodeWord w = decodeWord (formatX (fieldOp w)) := by
  unfold decodeWord
  rw [fieldOp_formatX]
  split
  case h_2 hop | h_3 hop | h_4 hop | h_5 hop => simp [opIsFormatX, hop, ← BitVec.toNat_inj] at h
  all_goals rfl

/-- A format's defined bits depend on the opcode alone. -/
theorem definedBits_eq (w : CmdWord) : definedBits w = definedBits (formatX (fieldOp w)) := by
  rw [definedBits, definedBits, fieldOp_formatX]

/-- The words of format X with reserved bits zero: each is the word of its command, and only its opcode is defined. -/
theorem encode_decodeWord_formatX : ∀ op : BitVec 4, opIsFormatX op = true →
    encode (decodeWord (formatX op)) = formatX op ∧ definedBits (formatX op) = 0xF000000000000000#64 := by decide

theorem encode_decodeParam (pid : BitVec 4) (pos : BitVec 24) (value : F32) :
    encode (decodeParam pid pos value) = formatP pid pos value := by
  unfold decodeParam
  split
  case h_9 => rfl
  all_goals
    rename_i hpid
    exact congrArg (formatP · pos value) (BitVec.eq_of_toNat_eq hpid.symm)

theorem formatP_fields {w : CmdWord} (h : fieldOp w = 1#4) :
    formatP (fieldPid w) (fieldPos w) (fieldValue w) = w := by
  have hop : w.toNat / 2 ^ 60 % 2 ^ 4 = 1 := by rw [← field_toNat, ← fieldOp, h]; rfl
  apply BitVec.eq_of_toNat_eq
  rw [formatP_toNat, fieldPid, fieldPos, fieldValue, field_toNat, field_toNat, field_toNat]
  omega

theorem formatN_fields (w : CmdWord) :
    formatN (fieldOp w) (fieldPitch w) (fieldVel w) (fieldChan w) = w &&& 0xF00000000F7F007F#64 := by
  have hw : w = fieldOp w ++ field w 28 32 ++ fieldChan w ++ field w 23 1 ++ fieldVel w ++ field w 7 9 ++
      fieldPitch w := by
    apply BitVec.eq_of_toNat_eq
    simp only [append_toNat, fieldOp, fieldChan, fieldVel, fieldPitch, field_toNat]
    omega
  have hmask : 0xF00000000F7F007F#64 = BitVec.allOnes 4 ++ 0#32 ++ BitVec.allOnes 4 ++ 0#1 ++ BitVec.allOnes 7 ++
      0#9 ++ BitVec.allOnes 7 := by decide
  calc formatN (fieldOp w) (fieldPitch w) (fieldVel w) (fieldChan w)
    _ = (fieldOp w ++ field w 28 32 ++ fieldChan w ++ field w 23 1 ++ fieldVel w ++ field w 7 9 ++ fieldPitch w) &&&
        (BitVec.allOnes 4 ++ 0#32 ++ BitVec.allOnes 4 ++ 0#1 ++ BitVec.allOnes 7 ++ 0#9 ++ BitVec.allOnes 7) := by
      simp only [BitVec.and_append, BitVec.and_allOnes, BitVec.and_zero, formatN]
    _ = w &&& 0xF00000000F7F007F#64 := (congrArg₂ (· &&& ·) hw hmask).symm

theorem formatB_fields {w : CmdWord} (h : fieldOp w = 4#4) :
    formatB (fieldC w) (fieldN w) = w &&& 0xF00000FFFFFFFFFF#64 := by
  have hw : w = 4#4 ++ field w 40 20 ++ fieldC w ++ fieldN w := by
    rw [← h]
    apply BitVec.eq_of_toNat_eq
    simp only [append_toNat, fieldOp, fieldC, fieldN, field_toNat]
    omega
  have hmask : 0xF00000FFFFFFFFFF#64 = BitVec.allOnes 4 ++ 0#20 ++ BitVec.allOnes 8 ++ BitVec.allOnes 32 := by decide
  calc formatB (fieldC w) (fieldN w)
    _ = (4#4 ++ field w 40 20 ++ fieldC w ++ fieldN w) &&&
        (BitVec.allOnes 4 ++ 0#20 ++ BitVec.allOnes 8 ++ BitVec.allOnes 32) := by
      simp only [BitVec.and_append, BitVec.and_allOnes, BitVec.and_zero, formatB]
    _ = w &&& 0xF00000FFFFFFFFFF#64 := (congrArg₂ (· &&& ·) hw hmask).symm

theorem formatX_fieldOp (w : CmdWord) : formatX (fieldOp w) = w &&& 0xF000000000000000#64 := by
  apply BitVec.eq_of_toNat_eq
  rw [formatX_toNat, and_opMask, fieldOp, field_toNat]
  omega

/-- **The canonical word**: the word of the command that a word decodes to is that word with its reserved bits zeroed. -/
theorem encode_decodeWord (w : CmdWord) : encode (decodeWord w) = w &&& definedBits w := by
  rw [definedBits_eq]
  rcases op_cases (fieldOp w) with h | h | h | h | h
  · rw [decodeWord_param h, encode_decodeParam, formatP_fields h, h]
    exact BitVec.and_allOnes.symm
  · rw [decodeWord_noteOn h, encode, ← h, formatN_fields, h]
    rfl
  · rw [decodeWord_noteOff h, encode, ← h, formatN_fields, h]
    rfl
  · rw [decodeWord_process h, encode, formatB_fields h, h]
    rfl
  · obtain ⟨hword, hbits⟩ := encode_decodeWord_formatX _ h
    rw [decodeWord_of_opIsFormatX h, hword, hbits, formatX_fieldOp]

theorem decodeParam_wellFormed (pid : BitVec 4) (pos : BitVec 24) (value : F32) :
    (decodeParam pid pos value).wellFormed = true := by
  unfold decodeParam
  split
  case h_9 =>
    have h8 : 8 ≤ pid.toNat := by grind
    exact decide_eq_true h8
  all_goals rfl

theorem decodeWord_wellFormed (w : CmdWord) : (decodeWord w).wellFormed = true := by
  unfold decodeWord
  split
  case h_2 => exact decodeParam_wellFormed ..
  all_goals rfl

/-- Settles O3: the word with its reserved bits zeroed is the canonical word of the same command. -/
theorem reservedFieldsAreIgnored : Obligations.ReservedFieldsAreIgnored := by
  intro w s
  have hsame : decodeWord (w &&& definedBits w) = decodeWord w := by
    rw [← encode_decodeWord, decodeWord_encode (decodeWord_wellFormed w)]
  obtain ⟨t, ht, -⟩ := exec_next (decodeWord w) s []
  exact ⟨hsame, t, ht, hsame ▸ ht⟩

/-! ## The rows of the opcode table (R71, R77) -/

/-- Every command's row stands in the table, whatever its operands. -/
theorem tableRow_mem (i : Instr) : tableRow i ∈ tableRows := by
  cases i <;> simp [tableRows, tableRow]

open Laws.OpcodeRow in
/-- The encoded word of a well-formed command belongs to the command's row. -/
theorem tableRow_holds_encode : ∀ i : Instr, Statement i
  | .nop => nop
  | .paramGain pos value => paramGain pos value
  | .paramFreq pos value => paramFreq pos value
  | .paramFine pos value => paramFine pos value
  | .paramRes pos value => paramRes pos value
  | .paramWave pos value => paramWave pos value
  | .paramAttack pos value => paramAttack pos value
  | .paramRelease pos value => paramRelease pos value
  | .paramBypass pos value => paramBypass pos value
  | .paramReserved pid pos value => paramReserved pid pos value
  | .noteOn pitch vel chan => noteOn pitch vel chan
  | .noteOff pitch vel chan => noteOff pitch vel chan
  | .process c n => process c n
  | .activate => activate
  | .reserved6 => reserved6
  | .reserved7 => reserved7
  | .reserved8 => reserved8
  | .reserved9 => reserved9
  | .reservedA => reservedA
  | .reservedB => reservedB
  | .reservedC => reservedC
  | .reservedD => reservedD
  | .reservedE => reservedE
  | .reservedF => reservedF

/-- Outside `PARAM_SET` a row is chosen by the opcode alone. -/
theorem tableRow_mask_of_op_ne {w : CmdWord} (h : fieldOp w ≠ 1#4) :
    (tableRow (decodeWord w)).mask = 0xF000000000000000#64 := by
  unfold decodeWord
  split
  case h_2 hop => exact absurd (BitVec.eq_of_toNat_eq hop) h
  all_goals rfl

theorem definedBits_and_opMask : ∀ op : BitVec 4,
    definedBits (formatX op) &&& 0xF000000000000000#64 = 0xF000000000000000#64 := by decide

/-- No row looks at a reserved bit of its words. -/
theorem definedBits_and_mask (w : CmdWord) :
    definedBits w &&& (tableRow (decodeWord w)).mask = (tableRow (decodeWord w)).mask := by
  rw [definedBits_eq]
  by_cases h : fieldOp w = 1#4
  · rw [h]
    exact BitVec.allOnes_and
  · rw [tableRow_mask_of_op_ne h, definedBits_and_opMask]

theorem tableRow_decodeWord_holds (w : CmdWord) : (tableRow (decodeWord w)).holds w = true := by
  have h := tableRow_holds_encode _ (decodeWord_wellFormed w)
  rwa [OpRow.holds, encode_decodeWord, BitVec.and_assoc, definedBits_and_mask] at h

/-- Two rows that agree on the bits they both look at are the same row. -/
theorem tableRows_disjoint :
    ∀ r ∈ tableRows, ∀ q ∈ tableRows, r.bits &&& q.mask = q.bits &&& r.mask → r = q := by decide

/-- Rows that a word belongs to agree on the bits they both look at. -/
theorem rows_agree_of_holds {r q : OpRow} {w : CmdWord} (hr : r.holds w = true) (hq : q.holds w = true) :
    r.bits &&& q.mask = q.bits &&& r.mask := by
  rw [← beq_iff_eq.1 hr, ← beq_iff_eq.1 hq, BitVec.and_assoc, BitVec.and_assoc, BitVec.and_comm r.mask]

/-- Settles O2: a word belongs to its command's row, as the command's word does, and the rows exclude each other. -/
theorem everyWordBelongsToExactlyOneRow : Obligations.EveryWordBelongsToExactlyOneRow := by
  intro w
  refine ⟨decodeWord_wellFormed w, tableRow_mem _, fun r hr => ⟨fun h => ?_, fun h => h ▸ tableRow_decodeWord_holds w⟩⟩
  exact tableRows_disjoint r hr _ (tableRow_mem _) (rows_agree_of_holds h (tableRow_decodeWord_holds w))

/-- Settles O4, by evaluating the decoder on the ten words. -/
theorem writtenOutWordsDecode : Obligations.WrittenOutWordsDecode := by
  unfold Obligations.WrittenOutWordsDecode
  decide

/-! ## The pseudo-instructions (R84) -/

theorem asmBlock_numeral {number : List Char} {n : BitVec 32} (h : asmField 32 number = some n) :
    asmBlock [number] = some (.process 1#8 n) := by
  rw [asmBlock, h, Option.map_some]

/-- A `PARAM_SET` and the `PROCESS` that commits it. -/
theorem execAll_param_process (p : Pid) (pos : BitVec 24) (x : F32) (c : BitVec 8) (n : BitVec 32) (s : State) :
    execAll [paramInstr p pos x, .process c n] s = .next (processBlock numerics c n (recordParam p x s)) := by
  rw [execAll_cons _ (execParam_eq p pos x s)]
  rfl

theorem processBlock_reg (num : Numerics) (c : BitVec 8) (n : BitVec 32) (s : State) :
    (processBlock num c n s).reg = committedBank s := by
  obtain ⟨-, -, -, -, hreg, -⟩ := processBlock_frame num c n s
  exact hreg

theorem wave_after_param_process {x : F32} {i : Fin 4} (h : waveIndex (clamp01 x) = i) (c : BitVec 8) (n : BitVec 32)
    (s : State) : ∃ t, execAll [.paramWave 0 x, .process c n] s = .next t ∧ t.reg.wave = i := by
  refine ⟨_, execAll_param_process .wave 0 x c n s, ?_⟩
  rw [processBlock_reg]
  exact h

theorem bypass_after_param_process {x : F32} {b : Bool} (h : bypassBit (clamp01 x) = b) (c : BitVec 8) (n : BitVec 32)
    (s : State) : ∃ t, execAll [.paramBypass 0 x, .process c n] s = .next t ∧ t.reg.bypass = b := by
  refine ⟨_, execAll_param_process .bypass 0 x c n s, ?_⟩
  rw [processBlock_reg]
  exact h

/-- Settles O60: the register after the commit is the clamped value's waveform index or bypass bit. -/
theorem pseudoInstructionsSetTheirRegister : Obligations.PseudoInstructionsSetTheirRegister := by
  refine ⟨⟨by decide, by decide, by decide, by decide, by decide, by decide, fun _ _ => asmBlock_numeral⟩, ?_⟩
  intro c n s
  exact ⟨wave_after_param_process (by decide +kernel) c n s, wave_after_param_process (by decide +kernel) c n s,
    wave_after_param_process (by decide +kernel) c n s, wave_after_param_process (by decide +kernel) c n s,
    bypass_after_param_process (by decide +kernel) c n s, bypass_after_param_process (by decide +kernel) c n s⟩

end Sys2Proof.Machine

/-! PROOFS. 40_oscillator.md: the waveforms (O32) and their range (O33), the phase that stays in [0, 2π) (O34), and the
frequency at a centred `FINE` (O35). `PhaseInRange` admits the pattern of `-0.0` besides those from `+0.0` up to below
`TWO_PI` (`phaseInRange_iff`), so a fact about a phase has these two cases. -/

namespace Sys2Proof.Machine

/-! ## Comparisons as comparisons of patterns -/

theorem f32Key_lt_of_flt {a b : F32} (h : flt a b = true) : f32Key a < f32Key b := by
  rw [flt, Bool.and_eq_true] at h
  exact of_decide_eq_true h.2

theorem f32Key_le_of_fle {a b : F32} (h : fle a b = true) : f32Key a ≤ f32Key b := by
  rw [fle, Bool.and_eq_true] at h
  exact of_decide_eq_true h.2

/-- A pattern that does not order below `+0.0` is its own key, or it is `-0.0`. -/
theorem f32Key_eq_toNat_or_negZero {x : F32} (h : 0 ≤ f32Key x) : f32Key x = x.toNat ∨ x = 0x80000000#32 := by
  cases hs : f32Sign x with
  | false =>
    have hlt : x.toNat < 0x80000000 := by simpa [f32Sign] using hs
    exact .inl (by simp [f32Key, hs, f32Low_of_lt hlt])
  | true =>
    have hlow : f32Low x = 0 := by
      simp only [f32Key, hs, if_true] at h
      omega
    exact .inr (eq_negZero_iff.mpr ⟨hs, f32Mag_eq_zero.mpr hlow⟩)

/-- Between `+0.0` and a finite non-negative bound lie the patterns below the bound, and `-0.0`. -/
theorem lt_or_negZero_of_le_of_flt {x b : F32} (hb : NonnegFinite b) (h0 : fle f0 x = true) (h : flt x b = true) :
    x.toNat < b.toNat ∨ x = 0x80000000#32 := by
  have hlt := f32Key_lt_of_flt h
  rw [f32Key_nonneg hb] at hlt
  rcases f32Key_eq_toNat_or_negZero (f32Key_le_of_fle h0) with hkey | hneg
  · exact .inl (by omega)
  · exact .inr hneg

theorem pos_and_lt_of_flt {x b : F32} (hb : NonnegFinite b) (h0 : fgt x f0 = true) (h : flt x b = true) :
    0 < x.toNat ∧ x.toNat < b.toNat := by
  have hpos : 0 < f32Key x := f32Key_lt_of_flt h0
  have hlt := f32Key_lt_of_flt h
  rw [f32Key_nonneg hb] at hlt
  rcases f32Key_eq_toNat_or_negZero (Int.le_of_lt hpos) with hkey | rfl
  · omega
  · exact absurd hpos (by decide)

/-- The range [-1.0, 1.0] is a bound on the magnitude. -/
theorem inRange_one_iff {x : F32} : inRange fNeg1 x f1 = true ↔ f32Low x ≤ 0x3F800000 := by
  have hlo : f32IsNaN fNeg1 = false ∧ f32Key fNeg1 = -0x3F800000 := by decide
  have hhi : f32IsNaN f1 = false ∧ f32Key f1 = 0x3F800000 := by decide
  have hkey : (f32Key x).natAbs = f32Low x := by
    unfold f32Key
    split <;> omega
  simp only [inRange, fle, hlo, hhi, Bool.and_eq_true, Bool.not_eq_true', decide_eq_true_eq, true_and, and_true]
  simp only [f32IsNaN, decide_eq_false_iff_not]
  omega

/-! ## The phase (R108, R109) -/

theorem phaseInRange_of_lt {x : F32} (h : x.toNat < fTwoPi.toNat) : PhaseInRange x := by
  have hfin : NonnegFinite x := Nat.lt_trans h (by decide)
  unfold PhaseInRange
  rw [fle_nonneg (by decide) hfin, flt_nonneg hfin (by decide)]
  exact ⟨decide_eq_true (Nat.zero_le _), decide_eq_true h⟩

theorem phaseInRange_iff {x : F32} : PhaseInRange x ↔ x.toNat < fTwoPi.toNat ∨ x = 0x80000000#32 := by
  constructor
  · rintro ⟨h0, h⟩
    exact lt_or_negZero_of_le_of_flt (by decide) h0 h
  · rintro (h | rfl)
    · exact phaseInRange_of_lt h
    · decide

theorem fadd_negZero {x : F32} (h : NonnegFinite x) (hpos : 0 < x.toNat) : fadd 0x80000000#32 x = x := by
  have hmag : 0 < magOfLow x.toNat := magOfLow_pos hpos
  have hfin : f32IsFinite x = true := decide_eq_true (by rwa [f32Low_nonneg h])
  have hsum : f32Int 0x80000000#32 + f32Int x = magOfLow x.toNat := by
    rw [f32Int_nonneg h, show f32Int 0x80000000#32 = 0 by decide, Int.zero_add]
  rw [fadd_eq_core (by decide) (f32IsNaN_nonneg h), faddCore_finite (by decide) hfin (by omega), hsum, Int.natAbs_natCast,
    roundLow_exact_one (Nat.le_of_lt h), decide_eq_false (by omega)]
  exact f32Pack_toNat_self (Nat.lt_trans h (by decide))

/-- The sum of a phase and an increment is at most twice the largest value below `TWO_PI`. -/
theorem phase_add_le {phase inc : F32} (hphase : PhaseInRange phase) (hpos : 0 < inc.toNat)
    (hinc : inc.toNat < fTwoPi.toNat) : (fadd phase inc).toNat ≤ 0x41490FDA := by
  rcases phaseInRange_iff.mp hphase with h | rfl
  · calc (fadd phase inc).toNat
      _ ≤ (fadd 0x40C90FDA#32 0x40C90FDA#32).toNat :=
        fadd_mono (by decide) (by decide) (Nat.le_of_lt_succ h) (Nat.le_of_lt_succ hinc)
      _ ≤ 0x41490FDA := by decide +kernel
  · rw [fadd_negZero (Nat.lt_trans hinc (by decide)) hpos]
    exact Nat.le_trans (Nat.le_of_lt hinc) (by decide)

/-- One advance: where the sum reaches `TWO_PI`, one subtraction brings it back below. -/
theorem nextPhase_inRange {phase inc : F32} (hphase : PhaseInRange phase) (h0 : fgt inc f0 = true)
    (hinc : flt inc fTwoPi = true) : PhaseInRange (nextPhase phase inc) := by
  obtain ⟨hpos, hlt⟩ := pos_and_lt_of_flt (by decide) h0 hinc
  have hsum := phase_add_le hphase hpos hlt
  have hfin : NonnegFinite (fadd phase inc) := Nat.lt_of_le_of_lt hsum (by decide)
  apply phaseInRange_of_lt
  unfold nextPhase
  simp only [fge, fle_nonneg (show NonnegFinite fTwoPi by decide) hfin, decide_eq_true_eq]
  split
  next hwrap =>
    calc (fsub (fadd phase inc) fTwoPi).toNat
      _ ≤ (fsub 0x41490FDA#32 fTwoPi).toNat := fsub_mono (by decide) (by decide) hwrap hsum (Nat.le_refl _)
      _ < fTwoPi.toNat := by decide +kernel
  next hbelow => exact Nat.lt_of_not_le hbelow

/-- A sample advances the phase once, or leaves it (R206, R207). -/
theorem sampleStep_phase (num : Numerics) (r : ParamBank) (b : BlockValues) (v : Voice) :
    (sampleStep num r b v).1.phase = nextPhase v.phase b.phaseInc ∨ (sampleStep num r b v).1.phase = v.phase := by
  obtain ⟨henv, -⟩ := envStep_frame v
  rcases sampleStep_cases num r b v with ⟨-, h⟩ | ⟨-, h⟩
  · obtain ⟨hphase, -⟩ := soundingSample_frame num r b (envStep v)
    exact .inl (by rw [h, hphase, henv])
  · exact .inr (by rw [h, henv])

theorem sampleStep_phaseInRange {num : Numerics} {r : ParamBank} {b : BlockValues} (h0 : fgt b.phaseInc f0 = true)
    (hinc : flt b.phaseInc fTwoPi = true) (v : Voice) (hv : PhaseInRange v.phase) :
    PhaseInRange (sampleStep num r b v).1.phase := by
  rcases sampleStep_phase num r b v with h | h <;> rw [h]
  · exact nextPhase_inRange hv h0 hinc
  · exact hv

theorem processBlock_phaseInRange {num : Numerics} (c : BitVec 8) (n : BitVec 32) {s : State}
    (hphase : PhaseInRange s.v.phase) (h0 : fgt (startValues num s).phaseInc f0 = true)
    (hinc : flt (startValues num s).phaseInc fTwoPi = true) : PhaseInRange (processBlock num c n s).v.phase := by
  have hstart : PhaseInRange (startVoice num s).phase := by rwa [startVoice, intakeVoice_phase]
  rcases processBlock_kind n s with hsilent | ⟨hsound, hn⟩
  · rwa [processBlock_silent hsilent]
  · rw [processBlock_sounding hsound hn]
    exact sampleLoop_keeps (fun v => PhaseInRange v.phase) (sampleStep_phaseInRange h0 hinc) n.toNat _ hstart

theorem powerOn_phaseInRange {c : Cfg} : PhaseInRange (State.powerOn c).v.phase :=
  show PhaseInRange f0 by decide

/-- Settles O34: a block advances the phase sample by sample, by the increment computed at its start. -/
theorem phaseStaysBelowTwoPi : Obligations.PhaseStaysBelowTwoPi := by
  refine ⟨fun _ _ => nextPhase_inRange, fun _ => powerOn_phaseInRange, ?_⟩
  intro c n s hphase h0 hinc
  rw [blockStart_eq] at h0 hinc
  exact ⟨_, rfl, processBlock_phaseInRange c n hphase h0 hinc⟩

/-! ## The range of the waveforms (R100 to R105) -/

theorem sin_inRange {x : F32} (h : f32IsFinite x = true) : inRange fNeg1 (numerics.sin x) f1 = true :=
  conformSin_inRange Config.rawSin h

theorem phaseInRange_finite {phase : F32} (h : PhaseInRange phase) : f32IsFinite phase = true := by
  rcases phaseInRange_iff.mp h with h | rfl
  · have hfin : NonnegFinite phase := Nat.lt_trans h (by decide)
    exact decide_eq_true (by rwa [f32Low_nonneg hfin])
  · decide

/-- `t` is in [0, 1]: a quotient of a value by one not below it. -/
theorem normPhase_inUnit {phase : F32} (h : phase.toNat < fTwoPi.toNat) : InUnit (normPhase phase) :=
  calc (normPhase phase).toNat
    _ ≤ (fdiv fTwoPi fTwoPi).toNat := fdiv_mono (by decide) (by decide) (by decide) (Nat.le_of_lt h) (Nat.le_refl _)
    _ ≤ 0x3F800000 := by decide +kernel

/-- Values at most `x` apart have a difference of magnitude at most `x`. -/
theorem f32Low_fsub_le {a b x : F32} (ha : NonnegFinite a) (hb : NonnegFinite b) (hx : NonnegFinite x)
    (hab : magOfLow a.toNat ≤ magOfLow b.toNat + magOfLow x.toNat)
    (hba : magOfLow b.toNat ≤ magOfLow a.toNat + magOfLow x.toNat) : f32Low (fsub a b) ≤ x.toNat := by
  rw [fsub_nonneg ha hb, f32Low_pack (roundLow_lt _ _)]
  exact roundLow_le Nat.one_pos (Nat.le_of_lt hx) (by omega)

/-- A value in [0, 2.0] less 1.0 is in [-1.0, 1.0]. -/
theorem fsub_one_inRange {a : F32} (h : a.toNat ≤ f2.toNat) : inRange fNeg1 (fsub a f1) f1 = true := by
  have hmag : magOfLow a.toNat ≤ magOfLow f1.toNat + magOfLow f1.toNat :=
    Nat.le_trans (magOfLow_le_iff.2 h) (by decide +kernel)
  exact inRange_one_iff.mpr
    (f32Low_fsub_le (x := f1) (Nat.lt_of_le_of_lt h (by decide)) (by decide) (by decide) hmag (Nat.le_add_left _ _))

theorem oscSaw_inRange {t : F32} (ht : InUnit t) : inRange fNeg1 (oscSaw t) f1 = true :=
  fsub_one_inRange (fmul_inUnit_le (by decide) ht)

theorem oscSquare_inRange (t : F32) : inRange fNeg1 (oscSquare t) f1 = true := by
  unfold oscSquare
  split <;> decide

theorem fabs_toNat (x : F32) : (fabs x).toNat = f32Low x := f32Pack_false_toNat (f32Low_lt x)

/-- The distance of a value in [0, 1] from 0.5 is at most 0.5. -/
theorem fabs_sub_half_le {t : F32} (ht : InUnit t) : (fabs (fsub t fHalf)).toNat ≤ fHalf.toNat := by
  have hmag : magOfLow t.toNat ≤ magOfLow fHalf.toNat + magOfLow fHalf.toNat :=
    Nat.le_trans (magOfLow_le_iff.2 ht) (by decide +kernel)
  rw [fabs_toNat]
  exact f32Low_fsub_le (inUnit_nonneg ht) (by decide) (by decide) hmag (Nat.le_add_left _ _)

theorem oscTriangle_inRange {t : F32} (ht : InUnit t) : inRange fNeg1 (oscTriangle t) f1 = true :=
  fsub_one_inRange
    (calc (fmul f4 (fabs (fsub t fHalf))).toNat
      _ ≤ (fmul f4 fHalf).toNat := fmul_mono (by decide) (by decide) (Nat.le_refl _) (fabs_sub_half_le ht)
      _ ≤ f2.toNat := by decide +kernel)

/-- A selector outside 0..3 gives the sine (60_exceptions.md R261). -/
theorem osc_of_four_le (num : Numerics) (phase : F32) {wave : Nat} (h : 4 ≤ wave) :
    osc num phase wave = num.sin phase := by
  unfold osc
  split
  case h_5 => rfl
  all_goals omega

/-- A waveform that depends on `t` and is in the range for every `t` in [0, 1] is in it for every phase, given that it is
for `-0.0`. -/
theorem wave_inRange {f : F32 → F32} (hf : ∀ {t}, InUnit t → inRange fNeg1 (f t) f1 = true)
    (hneg : inRange fNeg1 (f (normPhase 0x80000000#32)) f1 = true) {phase : F32} (h : PhaseInRange phase) :
    inRange fNeg1 (f (normPhase phase)) f1 = true := by
  rcases phaseInRange_iff.mp h with hlt | rfl
  · exact hf (normPhase_inUnit hlt)
  · exact hneg

/-- Settles O33, waveform by waveform: the sine by P1, the square by its two values, the others by the range of `t`. -/
theorem oscillatorStaysInRange : Obligations.OscillatorStaysInRange
  | _, 0, h => sin_inRange (phaseInRange_finite h)
  | _, 1, h => wave_inRange oscSaw_inRange (by decide +kernel) h
  | phase, 2, _ => oscSquare_inRange (normPhase phase)
  | _, 3, h => wave_inRange oscTriangle_inRange (by decide +kernel) h
  | phase, wave + 4, h => by
    rw [osc_of_four_le numerics phase (Nat.le_add_left 4 wave)]
    exact sin_inRange (phaseInRange_finite h)

/-- Settles O32: the formulas are the definitions, with `fneg f1` the pattern of -1.0, and the values are evaluated. -/
theorem waveformCornerValues : Obligations.WaveformCornerValues := by
  refine ⟨fun _ => ⟨rfl, rfl, rfl, rfl⟩, ?_, ?_, ?_, ?_, ?_, ?_, ?_, ?_, ?_, ?_,
    fun phase _ => osc_of_four_le numerics phase⟩
  all_goals decide +kernel

/-! ## The sounding frequency (R106) -/

/-- The factor of a centred `FINE` is `EXP2(+0.0)`, which P2 makes 1.0. -/
theorem exp2_centred_fine : numerics.exp2 (fdiv (fineCents fHalf) f1200) = f1 := by
  have hzero : fdiv (fineCents fHalf) f1200 = f0 := by decide +kernel
  rw [hzero]
  rfl

theorem finalFrequency_centred_fine {c : Cfg} {r : ParamBank} {v : Voice} {base : F32} (hfine : r.fine = fHalf)
    (hbase : baseFrequency numerics c.pitchMode r.freq v.noteFreq = base) (hfin : NonnegFinite base) :
    finalFrequency numerics c r v = base := by
  rw [finalFrequency, hbase, hfine, exp2_centred_fine, fmul_f1 hfin]

/-- The knob's frequency is finite: at most 20.0 × 1000.0. -/
theorem knobFrequency_finite {freq : F32} (h : InUnit freq) : NonnegFinite (fmul f20 (numerics.pow1000 freq)) :=
  calc (fmul f20 (numerics.pow1000 freq)).toNat
    _ ≤ (fmul f20 f1000).toNat := fmul_mono (by decide) (by decide) (Nat.le_refl _) (pow1000_le h)
    _ < 0x7F800000 := by decide +kernel

/-- Settles O35: a centred `FINE` multiplies by 1.0, and the base of either mode is finite and not negative. -/
theorem centredFineGivesTheBaseFrequency : Obligations.CentredFineGivesTheBaseFrequency := by
  intro c r v hfine
  have knob (hmode : c.pitchMode = .knob) (hfreq : InUnit r.freq) :
      finalFrequency numerics c r v = fmul f20 (numerics.pow1000 r.freq) :=
    finalFrequency_centred_fine hfine (by rw [hmode]; rfl) (knobFrequency_finite hfreq)
  refine ⟨knob, fun hmode hzero => ?_, fun hmode hnote => ?_⟩
  · rw [knob hmode (by rw [hzero]; decide), hzero]
    decide +kernel
  · exact finalFrequency_centred_fine hfine (by rw [hmode]; rfl) hnote

end Sys2Proof.Machine

/-! PROOFS. 41_envelope.md: the envelope step by the state it starts in (O28, O29, O30). On levels and rates in [0, 1] a sum
rounds to no less than its first operand and a difference above 0 to no more, so the level moves one way in each state. -/

namespace Sys2Proof.Machine

/-! ## The dispatch (R126) -/

theorem envStep_of_idle {v : Voice} (h : v.env = .idle) : envStep v = v := by
  simp only [envStep, h, idleStep]

theorem envStep_of_attack {v : Voice} (h : v.env = .attack) : envStep v = attackStep v := by
  simp only [envStep, h]

theorem envStep_of_release {v : Voice} (h : v.env = .release) : envStep v = releaseStep v := by
  simp only [envStep, h]

/-- Settles O30: the dispatch sends an idle voice to the step that writes nothing. -/
theorem idleStepWritesNothing : Obligations.IdleStepWritesNothing := fun _ => envStep_of_idle

/-! ## Sums and differences of non-negative values -/

theorem fle_of_toNat_le {a b : F32} (hb : NonnegFinite b) (h : a.toNat ≤ b.toNat) : fle a b = true := by
  rw [fle_nonneg (Nat.lt_of_le_of_lt h hb) hb]
  exact decide_eq_true h

/-- A sum of non-negative values is at least the first of them: the rounding does not go below a representable value. -/
theorem le_fadd {a b : F32} (ha : NonnegFinite a) (hb : NonnegFinite b) : a.toNat ≤ (fadd a b).toNat := by
  rw [fadd_toNat ha hb]
  exact le_roundLow Nat.one_pos (Nat.le_of_lt ha) (by omega)

theorem fsub_f0 {x : F32} (h : NonnegFinite x) : fsub x f0 = x := by
  apply BitVec.eq_of_toNat_eq
  calc (fsub x f0).toNat
    _ = roundLow (magOfLow x.toNat - magOfLow f0.toNat) 1 := fsub_toNat h (by decide) (Nat.zero_le _)
    _ = x.toNat := roundLow_exact_one (Nat.le_of_lt h)

/-- Among finite patterns with sign bit 0 only `+0.0` is `<= 0.0`. -/
theorem fle_f0_eq_false {x : F32} (h : NonnegFinite x) (h0 : x ≠ f0) : fle x f0 = false := by
  rw [fle_nonneg h (by decide)]
  exact decide_eq_false fun hle => h0 (BitVec.eq_of_toNat_eq (Nat.le_zero.mp hle))

/-! ## The level in Attack (R123, R127) -/

/-- The level does not fall, and stays in [0, 1]: it saturates, or the sum did not reach 1.0. -/
theorem attackStep_level_bounds {v : Voice} (hlevel : InUnit v.level) (hrate : InUnit v.attackRate) :
    v.level.toNat ≤ (attackStep v).level.toNat ∧ InUnit (attackStep v).level := by
  simp only [attackStep]
  split
  next => exact ⟨hlevel, Nat.le_refl _⟩
  next h =>
    exact ⟨le_fadd (inUnit_nonneg hlevel) (inUnit_nonneg hrate), fadd_inUnit hlevel hrate (Bool.eq_false_iff.mpr h)⟩

/-- Settles O28: the step is the definition, and its level is bounded by `attackStep_level_bounds`. -/
theorem attackStepRisesAndSaturates : Obligations.AttackStepRisesAndSaturates := by
  intro v henv
  rw [envStep_of_attack henv]
  refine ⟨rfl, fun hlevel hrate => ?_⟩
  obtain ⟨hrise, hunit⟩ := attackStep_level_bounds hlevel hrate
  exact ⟨fle_of_toNat_le (inUnit_nonneg hunit) hrise, hunit⟩

/-! ## The level in Release (R124, R127) -/

/-- The level does not rise: it becomes `+0.0`, or the difference was above 0. -/
theorem releaseStep_level_le {v : Voice} (hlevel : InUnit v.level) (hrate : InUnit v.releaseRate) :
    (releaseStep v).level.toNat ≤ v.level.toNat := by
  simp only [releaseStep]
  split
  next => exact Nat.zero_le _
  next h => exact fsub_le (inUnit_nonneg hlevel) (inUnit_nonneg hrate) (Bool.eq_false_iff.mpr h)

/-- With a zero rate a level above 0 is kept, and the release does not end (93_implementation_defined.md I11). -/
theorem releaseStep_zero_rate {v : Voice} (hlevel : InUnit v.level) (hpos : v.level ≠ f0) (hrate : v.releaseRate = f0) :
    releaseStep v = v := by
  have hkept : fsub v.level v.releaseRate = v.level := by rw [hrate, fsub_f0 (inUnit_nonneg hlevel)]
  have habove : fle v.level f0 = false := fle_f0_eq_false (inUnit_nonneg hlevel) hpos
  simp only [releaseStep, hkept, habove, Bool.false_eq_true, if_false]

/-- Settles O29: the step is the definition, its level is at most the old one and so in [0, 1], and a zero rate changes
nothing. -/
theorem releaseStepFallsToIdle : Obligations.ReleaseStepFallsToIdle := by
  intro v henv
  rw [envStep_of_release henv]
  refine ⟨rfl, fun hlevel hrate => ?_⟩
  have hfall := releaseStep_level_le hlevel hrate
  exact ⟨fle_of_toNat_le (inUnit_nonneg hlevel) hfall, Nat.le_trans hfall hlevel, releaseStep_zero_rate hlevel⟩

end Sys2Proof.Machine

/-! PROOFS. 42_filter.md: the filter step (O37), the range of the damping (O38), the Nyquist guard (O39) and the variant
without the filter (O41). The tangent's argument is at most the bound of P4 for this reason: the products of the limit and
of `PI` round up by at most a factor `2^24 / (2^24 - 1)` each (`roundLow_mag_le`), the bound leaves room for both
(`tanMax_covers_two_roundings`), and the rounding of the quotient does not pass a representable value. -/

namespace Sys2Proof.Machine

/-- Settles O37: the definition names the memory from before the step `c1` and `c2`. -/
theorem filterStepIsTheSourcesUpdate : Obligations.FilterStepIsTheSourcesUpdate := fun _ _ _ => rfl

/-! ## Damping (R143) -/

theorem inRange_of_toNat_le {lo x hi : F32} (hhi : NonnegFinite hi) (hlo : lo.toNat ≤ x.toNat)
    (h : x.toNat ≤ hi.toNat) : inRange lo x hi = true := by
  rw [inRange, fle_of_toNat_le (Nat.lt_of_le_of_lt h hhi) hlo, fle_of_toNat_le hhi h, Bool.and_self]

/-- What is subtracted from 2.0 is at most `2.0 × K_RES`. -/
theorem resonance_le {res : F32} (h : InUnit res) : (fmul (fmul f2 res) fKRes).toNat ≤ (fmul f2 fKRes).toNat :=
  fmul_mono (by decide) (by decide) (fmul_inUnit_le (by decide) h) (Nat.le_refl _)

/-- Settles O38: the difference falls as `RES` rises, so its range is from its value at 1.0 to `2.0 - 0.0`. -/
theorem dampingRange : Obligations.DampingRange := by
  intro res h
  have hres := resonance_le h
  have hmax : (fmul f2 fKRes).toNat ≤ f2.toNat := by decide +kernel
  apply inRange_of_toNat_le (by decide)
  · calc (0x3DCCCCD0#32).toNat
      _ ≤ (fsub f2 (fmul f2 fKRes)).toNat := by decide +kernel
      _ ≤ (dampingOf res).toNat :=
        fsub_mono (by decide) (Nat.lt_of_le_of_lt hmax (by decide)) hmax (Nat.le_refl _) hres
  · calc (dampingOf res).toNat
      _ ≤ (fsub f2 f0).toNat :=
        fsub_mono (by decide) (Nat.lt_of_le_of_lt (Nat.le_trans hres hmax) (by decide)) (Nat.le_trans hres hmax)
          (Nat.le_refl _) (Nat.zero_le _)
      _ ≤ f2.toNat := by decide +kernel

/-! ## The rounding error of a product -/

/-- A result that is not subnormal is at most `2^24 / (2^24 - 1)` times the exact value. -/
theorem roundLow_mag_le {n d : Nat} (hd : 0 < d) (h : 0x800000 ≤ roundLow n d) :
    magOfLow (roundLow n d) * d * (2 ^ 24 - 1) ≤ n * 2 ^ 24 := by
  have hinf := roundLow_le_inf n d
  have hmid := mt (roundLow_le_iff (n := n) hd (l := roundLow n d - 1) (by omega)).mpr (by omega)
  obtain ⟨e, k, hk, he, hpred⟩ := low_decomp (roundLow n d - 1)
  have hsucc : roundLow n d = 0x800000 * e + k + 1 := by omega
  rw [hpred, magOfLow_norm hk he, magOfLow_succ hk he] at hmid
  rw [hsucc, magOfLow_succ hk he]
  have hnormal : 2 ^ 23 - 1 ≤ k := by omega
  have hmid' : (2 * k + 1) * (2 ^ e * d) ≤ 2 * n := by
    have hexp : (k * 2 ^ e + (k + 1) * 2 ^ e) * d = (2 * k + 1) * (2 ^ e * d) := by ring
    rw [hexp] at hmid
    split at hmid <;> omega
  calc (k + 1) * 2 ^ e * d * (2 ^ 24 - 1)
    _ = (k + 1) * (2 ^ 24 - 1) * (2 ^ e * d) := by ring
    _ ≤ 2 ^ 23 * (2 * k + 1) * (2 ^ e * d) := Nat.mul_le_mul_right _ (by omega)
    _ = 2 ^ 23 * ((2 * k + 1) * (2 ^ e * d)) := Nat.mul_assoc ..
    _ ≤ 2 ^ 23 * (2 * n) := Nat.mul_le_mul_left _ hmid'
    _ = n * 2 ^ 24 := by ring

theorem fmul_mag_le {a b : F32} (ha : NonnegFinite a) (hb : NonnegFinite b) (h : 0x800000 ≤ (fmul a b).toNat) :
    magOfLow (fmul a b).toNat * 2 ^ 149 * (2 ^ 24 - 1) ≤ magOfLow a.toNat * magOfLow b.toNat * 2 ^ 24 := by
  rw [fmul_toNat ha hb] at h ⊢
  exact roundLow_mag_le (Nat.two_pow_pos 149) h

/-! ## The Nyquist guard (R141, R142) -/

theorem one_le_sampleRate (c : Cfg) : f1.toNat ≤ c.sampleRate.bits.toNat := (of_decide_eq_true c.sampleRate.ok).1

/-- P3 of 00_scope.md R12: on [0, 1] `POW1000` is at least 1.0. -/
theorem one_le_pow1000 {x : F32} (h : InUnit x) : f1.toNat ≤ (numerics.pow1000 x).toNat := by
  have hrange : inRange f1 (numerics.pow1000 x) f1000 = true :=
    conformPow1000_inRange Config.rawPow1000 (inRange_of_toNat_le (by decide) (Nat.zero_le _) h)
  have hfin : NonnegFinite (numerics.pow1000 x) := Nat.lt_of_le_of_lt (pow1000_le h) (by decide)
  rw [inRange, Bool.and_eq_true, fle_nonneg (by decide) hfin] at hrange
  exact of_decide_eq_true hrange.1

/-- The limit is at least 0.49, and finite. -/
theorem nyquistLimit_bounds (c : Cfg) :
    fKNyq.toNat ≤ (fmul fKNyq c.sampleRate.bits).toNat ∧ NonnegFinite (fmul fKNyq c.sampleRate.bits) := by
  have hrate := sampleRate_finite c
  constructor
  · calc fKNyq.toNat
      _ ≤ (fmul fKNyq f1).toNat := by decide +kernel
      _ ≤ (fmul fKNyq c.sampleRate.bits).toNat := fmul_mono (by decide) hrate (Nat.le_refl _) (one_le_sampleRate c)
  · calc (fmul fKNyq c.sampleRate.bits).toNat
      _ ≤ (fmul fKNyq 0x7F7FFFFF#32).toNat :=
        fmul_mono (by decide) (by decide) (Nat.le_refl _) (Nat.le_of_lt_succ hrate)
      _ < 0x7F800000 := by decide +kernel

/-- The frequency before the guard is at least 0.49 and at most 20000.0. -/
theorem knobFrequency_bounds {freq : F32} (h : InUnit freq) :
    fKNyq.toNat ≤ (fmul f20 (numerics.pow1000 freq)).toNat ∧
      (fmul f20 (numerics.pow1000 freq)).toNat ≤ (fmul f20 f1000).toNat := by
  have hpow := pow1000_le h
  constructor
  · calc fKNyq.toNat
      _ ≤ (fmul f20 f1).toNat := by decide +kernel
      _ ≤ (fmul f20 (numerics.pow1000 freq)).toNat :=
        fmul_mono (by decide) (Nat.lt_of_le_of_lt hpow (by decide)) (Nat.le_refl _) (one_le_pow1000 h)
  · exact fmul_mono (by decide) (by decide) (Nat.le_refl _) hpow

/-- The guard takes the smaller of the frequency and the limit. -/
theorem cutoffHz_toNat (c : Cfg) {freq : F32} (h : InUnit freq) :
    (cutoffHz numerics c freq).toNat =
      min (fmul f20 (numerics.pow1000 freq)).toNat (fmul fKNyq c.sampleRate.bits).toNat := by
  obtain ⟨-, hlim⟩ := nyquistLimit_bounds c
  simp only [cutoffHz, fgt, flt_nonneg hlim (knobFrequency_finite h), decide_eq_true_eq]
  split <;> omega

theorem cutoffHz_bounds (c : Cfg) {freq : F32} (h : InUnit freq) :
    fKNyq.toNat ≤ (cutoffHz numerics c freq).toNat ∧
      (cutoffHz numerics c freq).toNat ≤ (fmul fKNyq c.sampleRate.bits).toNat ∧
      (cutoffHz numerics c freq).toNat ≤ (fmul f20 f1000).toNat := by
  obtain ⟨hlimLow, -⟩ := nyquistLimit_bounds c
  obtain ⟨hlow, hhigh⟩ := knobFrequency_bounds h
  rw [cutoffHz_toNat c h]
  exact ⟨Nat.le_min.mpr ⟨hlow, hlimLow⟩, Nat.min_le_right _ _, Nat.le_trans (Nat.min_le_left _ _) hhigh⟩

/-! ## The tangent's argument (R141) -/

/-- `PI × K_NYQ`, raised twice by the rounding error of a product, is at most the bound of P4. -/
theorem tanMax_covers_two_roundings :
    magOfLow fPi.toNat * magOfLow fKNyq.toNat * (2 ^ 24 * 2 ^ 24) ≤
      magOfLow fTanMax.toNat * 2 ^ 149 * ((2 ^ 24 - 1) * (2 ^ 24 - 1)) := by decide +kernel

/-- `PI × fc` is at most the bound of P4 times the sample rate, as exact values. -/
theorem pi_mul_mag_le {fc rate : F32} (hrate : NonnegFinite rate) (hlim : NonnegFinite (fmul fKNyq rate))
    (hlow : fKNyq.toNat ≤ fc.toNat) (hfc : fc.toNat ≤ (fmul fKNyq rate).toNat)
    (hnormal : 0x800000 ≤ (fmul fPi fc).toNat) :
    magOfLow (fmul fPi fc).toNat * 2 ^ 149 ≤ magOfLow fTanMax.toNat * magOfLow rate.toNat := by
  have harg := fmul_mag_le (a := fPi) (by decide) (Nat.lt_of_le_of_lt hfc hlim) hnormal
  have hguard := fmul_mag_le (a := fKNyq) (by decide) hrate
    (Nat.le_trans (show 0x800000 ≤ fKNyq.toNat by decide) (Nat.le_trans hlow hfc))
  have hmag := magOfLow_le_iff.2 hfc
  refine Nat.le_of_mul_le_mul_right (c := 2 ^ 149 * (2 ^ 24 - 1) * (2 ^ 24 - 1)) ?_ (by decide)
  generalize magOfLow (fmul fPi fc).toNat = arg at harg ⊢
  generalize magOfLow (fmul fKNyq rate).toNat = lim at hguard hmag
  calc arg * 2 ^ 149 * (2 ^ 149 * (2 ^ 24 - 1) * (2 ^ 24 - 1))
    _ = arg * 2 ^ 149 * (2 ^ 24 - 1) * (2 ^ 149 * (2 ^ 24 - 1)) := by ring
    _ ≤ magOfLow fPi.toNat * lim * 2 ^ 24 * (2 ^ 149 * (2 ^ 24 - 1)) :=
      Nat.mul_le_mul_right _ (Nat.le_trans harg (Nat.mul_le_mul_right _ (Nat.mul_le_mul_left _ hmag)))
    _ = magOfLow fPi.toNat * 2 ^ 24 * (lim * 2 ^ 149 * (2 ^ 24 - 1)) := by ring
    _ ≤ magOfLow fPi.toNat * 2 ^ 24 * (magOfLow fKNyq.toNat * magOfLow rate.toNat * 2 ^ 24) :=
      Nat.mul_le_mul_left _ hguard
    _ = magOfLow fPi.toNat * magOfLow fKNyq.toNat * (2 ^ 24 * 2 ^ 24) * magOfLow rate.toNat := by ring
    _ ≤ magOfLow fTanMax.toNat * 2 ^ 149 * ((2 ^ 24 - 1) * (2 ^ 24 - 1)) * magOfLow rate.toNat :=
      Nat.mul_le_mul_right _ tanMax_covers_two_roundings
    _ = magOfLow fTanMax.toNat * magOfLow rate.toNat * (2 ^ 149 * (2 ^ 24 - 1) * (2 ^ 24 - 1)) := by ring

/-- The argument is above 0 and at most the bound of P4. -/
theorem tanArgument_bounds (c : Cfg) {freq : F32} (h : InUnit freq) :
    0 < (fdiv (fmul fPi (cutoffHz numerics c freq)) c.sampleRate.bits).toNat ∧
      (fdiv (fmul fPi (cutoffHz numerics c freq)) c.sampleRate.bits).toNat ≤ fTanMax.toNat := by
  obtain ⟨hlow, hguard, hhigh⟩ := cutoffHz_bounds c h
  obtain ⟨-, hlim⟩ := nyquistLimit_bounds c
  have hrate := sampleRate_finite c
  have hone := one_le_sampleRate c
  have hrate0 : c.sampleRate.bits.toNat ≠ 0 := Nat.ne_of_gt (Nat.lt_of_lt_of_le (by decide) hone)
  generalize cutoffHz numerics c freq = fc at hlow hguard hhigh ⊢
  have hprod : (fmul fPi fKNyq).toNat ≤ (fmul fPi fc).toNat :=
    fmul_mono (by decide) (Nat.lt_of_le_of_lt hguard hlim) (Nat.le_refl _) hlow
  have hfin : NonnegFinite (fmul fPi fc) :=
    calc (fmul fPi fc).toNat
      _ ≤ (fmul fPi (fmul f20 f1000)).toNat := fmul_mono (by decide) (by decide +kernel) (Nat.le_refl _) hhigh
      _ < 0x7F800000 := by decide +kernel
  constructor
  · calc 0
      _ < (fdiv (fmul fPi fKNyq) 0x7F7FFFFF#32).toNat := by decide +kernel
      _ ≤ (fdiv (fmul fPi fc) c.sampleRate.bits).toNat :=
        fdiv_mono hfin (by decide) hrate0 hprod (Nat.le_of_lt_succ hrate)
  · have hnormal : 0x800000 ≤ (fmul fPi fc).toNat :=
      Nat.le_trans (show 0x800000 ≤ (fmul fPi fKNyq).toNat by decide +kernel) hprod
    rw [fdiv_toNat hfin hrate hrate0]
    exact roundLow_le (magOfLow_pos (Nat.pos_of_ne_zero hrate0)) (by decide)
      (pi_mul_mag_le hrate hlim hlow hguard hnormal)

/-- Settles O39: the guard takes the smaller value, and the argument it leaves is where P4 speaks of `TAN`. -/
theorem nyquistGuardKeepsTheWarpFinite : Obligations.NyquistGuardKeepsTheWarpFinite := by
  intro c freq h
  obtain ⟨-, hguard, -⟩ := cutoffHz_bounds c h
  obtain ⟨-, hlim⟩ := nyquistLimit_bounds c
  obtain ⟨hpos, hmax⟩ := tanArgument_bounds c h
  constructor
  · rw [fgt, flt_nonneg hlim (Nat.lt_of_le_of_lt hguard hlim)]
    exact decide_eq_false (Nat.not_lt.mpr hguard)
  · refine conformTan_positive Config.rawTan ?_ (fle_of_toNat_le (by decide) hmax)
    rw [fgt, flt_nonneg (by decide) (Nat.lt_of_le_of_lt hmax (by decide))]
    exact decide_eq_true hpos

/-! ## The variant without the filter (R140) -/

section
variable {num : Numerics} {s : State}

theorem startValues_filter_none (h : s.cfg.filterEn = false) : (startValues num s).filter = none := by
  simp [startValues, blockValues, h]

/-- Without coefficients a sample leaves the filter memory. -/
theorem sampleStep_keeps_filterMemory (r : ParamBank) {b : BlockValues} (h : b.filter = none) (v : Voice) :
    (sampleStep num r b v).1.ic1 = v.ic1 ∧ (sampleStep num r b v).1.ic2 = v.ic2 := by
  obtain ⟨-, h1, h2, -⟩ := envStep_frame v
  rcases sampleStep_cases num r b v with ⟨-, hs⟩ | ⟨-, hs⟩ <;> rw [hs]
  · simp [soundingSample, filterSample, h, h1, h2]
  · exact ⟨h1, h2⟩

theorem processBlock_keeps_filterMemory (h : s.cfg.filterEn = false) (c : BitVec 8) (n : BitVec 32) :
    (processBlock num c n s).v.ic1 = s.v.ic1 ∧ (processBlock num c n s).v.ic2 = s.v.ic2 := by
  have hstart : (startVoice num s).ic1 = s.v.ic1 ∧ (startVoice num s).ic2 = s.v.ic2 :=
    ⟨intakeVoice_ic1 .., intakeVoice_ic2 ..⟩
  rcases processBlock_kind n s with hsilent | ⟨hsound, hn⟩
  · rw [processBlock_silent hsilent]
    exact hstart
  · rw [processBlock_sounding hsound hn]
    refine sampleLoop_keeps (fun v => v.ic1 = s.v.ic1 ∧ v.ic2 = s.v.ic2) (fun v hv => ?_) n.toNat _ hstart
    obtain ⟨h1, h2⟩ := sampleStep_keeps_filterMemory (committedBank s) (startValues_filter_none h) v
    exact ⟨h1.trans hv.1, h2.trans hv.2⟩

/-- The commit of a bank that differs in `RES` alone: `RES` is overwritten or kept, the other registers are the same. -/
theorem committedBank_with_res (x : F32) :
    committedBank { s with reg := { s.reg with res := x } } =
      { committedBank s with res := if s.pend.pvalid.res then (committedBank s).res else x } := by
  cases h : s.pend.pvalid.res <;> simp [committedBank, committedBypass, h]

/-- The note intake reads no `RES`. -/
theorem startVoice_with_res (x : F32) :
    startVoice num { s with reg := { s.reg with res := x } } = startVoice num s := by
  simp only [startVoice, committedBank_with_res]
  rfl

/-- The phase increment reads no `RES`. -/
theorem phaseIncrement_with_res (c : Cfg) (r : ParamBank) (v : Voice) (x : F32) :
    phaseIncrement num c { r with res := x } v = phaseIncrement num c r v := by
  simp only [phaseIncrement, finalFrequency]

/-- Of the values of a block only the coefficients read `RES`. -/
theorem startValues_with_res (h : s.cfg.filterEn = false) (x : F32) :
    startValues num { s with reg := { s.reg with res := x } } = startValues num s := by
  simp only [startValues, startVoice_with_res, committedBank_with_res, blockValues, phaseIncrement_with_res, h,
    Bool.false_eq_true, if_false]

/-- The sample loop reads `RES` only through the coefficients. -/
theorem sampleLoop_with_res (r : ParamBank) (b : BlockValues) (x : F32) (n : Nat) (v : Voice) :
    sampleLoop num { r with res := x } b n v = sampleLoop num r b n v := by
  induction n generalizing v with
  | zero => rfl
  | succ n ih =>
    have hstep : sampleStep num { r with res := x } b v = sampleStep num r b v := rfl
    rw [sampleLoop_succ, sampleLoop_succ, hstep, ih]

theorem blockLoop_with_res (h : s.cfg.filterEn = false) (n : BitVec 32) (x : F32) :
    blockLoop num n { s with reg := { s.reg with res := x } } = blockLoop num n s := by
  rw [blockLoop, startVoice_with_res, startValues_with_res h, committedBank_with_res, sampleLoop_with_res, blockLoop]

/-- Blocks from states that differ in `RES` alone end in states that differ at most in `RES`. -/
theorem processBlock_with_res (h : s.cfg.filterEn = false) (c : BitVec 8) (n : BitVec 32) (x : F32) :
    processBlock num c n { s with reg := { s.reg with res := x } } =
      { processBlock num c n s with
        reg := { committedBank s with res := if s.pend.pvalid.res then (committedBank s).res else x } } := by
  rcases processBlock_kind n s with hsilent | ⟨hsound, hn⟩
  · rw [processBlock_silent hsilent, processBlock_silent (s := { s with reg := { s.reg with res := x } }) hsilent,
      committedBank_with_res, startVoice_with_res]
  · rw [processBlock_sounding hsound hn,
      processBlock_sounding (s := { s with reg := { s.reg with res := x } }) hsound hn, committedBank_with_res,
      blockLoop_with_res h]

end

/-- Settles O41: without coefficients no sample writes the filter memory, and only the coefficients read `RES`. -/
theorem minimalVariantHasNoFilter : Obligations.MinimalVariantHasNoFilter := by
  intro c n s x h
  obtain ⟨h1, h2⟩ := processBlock_keeps_filterMemory (num := numerics) h c n
  refine ⟨_, rfl, h1, h2, ?_⟩
  rw [processBlock_reg]
  exact congrArg Host.Outcome.next (processBlock_with_res h c n x)

end Sys2Proof.Machine

/-! PROOFS. 43_parameter_intake.md: `PARAM_SET` (O12, O13, O14), the clamp and the mappings of a committed value (O16,
O17, O18), and what a commit leaves (O15, O19). A sequence of `PARAM_SET`s records, for each id, its last value
(`recordLast`), so it has the effect of its last change points. -/

namespace Sys2Proof.Machine

/-! ## `PARAM_SET` (R160 to R162) -/

theorem pidOfField_reserved {pid : BitVec 4} (h : 8 ≤ pid.toNat) : pidOfField pid = none := by
  unfold pidOfField
  split
  case h_9 => rfl
  all_goals omega

theorem exec_paramReserved {pid : BitVec 4} (h : 8 ≤ pid.toNat) (pos : BitVec 24) (value : F32) (s : State) :
    exec (.paramReserved pid pos value) s = .next s := by
  simp only [exec, execParamReserved, paramSet, pidOfField_reserved h]

/-- Settles O12: a register's `PARAM_SET` is `recordParam`, and the decoder gives an id from 8 up the reserved row. -/
theorem paramSetRecordsTheRawValue : Obligations.ParamSetRecordsTheRawValue := by
  refine ⟨fun p pos value s => ?_, fun pid pos value s h => ?_⟩
  · exact ⟨_, execParam_eq p pos value s, perPidGet_set_self .., perPidGet_set_self ..,
      fun q hq => ⟨perPidGet_set_of_ne _ hq value, perPidGet_set_of_ne _ hq true⟩,
      rfl, rfl, rfl, rfl, rfl, rfl, rfl, rfl⟩
  · rw [decodeParam_reserved (decide_eq_true h)]
    exact exec_paramReserved h pos value s

/-- Settles O13: a reserved id selects no register. -/
theorem reservedParameterIdChangesNothing : Obligations.ReservedParameterIdChangesNothing :=
  fun _ pos value s h => exec_paramReserved h pos value s

/-- A later change of the same id replaces an earlier one. -/
@[simp] theorem recordParam_recordParam (p : Pid) (x y : F32) (s : State) :
    recordParam p y (recordParam p x s) = recordParam p y s := by
  simp only [recordParam, perPidSet_set]

/-- Settles O14: `recordParam` takes no position, and its second write replaces the first. -/
theorem samplePositionHasNoEffect : Obligations.SamplePositionHasNoEffect := by
  refine ⟨fun p pos pos' value s => ?_, fun p pos1 pos2 x y s => ?_⟩
  · exact ⟨_, execParam_eq p pos value s, execParam_eq p pos' value s⟩
  · rw [execAll_cons _ (execParam_eq p pos1 x s), execAll_cons _ (execParam_eq p pos2 y _), execAll_nil,
      recordParam_recordParam, execParam_eq]

/-! ## The clamp and the bypass bit (R164, R166) -/

section
variable {a b c x : F32}

theorem flt_iff : flt a b = true ↔ f32IsNaN a = false ∧ f32IsNaN b = false ∧ f32Key a < f32Key b := by
  simp [flt, and_assoc]

theorem fle_iff : fle a b = true ↔ f32IsNaN a = false ∧ f32IsNaN b = false ∧ f32Key a ≤ f32Key b := by
  simp [fle, and_assoc]

theorem fle_of_flt (h : flt a b = true) : fle a b = true := by
  obtain ⟨ha, hb, hkey⟩ := flt_iff.mp h
  exact fle_iff.mpr ⟨ha, hb, Int.le_of_lt hkey⟩

theorem flt_of_flt_of_fle (hab : flt a b = true) (hbc : fle b c = true) : flt a c = true := by
  obtain ⟨ha, -, hkey⟩ := flt_iff.mp hab
  obtain ⟨-, hc, hkey'⟩ := fle_iff.mp hbc
  exact flt_iff.mpr ⟨ha, hc, Int.lt_of_lt_of_le hkey hkey'⟩

theorem fgt_eq_false_of_fle (h : fle a b = true) : fgt a b = false := by
  rw [Bool.eq_false_iff]
  intro hgt
  have := f32Key_lt_of_flt hgt
  have := f32Key_le_of_fle h
  omega

theorem fgt_eq_false_of_nan (h : f32IsNaN a = true) : fgt a b = false := by
  simp [fgt, flt, h]

theorem clamp01_of_fgt_one (h : fgt x f1 = true) : clamp01 x = f1 := if_pos h

theorem clamp01_of_fgt_zero (h0 : fgt x f0 = true) (h1 : fle x f1 = true) : clamp01 x = x := by
  simp [clamp01, h0, fgt_eq_false_of_fle h1]

/-- What is not above 0.0 is not above 1.0 either. -/
theorem clamp01_of_not_fgt_zero (h : fgt x f0 = false) : clamp01 x = f0 := by
  have h1 : fgt x f1 = false := by
    rw [Bool.eq_false_iff] at h ⊢
    exact fun hgt => h (flt_of_flt_of_fle (b := f1) (by decide) (fle_of_flt hgt))
  simp [clamp01, h, h1]

end

/-- Settles O16: a clause for each branch of the clamp; neither NaN nor what is `<= 0.0` is above 0.0. -/
theorem clampMapsEveryPatternIntoTheUnitRange : Obligations.ClampMapsEveryPatternIntoTheUnitRange := by
  intro x
  refine ⟨clamp01_of_fgt_one, clamp01_of_fgt_zero, fun h => clamp01_of_not_fgt_zero ?_, clamp01_inUnit x⟩
  rcases h with hnan | hle
  · exact fgt_eq_false_of_nan hnan
  · exact fgt_eq_false_of_fle hle

/-- Settles O18, by the place of the value: above 1.0 both sides hold, in (0.0, 1.0] the clamp keeps it, and elsewhere
neither side holds. -/
theorem bypassBitThreshold : Obligations.BypassBitThreshold := by
  intro x
  rcases clamp01_cases x with ⟨h1, hclamp⟩ | ⟨-, -, hclamp, -⟩ | ⟨h0, hclamp⟩ <;> rw [hclamp]
  · exact iff_of_true (by decide) (fle_of_flt (flt_of_flt_of_fle (b := f1) (by decide) (fle_of_flt h1)))
  · exact Iff.rfl
  · refine iff_of_false (by decide) fun hhalf => ?_
    have hpos : fgt x f0 = true := flt_of_flt_of_fle (b := fHalf) (by decide) hhalf
    rw [h0] at hpos
    cases hpos

/-! ## The waveform index (R165) -/

theorem roundHalfAway_mono {a b : F32} (hb : NonnegFinite b) (h : a.toNat ≤ b.toNat) :
    roundHalfAway a ≤ roundHalfAway b := by
  have ha : NonnegFinite a := Nat.lt_of_le_of_lt h hb
  have hmag := magOfLow_le_iff.mpr h
  simp only [roundHalfAway, f32Sign_nonneg ha, f32Sign_nonneg hb, f32Mag_nonneg ha, f32Mag_nonneg hb,
    Bool.false_eq_true, if_false]
  exact Int.ofNat_le.mpr (Nat.div_le_div_right (by omega))

/-- The index rises with the value. -/
theorem waveIndex_mono {a b : F32} (hb : InUnit b) (h : a.toNat ≤ b.toNat) : waveIndex a ≤ waveIndex b := by
  have hfin : NonnegFinite (fmul b f3) :=
    Nat.lt_of_le_of_lt (fmul_mono (a' := f1) (b' := f3) (by decide) (by decide) hb (Nat.le_refl _)) (by decide +kernel)
  have hround : roundHalfAway (fmul a f3) ≤ roundHalfAway (fmul b f3) :=
    roundHalfAway_mono hfin (fmul_mono (inUnit_nonneg hb) (by decide) h (Nat.le_refl _))
  simp only [waveIndex]
  generalize roundHalfAway (fmul a f3) = i at hround ⊢
  generalize roundHalfAway (fmul b f3) = j at hround ⊢
  split_ifs <;> omega

/-- Where the index is the same at both ends of a range, it is so on the whole range. -/
theorem waveIndex_eq_of_ends {lo hi x : F32} {i : Fin 4} (hhi : InUnit hi) (hlo : waveIndex lo = i)
    (hhi' : waveIndex hi = i) (h : lo.toNat ≤ x.toNat) (h' : x.toNat ≤ hi.toNat) : waveIndex x = i := by
  apply le_antisymm
  · exact hhi' ▸ waveIndex_mono hhi h'
  · exact hlo ▸ waveIndex_mono (Nat.le_trans h' hhi) h

/-- Settles O17, by evaluating the index at the ends of each range. -/
theorem waveIndexThresholds : Obligations.WaveIndexThresholds := by
  intro x hx
  refine ⟨fun h => ?_, fun h h' => ?_, fun h h' => ?_, fun h => ?_⟩
  · exact waveIndex_eq_of_ends (lo := f0) (hi := 0x3E2AAAAA#32) (by decide) (by decide +kernel) (by decide +kernel)
      (Nat.zero_le _) (Nat.le_of_lt_succ h)
  · exact waveIndex_eq_of_ends (lo := 0x3E2AAAAB#32) (hi := 0x3EFFFFFF#32) (by decide) (by decide +kernel)
      (by decide +kernel) h h'
  · exact waveIndex_eq_of_ends (lo := 0x3F000000#32) (hi := 0x3F555554#32) (by decide) (by decide +kernel)
      (by decide +kernel) h h'
  · exact waveIndex_eq_of_ends (lo := 0x3F555555#32) (hi := f1) (by decide) (by decide +kernel)
      (by decide +kernel) h hx

/-! ## The commit (R163) -/

/-- Settles O15: the bank after a `PROCESS` is the committed one, whatever the kind of block. -/
theorem commitWritesTheClampedPendingValues : Obligations.CommitWritesTheClampedPendingValues := by
  intro c n s
  obtain ⟨-, -, -, -, hreg, hpend⟩ := processBlock_frame numerics c n s
  refine ⟨_, rfl, ?_⟩
  rw [hreg, hpend]
  exact ⟨rfl, rfl, rfl, rfl, rfl, rfl, rfl, rfl, perPidGet_fill false, rfl⟩

/-! ## Sequences of change points (R168) -/

section
variable (p : Pid) (x : Pid × BitVec 24 × F32) (xs : List (Pid × BitVec 24 × F32)) (s : State)

/-- The last value of a sequence is its tail's, or else the head's where the head is of that id. -/
theorem lastValue_cons : lastValue p (x :: xs) = (lastValue p xs).or (if x.1 = p then some x.2.2 else none) := by
  rw [lastValue]
  cases lastValue p xs <;> rfl

theorem lastValue_isSome : (lastValue p xs).isSome = xs.any fun y => decide (y.1 = p) := by
  induction xs with
  | nil => rfl
  | cons x xs ih => by_cases h : x.1 = p <;> simp [lastValue_cons, ih, h]

/-- A point that is left out has a later one of its id, so no id's last value changes. -/
theorem lastValue_lastOnly : lastValue p (lastOnly xs) = lastValue p xs := by
  induction xs with
  | nil => rfl
  | cons x xs ih =>
    rw [lastOnly]
    split
    next hlater =>
      rw [ih, lastValue_cons]
      by_cases h : x.1 = p
      · rw [← lastValue_isSome, h] at hlater
        rw [Option.or_of_isSome hlater]
      · rw [if_neg h, Option.or_none]
    next => rw [lastValue_cons, ih, lastValue_cons]

/-- The per-id registers that read `f`. -/
def PerPid.ofFn {α : Type} (f : Pid → α) : PerPid α :=
  ⟨f .gain, f .freq, f .fine, f .res, f .wave, f .attack, f .release, f .bypass⟩

@[simp] theorem perPidGet_ofFn {α : Type} (f : Pid → α) (p : Pid) : perPidGet (PerPid.ofFn f) p = f p := by
  cases p <;> rfl

/-- The pending values after a sequence of change points: the last value of each id that has one. -/
def lastPval (a : PerPid F32) : PerPid F32 := PerPid.ofFn fun p => (lastValue p xs).getD (perPidGet a p)

/-- The flags after a sequence of change points. -/
def lastPvalid (a : PerPid Bool) : PerPid Bool := PerPid.ofFn fun p => (lastValue p xs).isSome || perPidGet a p

/-- A write before the sequence stands for its id unless the sequence has a point of that id. -/
theorem lastPval_perPidSet (a : PerPid F32) : lastPval xs (perPidSet a x.1 x.2.2) = lastPval (x :: xs) a := by
  apply PerPid.ext_get
  intro p
  by_cases h : p = x.1
  · subst h
    cases hlast : lastValue x.1 xs <;> simp [lastPval, lastValue_cons, hlast]
  · simp [lastPval, lastValue_cons, perPidGet_set_of_ne _ h, Ne.symm h]

theorem lastPvalid_perPidSet (a : PerPid Bool) : lastPvalid xs (perPidSet a x.1 true) = lastPvalid (x :: xs) a := by
  apply PerPid.ext_get
  intro p
  by_cases h : p = x.1
  · subst h
    simp [lastPvalid, lastValue_cons]
  · simp [lastPvalid, lastValue_cons, perPidGet_set_of_ne _ h, Ne.symm h]

/-- The state with the last value of each id of a sequence of change points pending. -/
def recordLast : State :=
  { s with pend := { s.pend with pval := lastPval xs s.pend.pval, pvalid := lastPvalid xs s.pend.pvalid } }

theorem recordLast_recordParam : recordLast xs (recordParam x.1 x.2.2 s) = recordLast (x :: xs) s := by
  simp only [recordLast, recordParam, lastPval_perPidSet, lastPvalid_perPidSet]

/-- The `PARAM_SET`s of a sequence of change points, as one update. -/
theorem execAll_changes : execAll (xs.map changeInstr) s = .next (recordLast xs s) := by
  induction xs generalizing s with
  | nil => rfl
  | cons x xs ih =>
    rw [List.map_cons, changeInstr, execAll_cons _ (execParam_eq x.1 x.2.1 x.2.2 s), ih, recordLast_recordParam]

theorem recordLast_lastOnly : recordLast (lastOnly xs) s = recordLast xs s := by
  simp only [recordLast, lastPval, lastPvalid, lastValue_lastOnly]

/-- With no change pending before, the commit after a sequence of change points writes its last values. -/
theorem commit_recordLast {α : Type} {s : State} (hclear : s.pend.pvalid = PerPid.fill false) (f : F32 → α)
    (old : α) :
    (if perPidGet (recordLast xs s).pend.pvalid p then f (perPidGet (recordLast xs s).pend.pval p) else old) =
      ((lastValue p xs).map f).getD old := by
  simp only [recordLast, lastPval, lastPvalid, perPidGet_ofFn, hclear, perPidGet_fill, Bool.or_false]
  cases lastValue p xs <;> rfl

end

/-- Settles O19: the state after the change points depends on their last values alone, and the commit writes these. -/
theorem lastParameterWriteWins : Obligations.LastParameterWriteWins := by
  intro xs s c n
  refine ⟨⟨_, execAll_changes xs s, ?_⟩, fun hclear => ?_⟩
  · rw [execAll_changes, recordLast_lastOnly]
  · refine ⟨_, (execAll_append _ (execAll_changes xs s)).trans rfl, ?_⟩
    rw [processBlock_reg]
    exact ⟨commit_recordLast .gain xs hclear clamp01 _, commit_recordLast .freq xs hclear clamp01 _,
      commit_recordLast .fine xs hclear clamp01 _, commit_recordLast .res xs hclear clamp01 _,
      commit_recordLast .wave xs hclear (fun x => waveIndex (clamp01 x)) _,
      commit_recordLast .attack xs hclear clamp01 _, commit_recordLast .release xs hclear clamp01 _,
      commit_recordLast .bypass xs hclear (fun x => bypassBit (clamp01 x)) _⟩

end Sys2Proof.Machine

/-! PROOFS. 44_note_events.md: what the note commands record (O21, O22), what the note intake makes of the record (O23,
O24, O25), and which frequency source a pitch mode reads (O36). Recording one more event and then taking the record in
is the same as taking it in and then applying the event (`intakeVoice_noteRecordAfter`), so O23 is an induction on the
events. -/

namespace Sys2Proof.Machine

/-! ## The note commands (R180, R181, R185) -/

theorem exec_noteOn (pitch vel : BitVec 7) (chan : BitVec 4) (s : State) :
    exec (.noteOn pitch vel chan) s = .next (setNoteRecord (noteRecordOn pitch s.pend.note) s) := rfl

theorem exec_noteOff (pitch vel : BitVec 7) (chan : BitVec 4) (s : State) :
    exec (.noteOff pitch vel chan) s = .next (setNoteRecord (noteRecordOff s.pend.note) s) := rfl

/-- Settles O21: a note command replaces the note record and nothing else. -/
theorem noteCommandsRecordTheirEvent : Obligations.NoteCommandsRecordTheirEvent := by
  intro pitch vel chan s
  refine ⟨⟨_, exec_noteOn pitch vel chan s, ?_⟩, ⟨_, exec_noteOff pitch vel chan s, ?_⟩⟩
  · simp [noteRecordOn]
  · simp [noteRecordOff]

/-- Settles O22: the new record takes nothing of the command but the pitch of a `NOTE_ON`. -/
theorem ignoredNoteFieldsHaveNoEffect : Obligations.IgnoredNoteFieldsHaveNoEffect :=
  ⟨fun pitch vel vel' chan chan' s => ⟨_, exec_noteOn pitch vel chan s, exec_noteOn pitch vel' chan' s⟩,
    fun pitch pitch' vel vel' chan chan' s => ⟨_, exec_noteOff pitch vel chan s, exec_noteOff pitch' vel' chan' s⟩⟩

/-! ## The voice after the intake (R182) -/

/-- `ENV` after the note intake of the record `k`: what the last event says, or what the flags say if it is NONE. -/
def intakeEnv (k : NoteRecord) (env : Env) : Env :=
  match k.last with
  | .on => .attack
  | .off => .release
  | .none => if k.offSeen then .release else if k.onSeen then .attack else env

/-- **The note intake**: each register on its own. -/
theorem intakeVoice_eq (num : Numerics) (c : Cfg) (r : ParamBank) (k : NoteRecord) (v : Voice) :
    intakeVoice num c r k v =
      { v with
        env := intakeEnv k v.env
        attackRate := if k.onSeen then attackRateOf c r.attack else v.attackRate
        releaseRate := if k.offSeen then releaseRateOf c r.release v.level else v.releaseRate
        noteFreq := if k.onSeen then noteFrequency num k.pitch else v.noteFreq } := by
  obtain ⟨last, onSeen, pitch, offSeen⟩ := k
  cases last <;> cases onSeen <;> cases offSeen <;>
    simp [intakeVoice, intakeLast, intakeOff, intakeOn, onNoteOn, onNoteOff, intakeEnv]

/-! ## The record and the arrival order (R184) -/

section
variable (num : Numerics) (c : Cfg) (r : ParamBank) (k : NoteRecord) (v : Voice) (evs : List NoteEvent)

/-- The note record after a sequence of events. -/
def noteRecordAll : NoteRecord := evs.foldl (fun k e => noteRecordAfter e k) k

theorem noteRecordAll_cons (e : NoteEvent) : noteRecordAll k (e :: evs) = noteRecordAll (noteRecordAfter e k) evs := rfl

/-- The note commands of a sequence of events, as one update. -/
theorem execAll_notes (s : State) :
    execAll (evs.map noteInstr) s = .next (setNoteRecord (noteRecordAll s.pend.note evs) s) := by
  induction evs generalizing s with
  | nil => rfl
  | cons e evs ih =>
    rw [List.map_cons, execAll_cons _ (execNote_eq e s), ih, noteRecordAll_cons]
    rfl

/-- An event that is recorded last acts last: both triggers read the level, and no trigger writes it. -/
theorem intakeVoice_noteRecordAfter (e : NoteEvent) :
    intakeVoice num c r (noteRecordAfter e k) v = applyNote num c r (intakeVoice num c r k v) e := by
  rw [intakeVoice_eq, intakeVoice_eq]
  cases e with
  | on pitch => rfl
  | off => rfl

theorem intakeVoice_noteRecordAll :
    intakeVoice num c r (noteRecordAll k evs) v = evs.foldl (applyNote num c r) (intakeVoice num c r k v) := by
  induction evs generalizing k with
  | nil => rfl
  | cons e evs ih => rw [noteRecordAll_cons, ih, intakeVoice_noteRecordAfter, List.foldl_cons]

/-- With an empty record before them, a block starts from the voice that its events applied in order give. -/
theorem startVoice_noteRecordAll {s : State} (h : s.pend.note = NoteRecord.empty) :
    startVoice num (setNoteRecord (noteRecordAll s.pend.note evs) s) =
      evs.foldl (applyNote num s.cfg (committedBank s)) s.v := by
  refine (intakeVoice_noteRecordAll num s.cfg (committedBank s) s.pend.note s.v evs).trans ?_
  rw [h, intakeVoice_empty]

end

/-- Settles O23: an empty block leaves the voice it starts from. -/
theorem noteRecordAgreesWithArrivalOrder : Obligations.NoteRecordAgreesWithArrivalOrder := by
  intro evs s c hempty
  have hstart := startVoice_noteRecordAll numerics evs hempty
  refine ⟨_, _, execAll_notes evs s, rfl, ?_, ?_⟩
  · rw [processBlock_reg, blockStart_eq]
    exact hstart
  · rw [processBlock_reg, processBlock_silent (.inr rfl)]
    exact hstart

/-! ## What a `PROCESS` does with the record (R182, R183) -/

/-- No sample writes the note frequency or a rate: a block leaves those it starts with. -/
theorem processBlock_keeps_rates (num : Numerics) (c : BitVec 8) (n : BitVec 32) (s : State) :
    (processBlock num c n s).v.noteFreq = (startVoice num s).noteFreq ∧
      (processBlock num c n s).v.attackRate = (startVoice num s).attackRate ∧
      (processBlock num c n s).v.releaseRate = (startVoice num s).releaseRate := by
  rcases processBlock_kind n s with hsilent | ⟨hsound, hn⟩
  · rw [processBlock_silent hsilent]
    exact ⟨rfl, rfl, rfl⟩
  · rw [processBlock_sounding hsound hn]
    refine sampleLoop_keeps (fun v => v.noteFreq = (startVoice num s).noteFreq ∧
      v.attackRate = (startVoice num s).attackRate ∧ v.releaseRate = (startVoice num s).releaseRate)
      (fun v ⟨hfreq, hattack, hrelease⟩ => ?_) n.toNat _ ⟨rfl, rfl, rfl⟩
    obtain ⟨-, -, ha, hr, hf⟩ := sampleStep_env num (committedBank s) (startValues num s) v
    exact ⟨hf.trans hfreq, ha.trans hattack, hr.trans hrelease⟩

/-- Settles O24: each register of the voice that the block starts from, and after the block those no sample writes. -/
theorem noteIntakeAppliesTheRecord : Obligations.NoteIntakeAppliesTheRecord := by
  intro c n s
  obtain ⟨hfreq, hattack, hrelease⟩ := processBlock_keeps_rates numerics c n s
  obtain ⟨-, -, -, -, hreg, hpend⟩ := processBlock_frame numerics c n s
  refine ⟨_, rfl, ?_, ?_, ?_, ?_, ?_⟩
  · exact hfreq.trans (intakeVoice_noteFreq ..)
  · rw [hreg]
    exact hattack.trans (intakeVoice_attackRate ..)
  · rw [hreg]
    exact hrelease.trans (intakeVoice_releaseRate ..)
  · rw [hpend]
    rfl
  · rintro v rfl
    rw [blockStart_eq]
    have henv : (startVoice numerics s).env = intakeEnv s.pend.note s.v.env := by rw [startVoice, intakeVoice_eq]
    refine ⟨fun hlast => ?_, fun hlast => ?_, fun hlast => ?_, hfreq.symm, hattack.symm, hrelease.symm,
      intakeVoice_level .., intakeVoice_phase .., intakeVoice_ic1 .., intakeVoice_ic2 .., fun hsilent => ?_⟩
    · rw [henv, intakeEnv, hlast]
    · rw [henv, intakeEnv, hlast]
    · rw [henv, intakeEnv, hlast]
    · rw [processBlock_silent hsilent]

/-- `NFREQ(69)` is 440.0 × `EXP2(+0.0)`, which P2 makes 440.0 × 1.0. -/
theorem noteFrequency_69 : noteFrequency numerics 69#7 = f440 := by
  have hzero : fdiv (floatOfInt (((69#7).toNat : Int) - 69)) f12 = f0 := by decide +kernel
  have hexp : numerics.exp2 f0 = f1 := rfl
  rw [noteFrequency, hzero, hexp, fmul_f1 (by decide)]

/-- Settles O25: the record of a `NOTE_ON` has `ON_SEEN` set and its pitch. -/
theorem noteOnSetsTheMidiFrequency : Obligations.NoteOnSetsTheMidiFrequency := by
  refine ⟨fun pitch vel chan c n s => ?_, noteFrequency_69⟩
  refine ⟨_, execAll_cons _ (exec_noteOn pitch vel chan s), ?_⟩
  obtain ⟨hfreq, -, -⟩ := processBlock_keeps_rates numerics c n (setNoteRecord (noteRecordOn pitch s.pend.note) s)
  exact hfreq.trans (intakeVoice_noteFreq ..)

/-! ## KNOB mode: no rule reads `NOTE_FREQ` (R186) -/

section
variable {num : Numerics} {s : State}

/-- The note intake writes `NOTE_FREQ` where it saw a `NOTE_ON`, and reads it nowhere. -/
theorem startVoice_with_noteFreq (x : F32) :
    startVoice num { s with v := { s.v with noteFreq := x } } =
      { startVoice num s with noteFreq := if s.pend.note.onSeen then (startVoice num s).noteFreq else x } := by
  have hbank : committedBank { s with v := { s.v with noteFreq := x } } = committedBank s := rfl
  simp only [startVoice, hbank, intakeVoice_eq]
  cases s.pend.note.onSeen <;> rfl

/-- The knob's base frequency, and with it the phase increment, reads no `NOTE_FREQ`. -/
theorem phaseIncrement_with_noteFreq {c : Cfg} (h : c.pitchMode = .knob) (r : ParamBank) (v : Voice) (x : F32) :
    phaseIncrement num c r { v with noteFreq := x } = phaseIncrement num c r v := by
  simp only [phaseIncrement, finalFrequency, h, baseFrequency]

theorem startValues_with_noteFreq (h : s.cfg.pitchMode = .knob) (x : F32) :
    startValues num { s with v := { s.v with noteFreq := x } } = startValues num s := by
  have hbank : committedBank { s with v := { s.v with noteFreq := x } } = committedBank s := rfl
  simp only [startValues, startVoice_with_noteFreq, hbank, blockValues, phaseIncrement_with_noteFreq h]

theorem envStep_with_noteFreq (v : Voice) (x : F32) :
    envStep { v with noteFreq := x } = { envStep v with noteFreq := x } := by
  obtain ⟨phase, level, env, ic1, ic2, attackRate, releaseRate, noteFreq⟩ := v
  cases env with
  | idle => rfl
  | attack => rfl
  | release =>
    simp only [envStep, releaseStep]
    split <;> rfl

theorem soundingSample_with_noteFreq (r : ParamBank) (b : BlockValues) (v : Voice) (x : F32) :
    soundingSample num r b { v with noteFreq := x } =
      ({ (soundingSample num r b v).1 with noteFreq := x }, (soundingSample num r b v).2) := by
  simp only [soundingSample, filterSample]
  cases b.filter <;> rfl

/-- A sample passes `NOTE_FREQ` through. -/
theorem sampleStep_with_noteFreq (r : ParamBank) (b : BlockValues) (v : Voice) (x : F32) :
    sampleStep num r b { v with noteFreq := x } =
      ({ (sampleStep num r b v).1 with noteFreq := x }, (sampleStep num r b v).2) := by
  simp only [sampleStep, envStep_with_noteFreq, soundingSample_with_noteFreq]
  split <;> rfl

theorem sampleLoop_with_noteFreq (r : ParamBank) (b : BlockValues) (x : F32) (n : Nat) (v : Voice) :
    sampleLoop num r b n { v with noteFreq := x } =
      ({ (sampleLoop num r b n v).1 with noteFreq := x }, (sampleLoop num r b n v).2) := by
  induction n generalizing v with
  | zero => rfl
  | succ n ih => rw [sampleLoop_succ, sampleLoop_succ, sampleStep_with_noteFreq, ih]

theorem blockLoop_with_noteFreq (h : s.cfg.pitchMode = .knob) (n : BitVec 32) (x : F32) :
    blockLoop num n { s with v := { s.v with noteFreq := x } } =
      ({ (blockLoop num n s).1 with noteFreq := if s.pend.note.onSeen then (startVoice num s).noteFreq else x },
        (blockLoop num n s).2) := by
  rw [blockLoop, startVoice_with_noteFreq, startValues_with_noteFreq h, sampleLoop_with_noteFreq]
  rfl

/-- In KNOB mode, blocks from states that differ in `NOTE_FREQ` alone end in states that differ at most there. -/
theorem processBlock_with_noteFreq (h : s.cfg.pitchMode = .knob) (c : BitVec 8) (n : BitVec 32) (x : F32) :
    processBlock num c n { s with v := { s.v with noteFreq := x } } =
      { processBlock num c n s with
        v := { (processBlock num c n s).v with
          noteFreq := if s.pend.note.onSeen then (startVoice num s).noteFreq else x } } := by
  rcases processBlock_kind n s with hsilent | ⟨hsound, hn⟩
  · rw [processBlock_silent hsilent, processBlock_silent (s := { s with v := { s.v with noteFreq := x } }) hsilent,
      startVoice_with_noteFreq]
    rfl
  · rw [processBlock_sounding hsound hn,
      processBlock_sounding (s := { s with v := { s.v with noteFreq := x } }) hsound hn, blockLoop_with_noteFreq h]
    rfl

/-! ## NOTE mode without the filter: no rule reads `FREQ` (R186) -/

/-- The sample loop reads two registers of the bank; the others act through the values of the block. -/
theorem sampleLoop_congr {r r' : ParamBank} (hgain : r.gain = r'.gain) (hwave : r.wave = r'.wave) (b : BlockValues)
    (n : Nat) (v : Voice) : sampleLoop num r b n v = sampleLoop num r' b n v := by
  induction n generalizing v with
  | zero => rfl
  | succ n ih =>
    have hstep : sampleStep num r b v = sampleStep num r' b v := by
      simp only [sampleStep, soundingSample, hgain, hwave]
    rw [sampleLoop_succ, sampleLoop_succ, hstep, ih]

/-- The commit of a bank that differs in `FREQ` alone overwrites `FREQ` or keeps it; it leaves the others the same. -/
theorem committedBank_with_freq (x : F32) :
    committedBank { s with reg := { s.reg with freq := x } } =
      { committedBank s with freq := if s.pend.pvalid.freq then (committedBank s).freq else x } := by
  cases h : s.pend.pvalid.freq <;> simp [committedBank, committedBypass, h]

theorem startVoice_with_freq (x : F32) :
    startVoice num { s with reg := { s.reg with freq := x } } = startVoice num s := by
  simp only [startVoice, committedBank_with_freq]
  rfl

/-- The pitch and the coefficients are all that `FREQ` can act on. -/
theorem startValues_with_freq (hmode : s.cfg.pitchMode = .note) (hfilter : s.cfg.filterEn = false) (x : F32) :
    startValues num { s with reg := { s.reg with freq := x } } = startValues num s := by
  simp only [startValues, startVoice_with_freq, committedBank_with_freq, blockValues, phaseIncrement, finalFrequency,
    hmode, baseFrequency, hfilter, Bool.false_eq_true, if_false]

theorem blockLoop_with_freq (hmode : s.cfg.pitchMode = .note) (hfilter : s.cfg.filterEn = false) (n : BitVec 32)
    (x : F32) : blockLoop num n { s with reg := { s.reg with freq := x } } = blockLoop num n s := by
  rw [blockLoop, startVoice_with_freq, startValues_with_freq hmode hfilter, committedBank_with_freq]
  exact sampleLoop_congr (by rfl) (by rfl) ..

/-- In NOTE mode without the filter, blocks from states that differ in `FREQ` alone end in states that differ at most
there. -/
theorem processBlock_with_freq (hmode : s.cfg.pitchMode = .note) (hfilter : s.cfg.filterEn = false) (c : BitVec 8)
    (n : BitVec 32) (x : F32) :
    processBlock num c n { s with reg := { s.reg with freq := x } } =
      { processBlock num c n s with
        reg := { committedBank s with freq := if s.pend.pvalid.freq then (committedBank s).freq else x } } := by
  rcases processBlock_kind n s with hsilent | ⟨hsound, hn⟩
  · rw [processBlock_silent hsilent, processBlock_silent (s := { s with reg := { s.reg with freq := x } }) hsilent,
      committedBank_with_freq, startVoice_with_freq]
  · rw [processBlock_sounding hsound hn,
      processBlock_sounding (s := { s with reg := { s.reg with freq := x } }) hsound hn, committedBank_with_freq,
      blockLoop_with_freq hmode hfilter]

end

/-- Settles O36: the frequency source that the mode does not select is written or kept, and read by no sample. -/
theorem pitchModeSelectsOneFrequencySource : Obligations.PitchModeSelectsOneFrequencySource := by
  refine ⟨fun c n s x hmode => ⟨_, rfl, ?_⟩, fun c n s x hmode hfilter => ⟨_, rfl, ?_⟩⟩
  · obtain ⟨hfreq, -, -⟩ := processBlock_keeps_rates numerics c n s
    rw [hfreq]
    exact congrArg Host.Outcome.next (processBlock_with_noteFreq hmode c n x)
  · rw [processBlock_reg]
    exact congrArg Host.Outcome.next (processBlock_with_freq hmode hfilter c n x)

end Sys2Proof.Machine

/-! PROOFS. 45_process_block.md: the words of a block (O42, O49), the bypassed or empty block (O44), the sample loop and
its two paths (O45, O46, O47), and silence (O48, O50). `processBlock_eq` says what both kinds of block have in common,
so that the statements about every `PROCESS` need no case for each kind. -/

namespace Sys2Proof.Machine

/-! ## The STATUS word and the silence flag (R209, R210) -/

theorem statusWord_toNat (silent : Bool) (c : BitVec 8) (n : BitVec 32) :
    (statusWord silent c n).toNat = silent.toNat * 2 ^ 63 + c.toNat * 2 ^ 32 + n.toNat := by
  simp only [statusWord, append_toNat]
  cases silent with
  | false => simp
  | true => simp; omega

theorem statusWord_field_toNat (silent : Bool) (c : BitVec 8) (n : BitVec 32) (lo len : Nat) :
    ((statusWord silent c n).extractLsb' lo len).toNat =
      (silent.toNat * 2 ^ 63 + c.toNat * 2 ^ 32 + n.toNat) / 2 ^ lo % 2 ^ len := by
  rw [← statusWord_toNat]
  exact field_toNat (statusWord silent c n) lo len

theorem statusWord_silent (silent : Bool) (c : BitVec 8) (n : BitVec 32) :
    (statusWord silent c n).extractLsb' 63 1 = if silent then 1#1 else 0#1 := by
  refine BitVec.eq_of_toNat_eq ((statusWord_field_toNat ..).trans ?_)
  cases silent with
  | false => simp; omega
  | true => simp; omega

/-- The other fields of a STATUS word: the reserved bits, `C` and `N`. -/
theorem statusWord_fields (silent : Bool) (c : BitVec 8) (n : BitVec 32) :
    (statusWord silent c n).extractLsb' 40 23 = 0#23 ∧ (statusWord silent c n).extractLsb' 32 8 = c ∧
      (statusWord silent c n).extractLsb' 0 32 = n := by
  have hsilent : silent.toNat ≤ 1 := silent.toNat_le
  refine ⟨BitVec.eq_of_toNat_eq ?_, BitVec.eq_of_toNat_eq ?_, BitVec.eq_of_toNat_eq ?_⟩
  · rw [statusWord_field_toNat, BitVec.toNat_ofNat]; omega
  · rw [statusWord_field_toNat]; omega
  · rw [statusWord_field_toNat]; omega

theorem silentFlag_iff {env : Env} {ys : List F32} :
    silentFlag env ys = true ↔ env = .idle ∧ ∀ y ∈ ys, feq y f0 = true := by
  simp [silentFlag, anyNonzero, fne]

theorem feq_f0_self : feq f0 f0 = true := by decide

/-- What is numerically 0 is one of the two zeros. -/
theorem eq_zero_of_feq_f0 {y : F32} (h : feq y f0 = true) : y = 0x00000000#32 ∨ y = 0x80000000#32 := by
  have hkey : f32Key f0 = 0 := by decide
  simp only [feq, hkey, Bool.and_eq_true, decide_eq_true_eq] at h
  rcases f32Key_eq_toNat_or_negZero (Int.le_of_eq h.2.symm) with hy | hy
  · exact .inl (BitVec.eq_of_toNat_eq (by simpa [h.2] using hy.symm))
  · exact .inr hy

/-! ## The fan-out (R208) -/

theorem getElem?_flatMap_replicate {m ch : Nat} (hch : ch < m) (ys : List F32) (k : Nat) :
    (ys.flatMap fun y => List.replicate m y)[k * m + ch]? = ys[k]? := by
  induction ys generalizing k with
  | nil => rfl
  | cons y ys ih =>
    rw [List.flatMap_cons]
    cases k with
    | zero => simp [List.getElem?_append_left, hch]
    | succ k =>
      have hsplit : (k + 1) * m + ch = m + (k * m + ch) := by ring
      rw [hsplit, List.getElem?_append_right (by simp), List.length_replicate, Nat.add_sub_cancel_left, ih]
      rfl

theorem mem_of_mem_flatMap_replicate {m : Nat} {y : F32} {ys : List F32}
    (h : y ∈ ys.flatMap fun y => List.replicate m y) : y ∈ ys := by
  obtain ⟨x, hx, hy⟩ := List.mem_flatMap.1 h
  exact List.eq_of_mem_replicate hy ▸ hx

/-- Samples that are all equal fan out to words that are all equal. -/
theorem flatMap_replicate_replicate (m n : Nat) (y : F32) :
    ((List.replicate n y).flatMap fun y => List.replicate m y) = List.replicate (m * n) y := by
  rw [List.flatMap_def, List.map_replicate, List.flatten_replicate_replicate, Nat.mul_comm]

/-! ## Both kinds of block -/

section
variable (num : Numerics) (n : BitVec 32) (s : State)

/-- The voice after a block and the samples of the block, of either kind. -/
def blockResult : Voice × List F32 :=
  if committedBypass s = true ∨ n = 0#32 then (startVoice num s, List.replicate n.toNat f0) else blockLoop num n s

/-- `SILENT` of a block of either kind (R203, R209). -/
def blockSilent : Bool :=
  decide (committedBypass s = true ∨ n = 0#32) || silentFlag (blockResult num n s).1.env (blockResult num n s).2

/-- The OUT words of a block (R208): each sample on all channels. -/
def blockWords (c : BitVec 8) : List OutWord := (blockResult num n s).2.flatMap fun y => List.replicate c.toNat y

theorem blockResult_length : (blockResult num n s).2.length = n.toNat := by
  unfold blockResult
  split
  · exact List.length_replicate
  · exact sampleLoop_length ..

/-- **The block** (R203 to R210): the channel count acts on the offered words alone. -/
theorem processBlock_eq (c : BitVec 8) :
    processBlock num c n s =
      { s with
        reg := committedBank s
        v := (blockResult num n s).1
        pend := { pvalid := PerPid.fill false, pval := s.pend.pval, note := NoteRecord.empty }
        offered := s.offered ++
          ((blockWords num n s c).map .out ++ [.status (statusWord (blockSilent num n s) c n)]) } := by
  by_cases h : committedBypass s = true ∨ n = 0#32
  · rw [processBlock_silent h, fanOut_eq_map]
    simp only [blockWords, blockSilent, blockResult, h, if_true, decide_true, Bool.true_or]
  · have hsound : committedBypass s = false ∧ n ≠ 0#32 := by simpa [not_or] using h
    rw [processBlock_sounding hsound.1 hsound.2, fanOut_eq_map]
    simp only [blockWords, blockSilent, blockResult, h, if_false, decide_false, Bool.false_or]

/-- A block that reports silence has samples that are numerically 0, and its envelope ended Idle unless it was bypassed
or empty (R209). -/
theorem of_blockSilent {num : Numerics} {n : BitVec 32} {s : State} (h : blockSilent num n s = true) :
    (∀ y ∈ (blockResult num n s).2, feq y f0 = true) ∧
      ((blockResult num n s).1.env = .idle ∨ committedBypass s = true ∨ n = 0#32) := by
  rcases Bool.or_eq_true_iff.1 h with hkind | hflag
  · have hkind := of_decide_eq_true hkind
    refine ⟨fun y hy => ?_, .inr hkind⟩
    rw [blockResult, if_pos hkind] at hy
    exact List.eq_of_mem_replicate hy ▸ feq_f0_self
  · obtain ⟨henv, hzero⟩ := silentFlag_iff.1 hflag
    exact ⟨hzero, .inl henv⟩

end

/-- Settles O42: the words of a block are the fan-out of its samples, and its STATUS word echoes `C` and `N`. -/
theorem processEmitsSamplesThenStatus : Obligations.ProcessEmitsSamplesThenStatus := by
  intro c n s
  have hlen := blockResult_length numerics n s
  obtain ⟨hreserved, hc, hn⟩ := statusWord_fields (blockSilent numerics n s) c n
  refine ⟨_, (blockResult numerics n s).2, blockWords numerics n s c, _,
    congrArg Host.Outcome.next (processBlock_eq numerics n s c), rfl, hlen, ?_, ?_, hreserved, hc, hn,
    rfl, rfl, rfl, rfl⟩
  · rw [blockWords, flatMap_replicate_length, hlen]
  · exact fun k ch _ hch => getElem?_flatMap_replicate hch _ k

/-- Settles O44: the samples of such a block are all +0.0, and no register changes after the block's start. -/
theorem bypassedOrEmptyBlockIsSilentAndFrozen : Obligations.BypassedOrEmptyBlockIsSilentAndFrozen := by
  intro c n s h
  refine ⟨_, congrArg Host.Outcome.next (processBlock_silent h), ?_, ?_⟩
  · rw [fanOut_eq_map, flatMap_replicate_replicate]
    rfl
  · rw [blockStart_eq]
    exact ⟨rfl, rfl, rfl, intakeVoice_phase .., intakeVoice_level .., intakeVoice_ic1 .., intakeVoice_ic2 ..⟩

/-- Settles O48: silence is of all samples, and the words are the samples. -/
theorem silentFlagGuaranteesZeroOutput : Obligations.SilentFlagGuaranteesZeroOutput := by
  intro c n s
  refine ⟨_, blockWords numerics n s c, _, congrArg Host.Outcome.next (processBlock_eq numerics n s c), rfl, ?_⟩
  rw [statusWord_silent]
  intro h
  have hsilent : blockSilent numerics n s = true := by
    by_contra hfalse
    rw [if_neg hfalse] at h
    cases h
  obtain ⟨hzero, hidle⟩ := of_blockSilent hsilent
  exact ⟨fun y hy => eq_zero_of_feq_f0 (hzero y (mem_of_mem_flatMap_replicate hy)), hidle⟩

/-- Settles O49: neither the result of a block nor its silence depends on the channel count. -/
theorem channelCountOnlyFansOut : Obligations.ChannelCountOnlyFansOut := by
  intro c c' n s
  refine ⟨_, _, blockWords numerics n s c, blockWords numerics n s c', _, _,
    congrArg Host.Outcome.next (processBlock_eq numerics n s c),
    congrArg Host.Outcome.next (processBlock_eq numerics n s c'), rfl, rfl, rfl, rfl, rfl, ?_, ?_, ?_⟩
  · rw [statusWord_silent, statusWord_silent]
  · rintro rfl
    simp [blockWords]
  · rintro rfl
    simp [blockWords, blockSilent, blockResult, statusWord]

/-! ## One sample (R206, R207) -/

section
variable {num : Numerics} {r : ParamBank} {b : BlockValues} {v : Voice}

theorem sampleStep_sounding (h : fgt (envStep v).level f0 = true) :
    sampleStep num r b v = soundingSample num r b (envStep v) := if_pos h

theorem sampleStep_silent (h : fgt (envStep v).level f0 = false) : sampleStep num r b v = (envStep v, f0) :=
  if_neg (Bool.eq_false_iff.1 h)

theorem soundingSample_without_filter (h : b.filter = none) :
    soundingSample num r b v =
      ({ v with phase := nextPhase v.phase b.phaseInc }, fmul (fmul (osc num v.phase r.wave.val) r.gain) v.level) := by
  simp only [soundingSample, h, filterSample, advancePhase]

/-- With the filter, its step on the oscillator sample gives the memory and the value to scale. -/
theorem soundingSample_with_filter {q : FilterCoeffs} (h : b.filter = some q) {y : Voice × F32}
    (hy : filterStep q (osc num v.phase r.wave.val) v = y) :
    soundingSample num r b v =
      ({ v with phase := nextPhase v.phase b.phaseInc, ic1 := y.1.ic1, ic2 := y.1.ic2 },
        fmul (fmul y.2 r.gain) v.level) := by
  subst hy
  simp only [soundingSample, h, filterSample, filterStep, advancePhase]

/-- The filter step reads the filter memory and no other register of the voice. -/
theorem filterStep_congr {w : Voice} (h1 : w.ic1 = v.ic1) (h2 : w.ic2 = v.ic2) (q : FilterCoeffs) (x : F32) :
    filterStep q x w =
      ({ w with ic1 := (filterStep q x v).1.ic1, ic2 := (filterStep q x v).1.ic2 }, (filterStep q x v).2) := by
  simp only [filterStep, h1, h2]

end

/-- Settles O46: the envelope step before the sounding path writes neither the phase nor the filter memory. -/
theorem soundingSampleIsScaledAndAdvances : Obligations.SoundingSampleIsScaledAndAdvances := by
  intro r b v h e x
  obtain ⟨hphase, h1, h2, -⟩ := envStep_frame v
  rw [sampleStep_sounding h]
  refine ⟨fun hfilter => ?_, fun q hfilter => ?_⟩
  · rw [soundingSample_without_filter hfilter, hphase]
  · rw [soundingSample_with_filter hfilter (filterStep_congr h1 h2 q _), hphase]

/-- Settles O47: the silent path leaves the voice of the envelope step. -/
theorem silentSampleTouchesNothing : Obligations.SilentSampleTouchesNothing := by
  intro r b v h
  obtain ⟨hphase, h1, h2, -⟩ := envStep_frame v
  exact ⟨sampleStep_silent h, hphase, h1, h2⟩

/-! ## The sample loop (R204, R205) -/

section
variable {num : Numerics} {r : ParamBank} {b : BlockValues}

/-- The last sample of a loop starts from the voice of the loop without it. -/
theorem sampleLoop_succ_voice (n : Nat) (v : Voice) :
    (sampleLoop num r b (n + 1) v).1 = (sampleStep num r b (sampleLoop num r b n v).1).1 := by
  induction n generalizing v with
  | zero => rfl
  | succ n ih => exact ih (sampleStep num r b v).1

/-- Sample `k` of a loop is computed from the voice after the `k` samples before it. -/
theorem sampleLoop_getElem? {n k : Nat} (hk : k < n) (v : Voice) :
    (sampleLoop num r b n v).2[k]? = some (sampleStep num r b (sampleLoop num r b k v).1).2 := by
  induction n generalizing k v with
  | zero => omega
  | succ n ih =>
    cases k with
    | zero => rfl
    | succ k => exact ih (Nat.lt_of_succ_lt_succ hk) (sampleStep num r b v).1

end

section
variable (num : Numerics) (s : State)

/-- The voice after `k` samples of the block that a `PROCESS` in state `s` runs. -/
def voiceAfter (k : Nat) : Voice := (sampleLoop num (committedBank s) (startValues num s) k (startVoice num s)).1

theorem voiceAfter_succ (k : Nat) :
    voiceAfter num s (k + 1) = (sampleStep num (committedBank s) (startValues num s) (voiceAfter num s k)).1 :=
  sampleLoop_succ_voice k _

theorem blockLoop_getElem? {n : BitVec 32} {k : Nat} (hk : k < n.toNat) :
    (blockLoop num n s).2[k]? = some (sampleStep num (committedBank s) (startValues num s) (voiceAfter num s k)).2 :=
  sampleLoop_getElem? hk _

theorem startValues_filter :
    (startValues num s).filter = if s.cfg.filterEn then some (filterCoeffs num s.cfg (committedBank s)) else none := rfl

end

/-- Settles O45: the voices are those after each number of samples, and the values of step 4 are their definitions. -/
theorem soundingBlockRunsTheSampleLoop : Obligations.SoundingBlockRunsTheSampleLoop := by
  intro c n s hbypass hn
  refine ⟨_, startValues numerics s,
    baseFrequency numerics s.cfg.pitchMode (committedBank s).freq (startVoice numerics s).noteFreq,
    voiceAfter numerics s, (blockLoop numerics n s).2, _,
    congrArg Host.Outcome.next (processBlock_sounding hbypass hn), sampleLoop_length .., ?start, rfl, ?bank,
    ?knob, ?note, rfl, ?noFilter, ?filter, ?samples, ?words, silentFlag_iff⟩
  case start => rw [blockStart_eq]; rfl
  case bank => rw [blockStart_eq]
  case knob => intro hmode; rw [hmode]; rfl
  case note => intro hmode; rw [hmode]; rfl
  case noFilter => intro hfilter; rw [startValues_filter, hfilter]; rfl
  case filter =>
    intro hfilter
    refine ⟨filterCoeffs numerics s.cfg (committedBank s), cutoffHz numerics s.cfg (committedBank s).freq, ?_,
      rfl, rfl, rfl, rfl, rfl⟩
    rw [startValues_filter, hfilter]
    rfl
  case samples =>
    intro k hk
    rw [voiceAfter_succ, blockLoop_getElem? numerics s hk, sampleStep]
    split <;> rfl
  case words => rw [fanOut_eq_map]; rfl

/-! ## Silence (R209) -/

/-- The voice has decayed: it makes no sound until a NOTE_ON. -/
def Voice.Decayed (v : Voice) : Prop := v.level = f0 ∧ v.env ≠ .attack ∧ InUnit v.releaseRate

/-- The block is silent until a NOTE_ON arrives: the voice has decayed, and no NOTE_ON is pending. -/
def State.Decayed (s : State) : Prop :=
  s.Inv ∧ s.v.Decayed ∧ s.pend.note.onSeen = false ∧ s.pend.note.last ≠ .on

/-- A release step from level 0 takes the level to 0 or below. -/
theorem fle_fsub_f0 {x : F32} (h : InUnit x) : fle (fsub f0 x) f0 = true := by
  by_contra hpos
  have hle := fsub_le (a := f0) (by decide) (inUnit_nonneg h) (Bool.eq_false_iff.2 hpos)
  have hzero : fsub f0 x = f0 := BitVec.eq_of_toNat_eq (Nat.le_zero.1 hle)
  rw [hzero] at hpos
  exact hpos (by decide)

theorem envStep_of_decayed {v : Voice} (h : v.Decayed) : envStep v = { v with env := .idle } := by
  obtain ⟨hlevel, hattack, hrate⟩ := h
  cases henv : v.env with
  | idle => rw [envStep_of_idle henv, ← henv]
  | attack => exact absurd henv hattack
  | release => rw [envStep_of_release henv, releaseStep, hlevel, if_pos (fle_fsub_f0 hrate)]

theorem Voice.Decayed.to_idle {v : Voice} (h : v.Decayed) : Voice.Decayed { v with env := .idle } := by
  obtain ⟨hlevel, -, hrate⟩ := h
  exact ⟨hlevel, by simp, hrate⟩

theorem voiceReset_decayed : Voice.reset.Decayed := by unfold Voice.Decayed; decide

theorem noteRecordEmpty_noOn : NoteRecord.empty.onSeen = false ∧ NoteRecord.empty.last ≠ .on := by decide

section
variable {num : Numerics} {s : State}

theorem sampleStep_of_decayed (r : ParamBank) (b : BlockValues) {v : Voice} (h : v.Decayed) :
    sampleStep num r b v = ({ v with env := .idle }, f0) := by
  have henv := envStep_of_decayed h
  obtain ⟨hlevel, -, -⟩ := h
  have hsilent : fgt (envStep v).level f0 = false := by
    rw [henv, hlevel]
    decide
  rw [sampleStep_silent hsilent, henv]

/-- The first sample from a decayed voice leaves it Idle, and the others leave it as it is. -/
theorem sampleLoop_of_decayed (r : ParamBank) (b : BlockValues) (n : Nat) {v : Voice} (h : v.Decayed) :
    sampleLoop num r b (n + 1) v = ({ v with env := .idle }, List.replicate (n + 1) f0) := by
  induction n generalizing v with
  | zero => rw [sampleLoop_succ, sampleStep_of_decayed r b h, sampleLoop_zero]; rfl
  | succ n ih =>
    rw [sampleLoop_succ, sampleStep_of_decayed r b h, ih h.to_idle]
    rfl

/-- A NOTE_OFF triggers a release, so the note intake without a NOTE_ON leaves a decayed voice decayed. -/
theorem startVoice_decayed (h : s.Decayed) : (startVoice num s).Decayed := by
  obtain ⟨⟨hreg, hlegal⟩, ⟨hlevel, hattack, -⟩, hseen, hlast⟩ := h
  obtain ⟨-, -, hrate, -⟩ := intakeVoice_legal num s.cfg s.pend.note (committedBank_legal hreg) hlegal
  refine ⟨(intakeVoice_level ..).trans hlevel, ?_, hrate⟩
  rw [startVoice, intakeVoice_eq]
  simp only [intakeEnv, hseen]
  split
  next hon => exact absurd hon hlast
  next => simp
  next => split <;> simp [hattack]

theorem blockResult_of_decayed (h : s.Decayed) (n : BitVec 32) :
    (blockResult num n s).1.Decayed ∧ (blockResult num n s).2 = List.replicate n.toNat f0 ∧
      blockSilent num n s = true := by
  have hstart := startVoice_decayed (num := num) h
  by_cases hkind : committedBypass s = true ∨ n = 0#32
  · simp [blockSilent, blockResult, hkind, hstart]
  · have hpos : n.toNat ≠ 0 := fun hzero => hkind (.inr (BitVec.eq_of_toNat_eq hzero))
    have hresult : blockResult num n s = ({ startVoice num s with env := .idle }, List.replicate n.toNat f0) := by
      rw [blockResult, if_neg hkind, blockLoop, ← Nat.succ_pred_eq_of_pos (Nat.pos_of_ne_zero hpos)]
      exact sampleLoop_of_decayed _ _ _ hstart
    refine ⟨?_, congrArg Prod.snd hresult, ?_⟩
    · rw [hresult]
      exact hstart.to_idle
    · rw [blockSilent, hresult, Bool.or_eq_true, silentFlag_iff]
      exact .inr ⟨rfl, fun y hy => List.eq_of_mem_replicate hy ▸ feq_f0_self⟩

end

/-- Every OUT word of the list is +0.0, and every STATUS word has `SILENT = 1`. -/
def SilentWords (ws : List Emission) : Prop :=
  (∀ y ∈ outWords ws, y = 0x00000000#32) ∧ ∀ w ∈ statusWords ws, w.extractLsb' 63 1 = 1#1

theorem silentWords_nil : SilentWords [] := ⟨by simp [outWords], by simp [statusWords]⟩

theorem SilentWords.append {ws ws' : List Emission} (h : SilentWords ws) (h' : SilentWords ws') :
    SilentWords (ws ++ ws') := by
  unfold SilentWords
  rw [outWords_append, statusWords_append]
  exact ⟨fun y hy => (List.mem_append.1 hy).elim (h.1 y) (h'.1 y),
    fun w hw => (List.mem_append.1 hw).elim (h.2 w) (h'.2 w)⟩

theorem exec_process_of_decayed {s : State} (h : s.Decayed) (c : BitVec 8) (n : BitVec 32) :
    ∃ (t : State) (ws : List Emission), exec (.process c n) s = .next t ∧ t.offered = s.offered ++ ws ∧
      SilentWords ws ∧ t.Decayed := by
  obtain ⟨hv, hsamples, hsilent⟩ := blockResult_of_decayed (num := numerics) h n
  have hinv := processBlock_inv numerics c n h.1
  rw [processBlock_eq] at hinv
  refine ⟨_, _, congrArg Host.Outcome.next (processBlock_eq numerics n s c), rfl, ⟨fun y hy => ?_, fun w hw => ?_⟩,
    hinv, hv, noteRecordEmpty_noOn⟩
  · rw [outWords_append, outWords_map_out, outWords_status, List.append_nil, blockWords, hsamples] at hy
    exact List.eq_of_mem_replicate (mem_of_mem_flatMap_replicate hy)
  · rw [statusWords_append, statusWords_map_out, statusWords_status, List.nil_append, List.mem_singleton] at hw
    rw [hw, statusWord_silent, hsilent, if_pos rfl]

/-- The note record after a command that is no NOTE_ON and no `PROCESS`: kept, with a NOTE_OFF added, or empty. -/
theorem exec_note_cases {i : Instr} {s t : State} (hon : ∀ pitch vel chan, i ≠ .noteOn pitch vel chan)
    (hproc : ∀ c n, i ≠ .process c n) (ht : exec i s = .next t) :
    t.pend.note = s.pend.note ∨ t.pend.note = noteRecordOff s.pend.note ∨ t.pend.note = NoteRecord.empty := by
  cases i with
  | noteOn pitch vel chan => exact absurd rfl (hon pitch vel chan)
  | process c n => exact absurd rfl (hproc c n)
  | noteOff pitch vel chan => cases ht; exact .inr (.inl rfl)
  | activate => cases ht; exact .inr (.inr rfl)
  | paramReserved pid pos value =>
    cases ht
    rw [paramSet]
    split <;> exact .inl rfl
  | _ => cases ht; exact .inl rfl

theorem exec_of_decayed {i : Instr} {s : State} (h : s.Decayed) (hon : ∀ pitch vel chan, i ≠ .noteOn pitch vel chan) :
    ∃ (t : State) (ws : List Emission), exec i s = .next t ∧ t.offered = s.offered ++ ws ∧ SilentWords ws ∧
      t.Decayed := by
  by_cases hblock : ∃ c n, i = .process c n
  · obtain ⟨c, n, rfl⟩ := hblock
    exact exec_process_of_decayed h c n
  have hproc : ∀ c n, i ≠ .process c n := fun c n hi => hblock ⟨c, n, hi⟩
  obtain ⟨t, ht, hinv⟩ := exec_inv i h.1
  obtain ⟨-, hv, hseen, hlast⟩ := h
  have hnote : t.pend.note.onSeen = false ∧ t.pend.note.last ≠ .on := by
    rcases exec_note_cases hon hproc ht with hn | hn | hn <;> rw [hn]
    · exact ⟨hseen, hlast⟩
    · exact ⟨hseen, by simp [noteRecordOff]⟩
    · decide
  rcases exec_cases i s hproc with ⟨p, hp, -⟩ | ⟨-, hp⟩
  · cases hp.symm.trans ht
    exact ⟨_, [], ht, (List.append_nil _).symm, silentWords_nil, hinv, hv, hnote⟩
  · cases hp.symm.trans ht
    exact ⟨_, [], ht, (List.append_nil _).symm, silentWords_nil, hinv, voiceReset_decayed, hnote⟩

/-- Every command but NOTE_ON keeps a decayed state and offers silent words only, so a sequence of them does. -/
theorem execAll_of_decayed (is : List Instr) {s : State} (h : s.Decayed)
    (hon : ∀ pitch vel chan, Instr.noteOn pitch vel chan ∉ is) :
    ∃ (t : State) (ws : List Emission), execAll is s = .next t ∧ t.offered = s.offered ++ ws ∧ SilentWords ws := by
  induction is generalizing s with
  | nil => exact ⟨s, [], rfl, (List.append_nil _).symm, silentWords_nil⟩
  | cons i is ih =>
    obtain ⟨t, ws, ht, hoff, hwords, hdecayed⟩ :=
      exec_of_decayed h fun pitch vel chan hi => hon pitch vel chan (hi ▸ List.mem_cons_self)
    obtain ⟨u, ws', hu, hoff', hwords'⟩ :=
      ih hdecayed fun pitch vel chan hi => hon pitch vel chan (List.mem_cons_of_mem i hi)
    refine ⟨u, ws ++ ws', (execAll_cons is ht).trans hu, ?_, hwords.append hwords'⟩
    rw [hoff', hoff, List.append_assoc]

/-- Settles O50: the voice has decayed, its level being +0.0 and its release rate in [0, 1] by the invariant. -/
theorem noNoteOnMeansSilence : Obligations.NoNoteOnMeansSilence := by
  intro is s hinv hlevel hattack hseen hlast hon
  have ⟨_, _, _, hrate, _⟩ := hinv
  exact execAll_of_decayed is ⟨hinv, ⟨hlevel, hattack, hrate⟩, hseen, hlast⟩ hon

end Sys2Proof.Machine

/-! PROOFS. 46_control.md: `ACTIVATE` (O51), and `NOP` with the ten reserved opcodes that execute as it does (O52). -/

namespace Sys2Proof.Machine

/-! ## `ACTIVATE` (R230) -/

theorem exec_activate (s : State) : exec .activate s = .next (activateVoice s) := rfl

/-- Two in a row have the effect of one: what `ACTIVATE` writes does not depend on what it replaces. -/
@[simp] theorem activateVoice_activateVoice (s : State) : activateVoice (activateVoice s) = activateVoice s := rfl

/-- `ACTIVATE` discards the note record, whatever was recorded. -/
@[simp] theorem activateVoice_setNoteRecord (r : NoteRecord) (s : State) :
    activateVoice (setNoteRecord r s) = activateVoice s := rfl

/-- Settles O51: `ACTIVATE` replaces the voice and the note record by fixed values, so it absorbs an `ACTIVATE` or a
`NOTE_ON` before it. -/
theorem activateResetsTheVoice : Obligations.ActivateResetsTheVoice := by
  intro s
  refine ⟨activateVoice s, exec_activate s, ?voice, ?intake, activateVoice_cfg s, activateVoice_reg s,
    activateVoice_cmd s, activateVoice_offered s, activateVoice_emitted s, activateVoice_hostReady s, ?twice, ?noteOn⟩
  case voice => rw [activateVoice_v, Voice.reset]
  case intake => rw [activateVoice, NoteRecord.empty]
  case twice => rw [exec_activate, activateVoice_activateVoice]
  case noteOn =>
    intro pitch vel chan
    rw [execAll_cons _ (exec_noteOn pitch vel chan s), execAll_cons _ (exec_activate _), execAll_nil,
      activateVoice_setNoteRecord]

/-! ## `NOP` and the reserved opcodes (R231, R232) -/

theorem exec_nop (s : State) : exec .nop s = .next s := congrArg Host.Outcome.next (noEffect_eq s)

/-- Settles O52: the arm of each reserved opcode is that of `NOP`. -/
theorem nopAndReservedOpcodesChangeNothing : Obligations.NopAndReservedOpcodesChangeNothing := by
  intro s
  have hnop := exec_nop s
  exact ⟨hnop, hnop, hnop, hnop, hnop, hnop, hnop, hnop, hnop, hnop, hnop⟩

end Sys2Proof.Machine

/-! PROOFS. 60_exceptions.md: no command and no step stops (O56), a block without commands keeps its state (O9), and no
divisor is below 1.0 (O40). A divisor may be +inf, where a large sample rate or `G` overflows, but it is no NaN, because
the factors of every product in it are finite. -/

namespace Sys2Proof.Machine

/-! ## Runs that do not stop (R260, R275) -/

/-- What every step keeps without stopping, a run of any length keeps without stopping. -/
theorem run_keeps {P : State → Prop} (h : ∀ s, P s → ∃ t, step s = .next t ∧ P t) (k : Nat) {s : State}
    (hs : P s) : ∃ t, Sys2Proof.core.run k s = .next t ∧ P t := by
  induction k generalizing s with
  | zero => exact ⟨s, run_zero s, hs⟩
  | succ k ih =>
    obtain ⟨t, hstep, ht⟩ := h s hs
    obtain ⟨u, hrun, hu⟩ := ih ht
    exact ⟨u, (run_succ k hstep).trans hrun, hu⟩

theorem exec_keeps_cfg (i : Instr) (s : State) : ∃ t, exec i s = .next t ∧ t.cfg = s.cfg := by
  by_cases hi : ∃ c n, i = .process c n
  · obtain ⟨c, n, rfl⟩ := hi
    obtain ⟨hcfg, -⟩ := processBlock_frame numerics c n s
    exact ⟨_, rfl, hcfg⟩
  · rcases exec_cases i s fun c n hc => hi ⟨c, n, hc⟩ with ⟨p, ht, -⟩ | ⟨-, ht⟩
    · exact ⟨_, ht, rfl⟩
    · exact ⟨_, ht, activateVoice_cfg s⟩

theorem handshake_cfg (e : Emission) (rest : List Emission) (s : State) : (handshake e rest s).cfg = s.cfg := by
  rcases handshake_cases e rest s with ⟨later, ht, -⟩ | ⟨later, ht, -⟩ <;> rw [ht]
  exact takeOffered_cfg ..

theorem step_keeps_cfg (s : State) : ∃ t, step s = .next t ∧ t.cfg = s.cfg := by
  rcases step_cases s with ⟨e, rest, -, hstep⟩ | ⟨-, w, later, -, hstep⟩ | ⟨-, -, hstep⟩ <;> rw [hstep]
  · exact ⟨_, rfl, handshake_cfg e rest s⟩
  · exact exec_keeps_cfg (decodeWord w) { s with cmd := later }
  · exact ⟨s, rfl, rfl⟩

/-- Settles O56: a step is a handshake, a command or nothing, and none of them stops or writes the configuration. -/
theorem noCommandStops : Obligations.NoCommandStops := by
  refine ⟨fun w s => ?_, fun k s => ?_⟩
  · obtain ⟨t, ht, -⟩ := exec_keeps_cfg (decodeWord w) s
    exact ⟨t, ht⟩
  · refine run_keeps (P := fun u => u.cfg = s.cfg) (fun u hu => ?_) k rfl
    obtain ⟨t, hstep, ht⟩ := step_keeps_cfg u
    exact ⟨t, hstep, ht.trans hu⟩

/-- Settles O9, by induction on the number of steps: each of them finds the same empty streams. -/
theorem noCommandsKeepTheState : Obligations.NoCommandsKeepTheState := by
  intro k s ho hc
  induction k with
  | zero => exact run_zero s
  | succ k ih => exact (run_succ k (step_empty ho hc)).trans ih

/-! ## Divisors (R265) -/

theorem fge_one_of_atLeastOne {x : F32} (h : AtLeastOne x) : fge x f1 = true := by
  obtain ⟨hone, hinf⟩ := h
  rcases Nat.lt_or_eq_of_le hinf with hfin | hinf
  · exact fle_of_toNat_le hfin hone
  · rw [BitVec.eq_of_toNat_eq (y := 0x7F800000#32) hinf]
    decide

/-- 1.0 plus a value that is not negative and no NaN. -/
theorem atLeastOne_one_fadd {x : F32} (h : x.toNat ≤ 0x7F800000) : AtLeastOne (fadd f1 x) := by
  rcases Nat.lt_or_eq_of_le h with hfin | hinf
  · refine ⟨le_fadd (a := f1) (by decide) hfin, ?_⟩
    rw [fadd_toNat (by decide) hfin]
    exact roundLow_le_inf _ _
  · rw [BitVec.eq_of_toNat_eq (y := 0x7F800000#32) hinf]
    decide

/-- What is finite and above 0 has the sign bit 0. -/
theorem nonnegFinite_of_positive {x : F32} (hfin : f32IsFinite x = true) (hpos : fgt x f0 = true) : NonnegFinite x := by
  have hkey : 0 < f32Key x := f32Key_lt_of_flt hpos
  have hlow : f32Low x < 0x7F800000 := of_decide_eq_true hfin
  have hle : f32Key x ≤ f32Low x := by
    unfold f32Key
    split <;> omega
  rcases f32Key_eq_toNat_or_negZero (Int.le_of_lt hkey) with h | rfl
  · show x.toNat < 0x7F800000
    omega
  · exact absurd hkey (by decide)

/-- A range with a lower end above 0 is a bound on the pattern. -/
theorem toNat_le_of_inRange {lo x hi : F32} (hlo : 0 < f32Key lo) (hhi : NonnegFinite hi) (h : inRange lo x hi = true) :
    x.toNat ≤ hi.toNat := by
  obtain ⟨hlow, hhigh⟩ := (Bool.and_eq_true ..).mp h
  have hpos : 0 < f32Key x := Int.lt_of_lt_of_le hlo (f32Key_le_of_fle hlow)
  have hle := f32Key_le_of_fle hhigh
  rw [f32Key_nonneg hhi] at hle
  rcases f32Key_eq_toNat_or_negZero (Int.le_of_lt hpos) with hkey | rfl
  · omega
  · exact absurd hpos (by decide)

theorem dampingOf_le {res : F32} (h : InUnit res) : (dampingOf res).toNat ≤ f2.toNat :=
  toNat_le_of_inRange (by decide) (by decide) (dampingRange res h)

theorem warpOf_finite (c : Cfg) {freq : F32} (h : InUnit freq) : NonnegFinite (warpOf numerics c freq) := by
  obtain ⟨-, hfin, hpos⟩ := nyquistGuardKeepsTheWarpFinite c freq h
  exact nonnegFinite_of_positive hfin hpos

/-- Adding at most 2.0 to a finite value does not round up to +inf. -/
theorem fadd_finite_of_le_two {a b : F32} (ha : NonnegFinite a) (hb : b.toNat ≤ f2.toNat) : NonnegFinite (fadd a b) :=
  calc (fadd a b).toNat
    _ ≤ (fadd 0x7F7FFFFF#32 f2).toNat := fadd_mono (by decide) (by decide) (Nat.le_of_lt_succ ha) hb
    _ < 0x7F800000 := by decide +kernel

/-- The divisor of `A1` (42_filter.md R141). -/
theorem filterDivisor_atLeastOne {g k : F32} (hg : NonnegFinite g) (hk : k.toNat ≤ f2.toNat) :
    AtLeastOne (fadd f1 (fmul g (fadd g k))) :=
  atLeastOne_one_fadd (fmul_le_inf hg (fadd_finite_of_le_two hg hk))

/-- Settles O40: the sample rate by R5, the sample counts by their floor, and the last divisor because `G` and `K` are
not negative. -/
theorem noRuleDividesByZero : Obligations.NoRuleDividesByZero := by
  intro c x freq res hx hfreq hres
  refine ⟨?rate, ?attack, ?release, ?filter⟩
  case rate => exact fle_of_toNat_le (sampleRate_finite c) (one_le_sampleRate c)
  case attack => exact fge_one_of_atLeastOne (envSamples_atLeastOne c (attackMs_finite hx))
  case release => exact fge_one_of_atLeastOne (envSamples_atLeastOne c (releaseMs_finite hx))
  case filter => exact fge_one_of_atLeastOne (filterDivisor_atLeastOne (warpOf_finite c hfreq) (dampingOf_le hres))

end Sys2Proof.Machine

/-! PROOFS. 70_reset_and_hazards.md: the state after power-on (O53), and which register values the rates come from (O26,
O27): the note intake runs after the commit of the same `PROCESS`, and no sample writes a rate. -/

namespace Sys2Proof.Machine

/-! ## Power-on (R300) -/

/-- Settles O53: each field is the one R300 names, and with nothing offered the step takes the word. -/
theorem powerOnState : Obligations.PowerOnState := by
  refine ⟨fun c => ?fields, fun c w => ?firstWord, Config.cfg, rfl⟩
  case fields =>
    exact ⟨rfl, rfl, rfl, fun p => ⟨perPidGet_fill false p, perPidGet_fill 0#32 p⟩, rfl, rfl, rfl, rfl⟩
  case firstWord => exact step_command (s := hostSend [w] (State.powerOn c)) rfl rfl

/-! ## The rates after a `PROCESS` (R305, R306) -/

theorem processBlock_attackRate (num : Numerics) (c : BitVec 8) (n : BitVec 32) (s : State) :
    (processBlock num c n s).v.attackRate =
      if s.pend.note.onSeen then attackRateOf s.cfg (committedBank s).attack else s.v.attackRate := by
  obtain ⟨-, hattack, -⟩ := processBlock_keeps_rates num c n s
  exact hattack.trans (intakeVoice_attackRate ..)

theorem processBlock_releaseRate (num : Numerics) (c : BitVec 8) (n : BitVec 32) (s : State) :
    (processBlock num c n s).v.releaseRate =
      if s.pend.note.offSeen then releaseRateOf s.cfg (committedBank s).release s.v.level else s.v.releaseRate := by
  obtain ⟨-, -, hrelease⟩ := processBlock_keeps_rates num c n s
  exact hrelease.trans (intakeVoice_releaseRate ..)

/-- A note command, a `PARAM_SET` after it, and the `PROCESS` that takes in both. -/
theorem execAll_note_param_process {i : Instr} {k : NoteRecord} {s : State}
    (hnote : exec i s = .next (setNoteRecord k s)) (p : Pid) (pos : BitVec 24) (x : F32) (c : BitVec 8) (n : BitVec 32) :
    execAll [i, paramInstr p pos x, .process c n] s =
      .next (processBlock numerics c n (recordParam p x (setNoteRecord k s))) :=
  (execAll_cons _ hnote).trans (execAll_param_process p pos x c n _)

/-- Settles O26: the state that the `PROCESS` starts from has `ON_SEEN` set and the new `ATTACK` pending. -/
theorem attackRateComesFromTheCommittedAttack : Obligations.AttackRateComesFromTheCommittedAttack := by
  refine ⟨fun pitch vel chan pos x c n s => ?_, fun c n s hseen => ?_⟩
  · refine ⟨_, execAll_note_param_process (exec_noteOn pitch vel chan s) .attack pos x c n, ?_, ?_⟩
    · rw [processBlock_reg]
      rfl
    · rw [processBlock_attackRate]
      rfl
  · refine ⟨_, rfl, ?_⟩
    rw [processBlock_attackRate, hseen]
    rfl

/-- Settles O27: the state that the `PROCESS` starts from has `OFF_SEEN` set, the new `RELEASE` pending and the old
level. -/
theorem releaseRateIsCapturedAtTheIntake : Obligations.ReleaseRateIsCapturedAtTheIntake := by
  refine ⟨fun pitch vel chan pos x c n s => ?_, fun c n s hseen => ?_⟩
  · refine ⟨_, execAll_note_param_process (exec_noteOff pitch vel chan s) .release pos x c n, ?_, ?_⟩
    · rw [processBlock_reg]
      rfl
    · rw [processBlock_releaseRate]
      rfl
  · refine ⟨_, rfl, ?_⟩
    rw [processBlock_releaseRate, hseen]
    rfl

end Sys2Proof.Machine
